-- ==== Sys2Proof/Word.lean ====
section
/-! DEFINITION. The words of the frame unit and the closed sets of names the spec uses for fields of one or two bits
(10_state.md R20, 30_encoding.md R81, R91, R92, 40_address.md R110, 44_socket_ops.md R196). -/

namespace Sys2Proof

/-- One byte of a frame, the unit of an exchange (R4, R50). -/
abbrev Byte := BitVec 8

/-- A 16-bit value: register offset or circular pointer (R8: OFF_W, PTR_W, the source's), or a byte count as R90 gives the
operands `n` and `L` (how long a count may be, LEN_W, is a field of the configuration). -/
abbrev Half := BitVec 16

/-- A 5-bit block-select (R8: BSB_W). -/
abbrev Block := BitVec 5

/-- A 3-bit socket index 0..7 (R110, R121). -/
abbrev Sock := BitVec 3

/-- E, the failure value of the byte-exchange primitive: nothing but an identity, passed on unchanged and never inspected
(R8, R241). A type of its own, so that no arithmetic applies to it; plain data, so that states can be compared (DESIGN
CHOICE, log entry 16, safe). -/
structure BusErr where
  identity : Nat
  deriving DecidableEq, Repr

/-- Direction of a frame: bit value 0 read, 1 write (R80, R83). -/
inductive Dir where
  | read
  | write
  deriving DecidableEq, Repr

/-- The region codes of a socket's blocks (R110). -/
inductive Region where
  | common
  | sreg
  | stx
  | srx
  deriving DecidableEq, Repr

/-- The twelve named registers of a socket block, in the order of the name codes 0..11 (R91). -/
inductive RegName where
  | mode
  | command
  | interrupt
  | interruptMask
  | sourcePort
  | destAddress
  | destPort
  | txReadPointer
  | txWritePointer
  | rxReadPointer
  | rxWritePointer
  | receivedSize
  deriving DecidableEq, Repr

/-- The command tags of issue_command (R196, R206). -/
inductive CmdTag where
  | openTag
  | listen
  | connect
  | disconnect
  | close
  | send
  | receiveAck
  deriving DecidableEq, Repr

/-- The twelve classes of a wire header (R92). -/
inductive WireClass where
  | rdCommon
  | wrCommon
  | rdSreg
  | wrSreg
  | rdStx
  | wrStx
  | rdSrx
  | wrSrx
  | rsvBsb
  | rsvOm1
  | rsvOm2
  | rsvOm3
  deriving DecidableEq, Repr

/-- The three header bytes, `h0` first on the bus (R80). -/
structure Header where
  h0 : Byte
  h1 : Byte
  h2 : Byte
  deriving DecidableEq, Repr

/-- The three fields of a control byte (R82). -/
structure CtlFields where
  bsb : Block
  dir : Dir
  om : BitVec 2
  deriving DecidableEq, Repr

/-- The four fields of a header (R81). -/
structure HdrFields where
  off : Half
  bsb : Block
  dir : Dir
  om : BitVec 2
  deriving DecidableEq, Repr

/-- The result of the splitter: the chunks `(o0, l0)` and, when `two`, `(0, l1)`; `fits` says L <= S (R90, R175). Without a
second chunk `l1` is a free value (log entry 35). -/
structure Split where
  o0 : Half
  l0 : Half
  two : Bool
  l1 : Half
  fits : Bool
  deriving DecidableEq, Repr

/-- A 4-byte network address in the order it is written with dots (R55, R201). -/
structure Addr4 where
  a0 : Byte
  a1 : Byte
  a2 : Byte
  a3 : Byte
  deriving DecidableEq, Repr

end Sys2Proof
end

