-- ==== Sys2Proof/Config.lean ====
section
/-! DEFINITION. The parameters of 00_scope.md R8 that the source does not fix, as fields of a configuration with the
spec's defaults, and the free values (R12 `draw`): constants without a body, of which nothing can be proved. -/

namespace Sys2Proof

/-- The implementation parameters (R8): one field for each value that R8 calls a default. OFF_W, BSB_W, PTR_W, BSB_SHIFT,
HDR_LEN, DGRAM_HDR_LEN and NSOCK are the source's and stand in the types and formulas. S and SEND_RETRY_MAX are operands
(R9, D32). -/
structure Config where
  /-- LEN_W: the width of a frame's byte count, on the command port and in LEN; at most 16, which R90 gives the count
  operands (R8, R20, D42). -/
  lenW : Nat
  /-- RWB_POS: bit position of the direction bit in the control byte (R83). -/
  rwbPos : Nat
  /-- OM_LO: lowest bit of the length-mode field (R84). -/
  omLo : Nat
  /-- OM_HI: highest bit of the length-mode field (R84). -/
  omHi : Nat
  /-- OM_VDM: the value of variable-length mode (R84). -/
  omVdm : BitVec 2
  /-- DUMMY: the byte transmitted while reading (R150, R155). -/
  dummy : Byte
  /-- ROFF: the offset of each named register (R117). -/
  roff : RegName → Half
  /-- CMD: the command codes (R196). -/
  cmd : CmdTag → Byte
  /-- IRQ[send-completion] (R196). -/
  irqSendDone : Byte
  /-- PROTO[udp] (R196). -/
  protoUdp : Byte
  /-- RSR_MIN: the least accepted received size (R8, R207). -/
  rsrMin : Half
  /-- RSR_GATE: whether get_receive_size also loops below RSR_MIN (R207, C2). -/
  rsrGate : Bool

/-- The default register offsets (R117). PRESUMED (log entry 13, unsafe): the numbers are the W5500's, from general
knowledge (G7). -/
def Config.stdRoff : RegName → Half
  | .mode => 0x0000
  | .command => 0x0001
  | .interrupt => 0x0002
  | .interruptMask => 0x002C
  | .sourcePort => 0x0004
  | .destAddress => 0x000C
  | .destPort => 0x0010
  | .txReadPointer => 0x0022
  | .txWritePointer => 0x0024
  | .rxReadPointer => 0x0028
  | .rxWritePointer => 0x002A
  | .receivedSize => 0x0026

/-- The default command codes (R196). PRESUMED (log entry 14, unsafe): general knowledge (G10). -/
def Config.stdCmd : CmdTag → Byte
  | .openTag => 0x01
  | .listen => 0x02
  | .connect => 0x04
  | .disconnect => 0x08
  | .close => 0x10
  | .send => 0x20
  | .receiveAck => 0x40

/-- The configuration of this machine: the defaults of R8. The unit, the reference peer and the host all read this one.
PRESUMED (log entries 12, 13, 14, unsafe) for the values from general knowledge; DESIGN CHOICE (log entry 15, unsafe) for
DUMMY and LEN_W; RSR_GATE as C2 resolves it (log entry 19, safe). -/
def Config.std : Config where
  lenW := 16
  rwbPos := 2
  omLo := 0
  omHi := 1
  omVdm := 0
  dummy := 0x00
  roff := Config.stdRoff
  cmd := Config.stdCmd
  irqSendDone := 0x10
  protoUdp := 0x02
  rsrMin := 8
  rsrGate := true

/-- The n-th free byte: a value no rule constrains (R12 `draw`, R155, R158). Log entry 3, safe. -/
opaque Config.freeByte : Nat → Byte

/-- What stands on the write-data port at an index the host has put nothing on (R71, U18). Log entry 24, safe. -/
opaque Config.portByte : Nat → Byte

/-- What the peer's byte at a key holds before anything is known to have written it (R37, U15). Log entry 2, safe. -/
opaque Config.peerInit : Nat → Byte

/-- The length `l1` that CP.SPLIT returns in `c1 = (0, l1)` when there is no second chunk: R90 lists it among the results,
R175 assigns it only when `two` = 1. A free value of the operands: DESIGN CHOICE (log entry 35, safe). -/
opaque Config.noChunk : Half → Half → BitVec 4 → Half

/-- The LEN_W bits of a byte count: what the command port carries of it and the register LEN holds (R8, R20, D42). -/
def Config.count (cfg : Config) (n : Half) : Half := BitVec.ofNat 16 (n.toNat % 2 ^ cfg.lenW)

/-- Whether a byte count is one that LEN_W bits can say (R8, D42). -/
def Config.countFits (cfg : Config) (n : Nat) : Bool := decide (n < 2 ^ cfg.lenW)

end Sys2Proof
end

