-- ==== Sys2Proof/Machine/Operands.lean ====
section
/-! DEFINITION. The operand forms and the arithmetic of the combinational units: byte order (00_scope.md R11), the block-select
mux and register names (40_address.md), the header codec (41_header.md), pointers and the splitter (43_circular.md). -/

namespace Sys2Proof.Machine

/-- The high byte of a 16-bit value (R11: `v[15:8]`). -/
def hi8 (v : Half) : Byte := v.extractLsb' 8 8

/-- The low byte of a 16-bit value (R11: `v[7:0]`). -/
def lo8 (v : Half) : Byte := v.extractLsb' 0 8

/-- Two bytes to a number, the more significant first (R11). -/
def be16 (h l : Byte) : Half := h ++ l

/-- A 16-bit value as two bytes, the more significant first (R11, R55; for register values PRESUMED, log entry 20, unsafe). -/
def bytesBe16 (v : Half) : List Byte := [hi8 v, lo8 v]

/-- The 16-bit value whose bytes stand at positions k and k+1 of a byte string (R11). -/
def be16At (bs : List Byte) (k : Nat) : Half := be16 (bs.getD k 0) (bs.getD (k + 1) 0)

/-- The four bytes of an address, in the order it is written with dots (R55, R201). -/
def addrBytes (a : Addr4) : List Byte := [a.a0, a.a1, a.a2, a.a3]

/-- The three bytes of a header in bus order (R80). -/
def headerBytes (h : Header) : List Byte := [h.h0, h.h1, h.h2]

/-- Byte k of HDRB, k in 0..2 (R20, R149). -/
def headerByte (h : Header) (k : Half) : Byte := if k = 0 then h.h0 else if k = 1 then h.h1 else h.h2

/-- The value of the direction bit: 0 read, 1 write (R83). -/
def dirBit : Dir → BitVec 1
  | .read => 0
  | .write => 1

/-- The direction named by the bit. -/
def dirOfBit (x : BitVec 1) : Dir := if x = 1 then .write else .read

/-- The 2-bit code of a region (R110). -/
def regionCode : Region → BitVec 2
  | .common => 0
  | .sreg => 1
  | .stx => 2
  | .srx => 3

/-- The region of a 2-bit code (R110). -/
def regionOf (x : BitVec 2) : Region :=
  if x = 0 then .common else if x = 1 then .sreg else if x = 2 then .stx else .srx

/-- The block-select mux: `b = {i, region} = 4*i + region` (R87, R110). -/
def blockOf (i : Sock) (r : Region) : Block := i ++ regionCode r

/-- The region field of a block-select, `b[1:0]` (R115). -/
def blockRegion (b : Block) : Region := regionOf (b.extractLsb' 0 2)

/-- The socket field of a block-select, `b[4:2]` (R115). -/
def blockSock (b : Block) : Sock := b.extractLsb' 2 3

/-- Whether the source assigns the block-select (R94, R115): `region != 0` or `i = 0`. -/
def blockAssigned (b : Block) : Bool := blockRegion b != .common || blockSock b == 0

/-- The register named by a 4-bit name code; 12..15 are not names (R91, R93). -/
def regNameOf (r : BitVec 4) : Option RegName :=
  match r.toNat with
  | 0 => some .mode
  | 1 => some .command
  | 2 => some .interrupt
  | 3 => some .interruptMask
  | 4 => some .sourcePort
  | 5 => some .destAddress
  | 6 => some .destPort
  | 7 => some .txReadPointer
  | 8 => some .txWritePointer
  | 9 => some .rxReadPointer
  | 10 => some .rxWritePointer
  | 11 => some .receivedSize
  | _ => none

/-- The width in bytes of a named register (R32). PRESUMED (log entry 13, unsafe) where the source gives none (G8). -/
def regWidth : RegName → Nat
  | .mode => 1
  | .command => 1
  | .interrupt => 1
  | .interruptMask => 1
  | .sourcePort => 2
  | .destAddress => 4
  | .destPort => 2
  | .txReadPointer => 2
  | .txWritePointer => 2
  | .rxReadPointer => 2
  | .rxWritePointer => 2
  | .receivedSize => 2

/-- A Register Address: block-select of the socket's register block and the offset of the name (R118). -/
def regAddr (cfg : Config) (i : Sock) (r : RegName) : Block × Half := (blockOf i .sreg, cfg.roff r)

/-- CTL.ENC: `(b << 3) | (rwb << RWB_POS) | (om << OM_LO)` (R82, R132). -/
def ctlEnc (cfg : Config) (b : Block) (d : Dir) (om : BitVec 2) : Byte :=
  (b.setWidth 8 <<< 3) ||| ((dirBit d).setWidth 8 <<< cfg.rwbPos) ||| (om.setWidth 8 <<< cfg.omLo)

/-- CTL.DEC: `b = c[7:3]`, `rwb = c[RWB_POS]`, `om = c[OM_HI:OM_LO]` (R133). -/
def ctlDec (cfg : Config) (c : Byte) : CtlFields where
  bsb := c.extractLsb' 3 5
  dir := dirOfBit (c.extractLsb' cfg.rwbPos 1)
  om := (c.extractLsb' cfg.omLo (cfg.omHi + 1 - cfg.omLo)).setWidth 2

/-- HDR.ENC: big-endian offset, then the control byte in variable-length mode (R134). -/
def hdrEnc (cfg : Config) (o : Half) (b : Block) (d : Dir) : Header where
  h0 := hi8 o
  h1 := lo8 o
  h2 := ctlEnc cfg b d cfg.omVdm

/-- HDR.DEC: `o = h[0]*256 + h[1]` and the fields of the control byte (R135). -/
def hdrDec (cfg : Config) (h : Header) : HdrFields where
  off := be16 h.h0 h.h1
  bsb := (ctlDec cfg h.h2).bsb
  dir := (ctlDec cfg h.h2).dir
  om := (ctlDec cfg h.h2).om

/-- The class of a header (R92): length mode first, then the common block, then the unassigned blocks, then the six
socket classes. -/
def wireClass (b : Block) (d : Dir) (om : BitVec 2) : WireClass :=
  if om = 1 then .rsvOm1 else if om = 2 then .rsvOm2 else if om = 3 then .rsvOm3 else
  match blockRegion b, d with
  | .common, .read => if blockSock b = 0 then .rdCommon else .rsvBsb
  | .common, .write => if blockSock b = 0 then .wrCommon else .rsvBsb
  | .sreg, .read => .rdSreg
  | .sreg, .write => .wrSreg
  | .stx, .read => .rdStx
  | .stx, .write => .wrStx
  | .srx, .read => .rdSrx
  | .srx, .write => .wrSrx

/-- The physical buffer size `S = 2^szlog2`, 1..32768 (R9). -/
def bufSize (szlog2 : BitVec 4) : Nat := 2 ^ szlog2.toNat

/-- CP.WRAP: `p mod S` (R170). -/
def cpWrap (p : Half) (szlog2 : BitVec 4) : Half := BitVec.ofNat 16 (p.toNat % bufSize szlog2)

/-- CP.ADV: `(p + n) mod 65536` (R171). -/
def cpAdv (p n : Half) : Half := p + n

/-- CP.UNREAD: `(wr - rd) mod 65536` (R172). -/
def cpUnread (wr rd : Half) : Half := wr - rd

/-- CP.FREE, the number: `(S - u) mod 65536` with `u = (wr - rd) mod 65536` (R173). -/
def cpFree (szlog2 : BitVec 4) (wr rd : Half) : Half := BitVec.ofNat 16 (bufSize szlog2) - cpUnread wr rd

/-- CP.SPLIT: the chunks of a transfer at the end of the buffer, the sum taken without wrap (R175). The `l1` that R90 lists
among the results is assigned by R175 only when `two` = 1; without a second chunk it is a free value: DESIGN CHOICE (log
entry 35, safe). -/
def cpSplit (p l : Half) (szlog2 : BitVec 4) : Split :=
  let o0 := cpWrap p szlog2
  let fits := decide (l.toNat ≤ bufSize szlog2)
  if bufSize szlog2 < o0.toNat + l.toNat then
    let l0 := BitVec.ofNat 16 (bufSize szlog2) - o0
    { o0 := o0, l0 := l0, two := true, l1 := l - l0, fits := fits }
  else
    { o0 := o0, l0 := l, two := false, l1 := Config.noChunk p l szlog2, fits := fits }

/-- The key under which the peer's byte at `(b, o)` stands in its memory: the blocks of 65536 bytes one after another
(R31, R50). -/
def byteKey (b : Block) (o : Nat) : Nat := b.toNat * 65536 + o

end Sys2Proof.Machine
end

