-- ==== Sys2Proof/Syntax.lean ====
section
/-! DEFINITION. The operations of the frame unit: one constructor per row of spec/opcode_table.json. Operands as 30_encoding.md
R90 lists them (command port) and as R92 lists the fields (wire classes). -/

namespace Sys2Proof

/-- The 21 command-port operations (R89, R90) and the 12 wire-header classes (R92). A wire class carries the header's
fields; the data bytes that follow the header are not encoded in it (R88, R96) and stand in the machine's state. -/
inductive Instr where
  | bsbCommon
  | bsbSreg (i : Sock)
  | bsbStx (i : Sock)
  | bsbSrx (i : Sock)
  | bsbDec (b : Block)
  | roff (r : BitVec 4)
  | raddr (i : Sock) (r : BitVec 4)
  | ctlEnc (b : Block) (rwb : Dir) (om : BitVec 2)
  | ctlDec (c : Byte)
  | hdrEnc (o : Half) (b : Block) (rwb : Dir)
  | hdrDec (h : Header)
  | frameRd (b : Block) (o : Half) (n : Half)
  | frameWr (b : Block) (o : Half) (n : Half) (wdata : List Byte)
  | frameParse (t : List (Byte × Byte))
  | cpWrap (p : Half) (szlog2 : BitVec 4)
  | cpAdv (p : Half) (n : Half)
  | cpUnread (wr : Half) (rd : Half)
  | cpFree (szlog2 : BitVec 4) (wr : Half) (rd : Half)
  | cpSplit (p : Half) (l : Half) (szlog2 : BitVec 4)
  | cbRd (b : Block) (p : Half) (l : Half) (szlog2 : BitVec 4)
  | cbWr (b : Block) (p : Half) (l : Half) (szlog2 : BitVec 4) (wdata : List Byte)
  | wRdCommon (off : Half)
  | wWrCommon (off : Half)
  | wRdSreg (sock : Sock) (off : Half)
  | wWrSreg (sock : Sock) (off : Half)
  | wRdStx (sock : Sock) (off : Half)
  | wWrStx (sock : Sock) (off : Half)
  | wRdSrx (sock : Sock) (off : Half)
  | wWrSrx (sock : Sock) (off : Half)
  | wRsvBsb (sock : Sock) (rwb : Dir) (off : Half)
  | wRsvOm1 (bsb : Block) (rwb : Dir) (off : Half)
  | wRsvOm2 (bsb : Block) (rwb : Dir) (off : Half)
  | wRsvOm3 (bsb : Block) (rwb : Dir) (off : Half)
  deriving DecidableEq, Repr

end Sys2Proof
end

