-- ==== Sys2Proof/WellFormed.lean ====
section
/-! DEFINITION. The checks on an operation that its operand widths do not make by themselves. -/

namespace Sys2Proof

/-- A count of bytes fits in LEN_W bits (R8, D42), a write operation carries exactly as many data bytes as its count says
(R90: `wdata` has n, or L, bytes), and the class W.RSV.BSB names a socket other than 0 (R92: with socket 0 the header is
one of the common block's). -/
def Instr.wellFormed : Instr → Bool
  | .bsbCommon => true
  | .bsbSreg _ => true
  | .bsbStx _ => true
  | .bsbSrx _ => true
  | .bsbDec _ => true
  | .roff _ => true
  | .raddr _ _ => true
  | .ctlEnc _ _ _ => true
  | .ctlDec _ => true
  | .hdrEnc _ _ _ => true
  | .hdrDec _ => true
  | .frameRd _ _ n => Config.std.countFits n.toNat
  | .frameWr _ _ n wdata => wdata.length == n.toNat && Config.std.countFits n.toNat
  | .frameParse _ => true
  | .cpWrap _ _ => true
  | .cpAdv _ _ => true
  | .cpUnread _ _ => true
  | .cpFree _ _ _ => true
  | .cpSplit _ _ _ => true
  | .cbRd _ _ l _ => Config.std.countFits l.toNat
  | .cbWr _ _ l _ wdata => wdata.length == l.toNat && Config.std.countFits l.toNat
  | .wRdCommon _ => true
  | .wWrCommon _ => true
  | .wRdSreg _ _ => true
  | .wWrSreg _ _ => true
  | .wRdStx _ _ => true
  | .wWrStx _ _ => true
  | .wRdSrx _ _ => true
  | .wWrSrx _ _ => true
  | .wRsvBsb sock _ _ => sock != 0
  | .wRsvOm1 _ _ _ => true
  | .wRsvOm2 _ _ _ => true
  | .wRsvOm3 _ _ _ => true

end Sys2Proof
end

