-- ==== Sys2Proof/Decode.lean ====
section
/-! DEFINITION. From what stands on a port to an operation and back: the command port (30_encoding.md R89, R90, R93) and the
wire header (R81, R92, R96). -/

namespace Sys2Proof

/-- The operand fields that travel beside the operation code on the command port (R90). The packing of operands into
wires is open in the spec (D2, PORT_PACKING): DESIGN CHOICE (log entry 9, safe), one field per operand name. -/
structure Operands where
  i : Sock := 0
  r : BitVec 4 := 0
  b : Block := 0
  c : Byte := 0
  rwb : Dir := .read
  om : BitVec 2 := 0
  o : Half := 0
  n : Half := 0
  p : Half := 0
  l : Half := 0
  szlog2 : BitVec 4 := 0
  wr : Half := 0
  rd : Half := 0
  h : Header := { h0 := 0, h1 := 0, h2 := 0 }
  wdata : List Byte := []
  t : List (Byte × Byte) := []
  deriving DecidableEq, Repr

/-- What is presented to be run: an operation code with its operands on the command port, or the bytes a master sends
between bus-select assertion and release. -/
inductive Packet where
  | cmd (opsel : BitVec 5) (x : Operands)
  | wire (bytes : List Byte)
  deriving DecidableEq, Repr

/-- Why a packet is no operation. -/
inductive DecodeError where
  /-- The operation code selects nothing: 0x07, 0x0C..0x0F, 0x13..0x17, 0x1F (R93). -/
  | badOpsel
  /-- The write data presented is not as long as the count says (R90, R71); the host may not do this (U18). -/
  | dataLength
  /-- Fewer than three bytes between assertion and release are not a frame (R96, R159). -/
  | noFrame
  deriving DecidableEq, Repr

/-- The operation that an operation code and operands select (R89, R90, R93). A byte count is read in its LEN_W bits (R8). -/
def decodeCmd (opsel : BitVec 5) (x : Operands) : Except DecodeError Instr :=
  match opsel.toNat with
  | 0x00 => .ok .bsbCommon
  | 0x01 => .ok (.bsbSreg x.i)
  | 0x02 => .ok (.bsbStx x.i)
  | 0x03 => .ok (.bsbSrx x.i)
  | 0x04 => .ok (.bsbDec x.b)
  | 0x05 => .ok (.roff x.r)
  | 0x06 => .ok (.raddr x.i x.r)
  | 0x08 => .ok (.ctlEnc x.b x.rwb x.om)
  | 0x09 => .ok (.ctlDec x.c)
  | 0x0A => .ok (.hdrEnc x.o x.b x.rwb)
  | 0x0B => .ok (.hdrDec x.h)
  | 0x10 => .ok (.frameRd x.b x.o (Config.std.count x.n))
  | 0x11 =>
    if x.wdata.length = (Config.std.count x.n).toNat then .ok (.frameWr x.b x.o (Config.std.count x.n) x.wdata)
    else .error .dataLength
  | 0x12 => .ok (.frameParse x.t)
  | 0x18 => .ok (.cpWrap x.p x.szlog2)
  | 0x19 => .ok (.cpAdv x.p x.n)
  | 0x1A => .ok (.cpUnread x.wr x.rd)
  | 0x1B => .ok (.cpFree x.szlog2 x.wr x.rd)
  | 0x1C => .ok (.cpSplit x.p x.l x.szlog2)
  | 0x1D => .ok (.cbRd x.b x.p (Config.std.count x.l) x.szlog2)
  | 0x1E =>
    if x.wdata.length = (Config.std.count x.l).toNat then .ok (.cbWr x.b x.p (Config.std.count x.l) x.szlog2 x.wdata)
    else .error .dataLength
  | _ => .error .badOpsel

/-- The wire class of a header with its fields (R92). -/
def wireInstr (h : Header) : Instr :=
  let f := Machine.hdrDec Config.std h
  let sock := Machine.blockSock f.bsb
  match Machine.wireClass f.bsb f.dir f.om with
  | .rdCommon => .wRdCommon f.off
  | .wrCommon => .wWrCommon f.off
  | .rdSreg => .wRdSreg sock f.off
  | .wrSreg => .wWrSreg sock f.off
  | .rdStx => .wRdStx sock f.off
  | .wrStx => .wWrStx sock f.off
  | .rdSrx => .wRdSrx sock f.off
  | .wrSrx => .wWrSrx sock f.off
  | .rsvBsb => .wRsvBsb sock f.dir f.off
  | .rsvOm1 => .wRsvOm1 f.bsb f.dir f.off
  | .rsvOm2 => .wRsvOm2 f.bsb f.dir f.off
  | .rsvOm3 => .wRsvOm3 f.bsb f.dir f.off

/-- The operation a packet stands for, and the bytes behind a wire header (R96). Total: every packet is an operation or
is rejected by name. -/
def decodeRest : Packet → Except DecodeError (Instr × List Byte)
  | .cmd opsel x => (decodeCmd opsel x).map (fun i => (i, []))
  | .wire (h0 :: h1 :: h2 :: rest) => .ok (wireInstr { h0 := h0, h1 := h1, h2 := h2 }, rest)
  | .wire _ => .error .noFrame

/-- The operation a packet stands for. -/
def decode (p : Packet) : Except DecodeError Instr := (decodeRest p).map Prod.fst

/-- The three header bytes of a wire class: offset high byte, low byte, control byte (R80 to R82, R92). -/
def wireBytes (off : Half) (b : Block) (d : Dir) (om : BitVec 2) : Packet :=
  .wire [Machine.hi8 off, Machine.lo8 off, Machine.ctlEnc Config.std b d om]

/-- The packet that selects an operation, from the encoding tables R89, R90 and R92. -/
def encode : Instr → Packet
  | .bsbCommon => .cmd 0x00 {}
  | .bsbSreg i => .cmd 0x01 { i := i }
  | .bsbStx i => .cmd 0x02 { i := i }
  | .bsbSrx i => .cmd 0x03 { i := i }
  | .bsbDec b => .cmd 0x04 { b := b }
  | .roff r => .cmd 0x05 { r := r }
  | .raddr i r => .cmd 0x06 { i := i, r := r }
  | .ctlEnc b d om => .cmd 0x08 { b := b, rwb := d, om := om }
  | .ctlDec c => .cmd 0x09 { c := c }
  | .hdrEnc o b d => .cmd 0x0A { o := o, b := b, rwb := d }
  | .hdrDec h => .cmd 0x0B { h := h }
  | .frameRd b o n => .cmd 0x10 { b := b, o := o, n := n }
  | .frameWr b o n wdata => .cmd 0x11 { b := b, o := o, n := n, wdata := wdata }
  | .frameParse t => .cmd 0x12 { t := t }
  | .cpWrap p sz => .cmd 0x18 { p := p, szlog2 := sz }
  | .cpAdv p n => .cmd 0x19 { p := p, n := n }
  | .cpUnread wr rd => .cmd 0x1A { wr := wr, rd := rd }
  | .cpFree sz wr rd => .cmd 0x1B { szlog2 := sz, wr := wr, rd := rd }
  | .cpSplit p l sz => .cmd 0x1C { p := p, l := l, szlog2 := sz }
  | .cbRd b p l sz => .cmd 0x1D { b := b, p := p, l := l, szlog2 := sz }
  | .cbWr b p l sz wdata => .cmd 0x1E { b := b, p := p, l := l, szlog2 := sz, wdata := wdata }
  | .wRdCommon off => wireBytes off 0 .read 0
  | .wWrCommon off => wireBytes off 0 .write 0
  | .wRdSreg sock off => wireBytes off (Machine.blockOf sock .sreg) .read 0
  | .wWrSreg sock off => wireBytes off (Machine.blockOf sock .sreg) .write 0
  | .wRdStx sock off => wireBytes off (Machine.blockOf sock .stx) .read 0
  | .wWrStx sock off => wireBytes off (Machine.blockOf sock .stx) .write 0
  | .wRdSrx sock off => wireBytes off (Machine.blockOf sock .srx) .read 0
  | .wWrSrx sock off => wireBytes off (Machine.blockOf sock .srx) .write 0
  | .wRsvBsb sock d off => wireBytes off (Machine.blockOf sock .common) d 0
  | .wRsvOm1 b d off => wireBytes off b d 1
  | .wRsvOm2 b d off => wireBytes off b d 2
  | .wRsvOm3 b d off => wireBytes off b d 3

/-- The packet whose bits are `w`, numbered as spec/opcode_table.json numbers them. A row of one byte is an operation
code in bits 4:0 with operands of zeros (R89; bits 7:5 are given no meaning and are not read, log entry 9); a longer row
is the 24-bit header `H`, laid out as it crosses the bus, `H[23:16]` first (R81), with no data byte behind it. -/
def tablePacket (nbits w : Nat) : Packet :=
  if nbits ≤ 8 then .cmd (BitVec.ofNat 5 w) {}
  else .wire [BitVec.ofNat 8 (w / 65536), BitVec.ofNat 8 (w / 256), BitVec.ofNat 8 w]

/-- The operation the decoder reads from an opcode-table word. -/
def decodeTableWord (nbits w : Nat) : Option Instr :=
  match decode (tablePacket nbits w) with
  | .ok i => some i
  | .error _ => none

end Sys2Proof
end

