-- ==== Sys2Proof/Machine/Calls.lean ====
section
/-! DEFINITION. The host sequences as syntax: the pseudo-operations of 30_encoding.md R98 and the positions inside one
(44_socket_ops.md R195 to R207, 45_udp.md R221, R225). They are software of the host, not operations of the frame unit
(R6): no constructor of `Instr` stands for them. -/

namespace Sys2Proof.Machine

/-- The socket operations that are one Frame Transport call (R197 to R206). -/
inductive SocketCall where
  | setMode (i : Sock) (tag : Byte)
  | resetInterrupt (i : Sock) (flag : Byte)
  | hasInterrupt (i : Sock) (flag : Byte)
  | setSourcePort (i : Sock) (port : Half)
  | setDestinationAddress (i : Sock) (a : Addr4)
  | setDestinationPort (i : Sock) (port : Half)
  | getTxReadPointer (i : Sock)
  | getTxWritePointer (i : Sock)
  | getRxReadPointer (i : Sock)
  | setTxReadPointer (i : Sock) (p : Half)
  | setTxWritePointer (i : Sock) (p : Half)
  | setRxReadPointer (i : Sock) (p : Half)
  | setInterruptMask (i : Sock) (m : Byte)
  | issueCommand (i : Sock) (tag : CmdTag)
  deriving DecidableEq, Repr

/-- The operands of udp_send (R221). `szlog2` gives the buffer size S in force (R220), `retryMax` is SEND_RETRY_MAX,
which the spec leaves open (R222, D32; log entry 18, safe). -/
structure SendJob where
  sock : Sock
  addr : Addr4
  port : Half
  payload : List Byte
  szlog2 : BitVec 4
  retryMax : Nat
  deriving DecidableEq, Repr

/-- The operands of udp_receive (R225). -/
structure RecvJob where
  sock : Sock
  capacity : Nat
  szlog2 : BitVec 4
  deriving DecidableEq, Repr

/-- A pseudo-operation (R98). -/
inductive Call where
  | socket (c : SocketCall)
  | getReceiveSize (i : Sock)
  | udpSend (j : SendJob)
  | udpReceive (j : RecvJob)
  deriving DecidableEq, Repr

/-- The bound on retries is positive (R8) and a payload is no longer than a count of LEN_W bits can say (R8, D42). -/
def Call.wellFormed : Call → Bool
  | .socket _ => true
  | .getReceiveSize _ => true
  | .udpSend j => decide (0 < j.retryMax) && Config.std.countFits j.payload.length
  | .udpReceive _ => true

/-- The 8-byte inline datagram header (R226). -/
structure InlineHeader where
  src : Addr4
  port : Half
  declared : Half
  deriving DecidableEq, Repr

/-- Who runs the stabilization loop: get_receive_size itself, or step 1 of udp_receive. -/
inductive SizeUser where
  | get (i : Sock)
  | recv (j : RecvJob)
  deriving DecidableEq, Repr

/-- Where the host stands in a sequence: which frame unit operation it issues next and what it has read so far. -/
inductive HostTask where
  /-- The one operation of a socket call. -/
  | socket (c : SocketCall)
  /-- First read of a round of get_receive_size (R207). -/
  | sizeFirst (u : SizeUser)
  /-- Second read of a round; `s0` is the first sample. -/
  | sizeSecond (u : SizeUser) (s0 : Half)
  /-- udp_send step 1 (R221). -/
  | sendPointer (j : SendJob)
  /-- udp_send step 2, address. -/
  | sendAddress (j : SendJob) (p : Half)
  /-- udp_send step 2, port. -/
  | sendPort (j : SendJob) (p : Half)
  /-- udp_send step 3. -/
  | sendPayload (j : SendJob) (p : Half)
  /-- udp_send step 4. -/
  | sendAdvance (j : SendJob) (p : Half)
  /-- udp_send step 5. -/
  | sendCommand (j : SendJob)
  /-- udp_send step 6, a poll; `left` polls are still allowed, this one among them. -/
  | sendPoll (j : SendJob) (left : Nat)
  /-- udp_send step 6, clearing the flag. -/
  | sendClear (j : SendJob)
  /-- udp_receive step 2 (R225). -/
  | recvPointer (j : RecvJob)
  /-- udp_receive step 3. -/
  | recvHeader (j : RecvJob) (p : Half)
  /-- udp_receive step 4. -/
  | recvPayload (j : RecvJob) (p : Half) (h : InlineHeader)
  /-- udp_receive step 5. -/
  | recvAdvance (j : RecvJob) (p : Half) (h : InlineHeader) (data : List Byte)
  /-- udp_receive step 6. -/
  | recvAck (j : RecvJob) (h : InlineHeader) (data : List Byte)
  deriving DecidableEq, Repr

/-! ### Whose sequence it is (R261) -/

/-- The socket a socket operation addresses. -/
def SocketCall.sock : SocketCall → Sock
  | .setMode i _ => i
  | .resetInterrupt i _ => i
  | .hasInterrupt i _ => i
  | .setSourcePort i _ => i
  | .setDestinationAddress i _ => i
  | .setDestinationPort i _ => i
  | .getTxReadPointer i => i
  | .getTxWritePointer i => i
  | .getRxReadPointer i => i
  | .setTxReadPointer i _ => i
  | .setTxWritePointer i _ => i
  | .setRxReadPointer i _ => i
  | .setInterruptMask i _ => i
  | .issueCommand i _ => i

/-- The socket whose received-size register is read. -/
def SizeUser.sock : SizeUser → Sock
  | .get i => i
  | .recv j => j.sock

/-- The socket a pseudo-operation drives. -/
def Call.sock : Call → Sock
  | .socket c => c.sock
  | .getReceiveSize i => i
  | .udpSend j => j.sock
  | .udpReceive j => j.sock

/-- The socket a sequence drives. -/
def HostTask.sock : HostTask → Sock
  | .socket c => c.sock
  | .sizeFirst u => u.sock
  | .sizeSecond u _ => u.sock
  | .sendPointer j => j.sock
  | .sendAddress j _ => j.sock
  | .sendPort j _ => j.sock
  | .sendPayload j _ => j.sock
  | .sendAdvance j _ => j.sock
  | .sendCommand j => j.sock
  | .sendPoll j _ => j.sock
  | .sendClear j => j.sock
  | .recvPointer j => j.sock
  | .recvHeader j _ => j.sock
  | .recvPayload j _ _ => j.sock
  | .recvAdvance j _ _ _ => j.sock
  | .recvAck j _ _ => j.sock

/-- Who has the bus next, once no operation is in progress (R261: the unit of exclusion is not the host sequence). -/
inductive Turn where
  /-- The host's program: its next item is started beside the sequences in progress. -/
  | program
  /-- The sequence in progress on socket `i`. -/
  | user (i : Sock)
  deriving DecidableEq, Repr

end Sys2Proof.Machine
end

