-- ==== Sys2Proof/Machine/State.lean ====
section
/-! DEFINITION. The machine's state as plain data, its faults and refusals, and the state after reset (10_state.md R20 to R37,
20_memory.md R63, R64, 00_scope.md R17, R18, 60_exceptions.md R240 to R244). -/

namespace Sys2Proof.Machine

/-- The level of the bus-select line (R20 SEL, R21). -/
inductive Sel where
  | released
  | asserted
  deriving DecidableEq, Repr

/-- Which part of a frame is in progress (R20 PHASE, R22). -/
inductive Phase where
  | idle
  | hdr
  | data
  deriving DecidableEq, Repr

/-- The result of the last frame (R20 RES, R23). -/
inductive Res where
  | none
  | ok
  | errBus (e : BusErr)
  deriving DecidableEq, Repr

/-- Stuck states: the spec gives the situation no behaviour. -/
inductive Fault where
  /-- An operation is presented on the command port while a frame is open (R146, U17: the host has no move). Raised by
  every command-port meaning when PHASE is not IDLE. Safe: the model stops. Log entry 10. -/
  | commandWhileBusy
  /-- A frame is put on the bus inside an open frame (R66, R67, U19). Raised by the wire-class meanings when PHASE is
  not IDLE. Safe: the model stops. Log entry 10. -/
  | frameInterleaved
  deriving DecidableEq, Repr

/-- Operations that are not started, and frames that the reference peer refuses. -/
inductive Refusal where
  /-- An operation without a meaning yet; raised by exec's arms only. Safe. -/
  | notModelled (mnemonic : String)
  /-- BAD_OP (R243, R93): raised by ROFF and RADDR on a name code 12..15, and by the step on an operation code that
  selects nothing. Safe; the step returns it to the host (log entry 8). -/
  | badOp
  /-- OVERSIZE (R243, R179): raised by CB.RD and CB.WR when L > S. Safe; the step returns it to the host (log entry 8). -/
  | oversize
  /-- BAD_MODE (R243, R159): raised by FRAME.PARSE on a length mode other than variable. Safe; the step returns it to
  the host (log entry 8). -/
  | badMode
  /-- Write data shorter or longer than its count stands on the port (R71, U18). Raised by the step. Safe: the model
  stops. Log entry 24. -/
  | operandLength
  /-- The reference peer is sent an unassigned block-select (R64, R94, R169). Raised by W.RSV.BSB. Safe. -/
  | peerUnassignedBlock
  /-- The reference peer is sent a length mode other than variable (R64, R95, R169). Raised by W.RSV.OM1 to OM3. Safe. -/
  | peerLengthMode
  /-- A frame's offsets pass 65535 (R64). Raised by the wire classes. Safe. -/
  | peerPastBlock
  /-- A frame's offsets pass the end of a tx or rx buffer (R64). Raised by the buffer wire classes. Safe. -/
  | peerPastBuffer
  deriving DecidableEq, Repr

/-- What an operation returns on the command port (R90, R243). -/
inductive Response where
  /-- Nothing has been returned yet. -/
  | none
  /-- BSB.COMMON, BSB.SREG, BSB.STX, BSB.SRX: `b`. -/
  | block (b : Block)
  /-- BSB.DEC: `region`, `i`, `assigned`. -/
  | blockFields (region : Region) (i : Sock) (assigned : Bool)
  /-- ROFF, CP.WRAP: `o`. -/
  | offset (o : Half)
  /-- RADDR: `b`, `o`. -/
  | address (b : Block) (o : Half)
  /-- CTL.ENC: `c`. -/
  | ctl (c : Byte)
  /-- CTL.DEC: `b`, `rwb`, `om`. -/
  | ctlFields (f : CtlFields)
  /-- HDR.ENC: `h`. -/
  | header (h : Header)
  /-- HDR.DEC: `o`, `b`, `rwb`, `om`. -/
  | headerFields (f : HdrFields)
  /-- FRAME.RD, FRAME.WR, CB.RD, CB.WR: the result and `rdata` (empty for a write). -/
  | frame (res : Res) (rdata : List Byte)
  /-- FRAME.PARSE: `NOFRAME`. -/
  | noFrame
  /-- FRAME.PARSE: `(rwb, b, o, data)`, what BSB.DEC says of `b`, and the class (R159). -/
  | parsed (rwb : Dir) (b : Block) (o : Half) (data : List Byte) (region : Region) (i : Sock) (assigned : Bool)
      (cls : WireClass)
  /-- CP.ADV: `p'`. -/
  | pointer (p : Half)
  /-- CP.UNREAD: `u`. -/
  | count (u : Half)
  /-- CP.FREE: `f`, `valid`. -/
  | free (f : Half) (valid : Bool)
  /-- CP.SPLIT: the chunks, `two`, `fits`. -/
  | split (s : Split)
  /-- A read wire class: the peer's responses to the data exchanges (R161 to R167). -/
  | peerRead (data : List Byte)
  /-- A write wire class: the peer has stored the data (R162 to R168). -/
  | peerWrote
  /-- The operation was refused; the reason is returned in place of a result (R243). -/
  | refused (r : Refusal)
  /-- The unit was reset before the operation had a result (R266; log entry 28). -/
  | cut
  deriving DecidableEq, Repr

/-- An event on the bus (R29). -/
inductive BusEvent where
  /-- Bus-select asserted. -/
  | selA
  /-- An exchange that transmitted `t` and returned `r`. -/
  | x (t r : Byte)
  /-- An exchange that was given `t` and failed with `e`. -/
  | xf (t : Byte) (e : BusErr)
  /-- Bus-select released. -/
  | selR
  deriving DecidableEq, Repr

/-- What a reset in the middle of an operation takes the place of (R266; log entry 28). -/
inductive ResetPoint where
  /-- The next exchange, before it returns; `reached` says whether its byte reached the peer (R157, R248). -/
  | exchange (reached : Bool)
  /-- The next step of the open frame, be it END; no byte of it reaches the peer. -/
  | step
  /-- The start of the second frame of a buffer transfer; where none comes, the next exchange. -/
  | between
  deriving DecidableEq, Repr

/-- What the environment does next: the outcome of an exchange (R12, R149 to R151, R157, R252), a change the peer's engine
makes (R35, R68), or a reset of the unit in the middle of an operation (R266). -/
inductive EnvEvent where
  /-- The peer's engine changes a byte of its own before the next bus event. -/
  | poke (b : Block) (o : Half) (v : Byte)
  /-- The next exchange succeeds; the peer answers. -/
  | ok
  /-- The next exchange succeeds and the response byte is `r`, whatever the peer holds (R35: answered by an oracle). -/
  | okWith (r : Byte)
  /-- The next exchange fails with `e`; `reached` says whether the byte reached the peer (R157). -/
  | fail (e : BusErr) (reached : Bool)
  /-- The next exchange never returns (R18, R252, U20); `reached` says whether its byte reached the peer. If a reset is the
  next event but for moves of the peer's engine, it gives the exchange up (R266). -/
  | hang (reached : Bool)
  /-- The unit is reset in the middle of an operation (R266). -/
  | reset (point : ResetPoint)
  deriving DecidableEq, Repr

/-- Whether the reference peer still has a meaning: after a frame it refuses, nothing is known of it (R64; log entry 6). -/
inductive PeerStatus where
  | reference
  | lost
  deriving DecidableEq, Repr

/-- What the host still has to do (R17 (a), R18). -/
inductive HostItem where
  /-- An operation presented on the command port, or the bytes of a frame as they reach the reference peer, put to it while
  the bus is free (the opcode table's wire classes; log entry 21). -/
  | op (p : Packet)
  /-- A host sequence (R98). -/
  | call (c : Call)
  /-- A reset of the frame unit (R265, R266): between two operations, or while an exchange does not return. It takes effect
  at once; a reset in the middle of an operation is an event of the environment (`EnvEvent.reset`). -/
  | reset
  deriving DecidableEq, Repr

/-- What has been returned to the host (R18, R231, R240). -/
inductive HostResult where
  /-- The response of an operation the host issued by itself. -/
  | op (r : Response)
  /-- A socket operation that returns nothing else succeeded. -/
  | done
  /-- has_interrupt (R199). -/
  | flag (isSet : Bool)
  /-- A get-pointer operation (R203). -/
  | pointer (p : Half)
  /-- get_receive_size (R207). -/
  | size (n : Half)
  /-- udp_send: success (R221). -/
  | sent
  /-- udp_receive: source address, source port, bytes copied, and the bytes (R225). -/
  | received (src : Addr4) (port : Half) (copied : Nat) (data : List Byte)
  /-- udp_receive: none ready (R225, R228). -/
  | noneReady
  /-- BusError, from any frame (R208, R231). -/
  | busError (e : BusErr)
  /-- SendTimeout (R242). -/
  | sendTimeout
  /-- A refusal met inside a sequence (R231). -/
  | refused (r : Refusal)
  /-- The unit was reset while an operation of the sequence was in progress (R266; log entry 28). -/
  | cut
  deriving DecidableEq, Repr

/-- The state of the whole machine: the frame unit's nine registers (R20), the command port (R26, R90), the observed
trace (R29), the reference peer (R63), the environment's coming events, and the host (R17). -/
structure State where
  /-- SEL. -/
  sel : Sel
  /-- PHASE. -/
  phase : Phase
  /-- IDX. -/
  idx : Half
  /-- DIR. -/
  dir : Dir
  /-- BSB. -/
  bsb : Block
  /-- OFF. -/
  off : Half
  /-- LEN. -/
  len : Half
  /-- HDRB. -/
  hdrb : Header
  /-- RES. -/
  res : Res
  /-- The host's write data on the port (R26). -/
  wdata : List Byte
  /-- The host's receive buffer on the port (R26). -/
  rdata : List Byte
  /-- The results of the last operation on the port (R90). -/
  resp : Response
  /-- The bus trace, oldest first (R29). -/
  trace : List BusEvent
  /-- The bytes of the peer that are known, sorted by key (R63). -/
  pm : List Host.Cell
  /-- Whether the reference peer still has a meaning (R64). -/
  peer : PeerStatus
  /-- log2 of each socket's tx buffer size at the peer (R64, R269). -/
  txLog2 : Vector (BitVec 4) 8
  /-- log2 of each socket's rx buffer size at the peer (R64, R269). -/
  rxLog2 : Vector (BitVec 4) 8
  /-- The bytes behind the header of a frame put to the peer (R96). -/
  wire : List Byte
  /-- The coming events of the environment, next first. -/
  env : List EnvEvent
  /-- How many free bytes have been drawn: the model's own field. -/
  draws : Nat
  /-- What the host still has to do, next first. -/
  program : List HostItem
  /-- The host sequence that has the bus: where the host stands in it. -/
  task : Option HostTask
  /-- The host sequences in progress on other sockets, waiting for the bus, the longest waiting first (R261). -/
  parked : List HostTask
  /-- Who has the bus for the next moves between operations, one each: an input; with none left the bus stays where it is
  (R261). -/
  turns : List Turn
  /-- What has been returned to the host, oldest first. -/
  results : List HostResult
  deriving DecidableEq, Repr

/-- The machine right after reset (R30, R37, R265). IDX, DIR, BSB, OFF, LEN, HDRB, the port, the peer's buffer sizes and
the inputs are DESIGN CHOICES (log entries 1, 2, 4, 6, 11, 17, 25). -/
def State.reset : State where
  sel := .released
  phase := .idle
  idx := 0
  dir := .read
  bsb := 0
  off := 0
  len := 0
  hdrb := { h0 := 0, h1 := 0, h2 := 0 }
  res := .none
  wdata := []
  rdata := []
  resp := .none
  trace := []
  pm := []
  peer := .reference
  txLog2 := Vector.replicate 8 11
  rxLog2 := Vector.replicate 8 11
  wire := []
  env := []
  draws := 0
  program := []
  task := none
  parked := []
  turns := []
  results := []

end Sys2Proof.Machine
end

