-- ==== Sys2Proof/Machine/Ops.lean ====
section
/-! DEFINITION. The named operations over the state: the peer's memory and engine (20_memory.md R63, R64, 10_state.md R35), one
byte exchange (00_scope.md R12), the frame transport engine's steps (42_frame.md R148 to R152) with the one exception of
the machine (60_exceptions.md R247), a whole frame (R153, R154), the reference peer's side of a frame (R161 to R168), and
the reset of the frame unit (70_reset_and_hazards.md R265, R266). -/

namespace Sys2Proof.Machine

/-! ### The peer's memory -/

/-- The byte that is known at a key; none where nothing has been written (R37; log entry 2). -/
def Memory.get : List Host.Cell → Nat → Option Byte
  | [], _ => none
  | (k, v) :: rest, a => if a = k then some v else Memory.get rest a

/-- Store one byte, keeping the keys strictly rising. -/
def Memory.set : List Host.Cell → Nat → Byte → List Host.Cell
  | [], a, v => [(a, v)]
  | (k, w) :: rest, a, v =>
    if a < k then (a, v) :: (k, w) :: rest
    else if a = k then (a, v) :: rest
    else (k, w) :: Memory.set rest a v

/-- Store a byte string at ascending keys (R54, R63 `MemWrite`). -/
def Memory.setAll : List Host.Cell → Nat → List Byte → List Host.Cell
  | m, _, [] => m
  | m, a, v :: vs => Memory.setAll (Memory.set m a v) (a + 1) vs

/-- The canonical form: keys strictly rising and inside the 32 blocks of 65536 bytes (R50). An unlisted byte has no
known value, so no entry equals it. -/
abbrev Memory.wf (m : List Host.Cell) : Prop :=
  m.Pairwise (fun x y => x.1 < y.1) ∧ ∀ c ∈ m, c.1 < 2097152

/-- `PM[b][o]` by its key: the byte that is known, else a free value (R37, R63). -/
def State.peerByte (s : State) (key : Nat) : Byte := (Memory.get s.pm key).getD (Config.peerInit key)

/-- The bytes of a named register of a socket, lowest offset first: `MemRead` of the reference peer (R32, R63). -/
def State.sockReg (s : State) (i : Sock) (r : RegName) : List Byte :=
  (List.range (regWidth r)).map fun k =>
    s.peerByte (byteKey (regAddr Config.std i r).1 ((regAddr Config.std i r).2.toNat + k))

/-! ### Free values and observation -/

/-- `n` free bytes, from the k-th on (R12 `draw`). -/
def freeBytes (k n : Nat) : List Byte := (List.range n).map fun j => Config.freeByte (k + j)

/-- Count `n` free bytes as drawn. -/
def State.drawn (n : Nat) (s : State) : State := { s with draws := s.draws + n }

/-- Append an event to the observed trace (R29). -/
def State.emit (e : BusEvent) (s : State) : State := { s with trace := s.trace ++ [e] }

/-- Put an operation's results on the command port (R90). -/
def State.returns (r : Response) (s : State) : State := { s with resp := r }

/-- Move the sequence position (R22). -/
def State.place (p : Phase) (i : Half) (s : State) : State := { s with phase := p, idx := i }

/-- Append a response byte to the host's receive buffer (R150). -/
def State.receive (r : Byte) (s : State) : State := { s with rdata := s.rdata ++ [r] }

/-- Give the host's receive buffer its content (R26). -/
def State.holds (bytes : List Byte) (s : State) : State := { s with rdata := bytes }

/-- The frame is over: the engine is idle and RES has the result (R151, R152). IDX, DIR, BSB, OFF, LEN and HDRB, dead from
here to the next START (R24), keep what the frame left in them, where U16 gives them any value between frames: DESIGN
CHOICE (log entry 39, unsafe). -/
def State.close (r : Res) (s : State) : State := { s with phase := .idle, res := r }

/-- The environment's script from here on. -/
def State.withEnv (env : List EnvEvent) (s : State) : State := { s with env := env }

/-- Store one byte in the peer (R63). -/
def State.store (key : Nat) (v : Byte) (s : State) : State := { s with pm := Memory.set s.pm key v }

/-! ### Reset of the frame unit -/

/-- A reset of the frame unit at any moment: its registers as after reset, an open frame is cut short by the release of
bus-select, the peer and the host keep what they hold, no frame is sent (R30, R265, R266; log entry 28). -/
def fuReset (s : State) : State :=
  { s with
    trace := if s.sel = .asserted then s.trace ++ [.selR] else s.trace
    sel := State.reset.sel
    phase := State.reset.phase
    idx := State.reset.idx
    dir := State.reset.dir
    bsb := State.reset.bsb
    off := State.reset.off
    len := State.reset.len
    hdrb := State.reset.hdrb
    res := State.reset.res }

/-- A reset of the unit in the middle of an operation: the operation ends without a result (R266; log entry 28). -/
def State.cut (s : State) : State := State.returns .cut (fuReset s)

/-- The script once an exchange that does not return has been given up, because the unit was reset (R266). -/
def dropHang : List EnvEvent → List EnvEvent
  | .hang _ :: rest => rest
  | env => env

/-! ### The peer's engine and the reference peer -/

/-- The changes the peer's engine makes before the next bus event (R35, R68). -/
def pokeAll : List EnvEvent → List Host.Cell → List Host.Cell
  | .poke b o v :: rest, m => pokeAll rest (Memory.set m (byteKey b o.toNat) v)
  | _, m => m

/-- The environment's events from the next exchange outcome on. -/
def dropPokes : List EnvEvent → List EnvEvent
  | .poke _ _ _ :: rest => dropPokes rest
  | env => env

/-- The peer's engine moves (R17 (c), R35, R68); of a lost peer nothing is known, before or after. -/
def State.peerMoves (s : State) : State :=
  { s with
    env := dropPokes s.env
    pm := if s.peer = .lost then s.pm else pokeAll s.env s.pm }

/-- The reset that comes next in the script has been taken, the peer's engine having moved. -/
def State.resetTaken (s : State) : State := State.withEnv s.peerMoves.env.tail s.peerMoves

/-- The number of offsets of a block that the reference peer gives a meaning: S for a buffer block (R64, R269). -/
def blockLimit (s : State) (b : Block) : Nat :=
  match blockRegion b with
  | .stx => bufSize (s.txLog2[(blockSock b).toNat]'(blockSock b).isLt)
  | .srx => bufSize (s.rxLog2[(blockSock b).toNat]'(blockSock b).isLt)
  | .common => 65536
  | .sreg => 65536

/-- Why the reference peer gives a frame of `n` data bytes no meaning, if it does not (R64). -/
def peerRefuses (s : State) (f : HdrFields) (n : Nat) : Option Refusal :=
  if f.om ≠ Config.std.omVdm then some .peerLengthMode
  else if blockAssigned f.bsb = false then some .peerUnassignedBlock
  else if 65536 < f.off.toNat + n then some .peerPastBlock
  else if blockLimit s f.bsb < f.off.toNat + n then some .peerPastBuffer
  else none

/-- From here on nothing is known of the peer: it has been sent a frame without a meaning (R64; log entry 6). -/
def State.losePeer (s : State) : State := { s with peer := .lost, pm := [] }

/-- The peer has the whole header of the open frame; the frame unit goes on in any case (R64, R153). The frame is judged
by the commanded LEN: DESIGN CHOICE (log entry 7, safe). A frame without data to an unassigned block-select, or one that
starts past a buffer, is judged as R64 has it, which refuses any such frame, and not as R156 and U10 have it, by which the
reference peer does nothing: DESIGN CHOICE (log entry 36, safe). -/
def State.peerJudges (s : State) : State :=
  if peerRefuses s (hdrDec Config.std s.hdrb) s.len.toNat = none then s else s.losePeer

/-- The peer's side of data exchange `k` of a frame with header `f`: the response and the state (R63). The response to a
write byte is a draw (R63, R155). -/
def State.peerData (f : HdrFields) (k : Nat) (t : Byte) (s : State) : Byte × State :=
  match s.peer, f.dir with
  | .reference, .read => (s.peerByte (byteKey f.bsb (f.off.toNat + k)), s)
  | .reference, .write => (Config.freeByte s.draws, State.store (byteKey f.bsb (f.off.toNat + k)) t (s.drawn 1))
  | .lost, _ => (Config.freeByte s.draws, s.drawn 1)

/-- The byte `t` reaches the peer at the frame unit's present position. Responses to header bytes are draws (R63, R155). -/
def State.peerSees (t : Byte) (s : State) : Byte × State :=
  match s.phase with
  | .data => State.peerData (hdrDec Config.std s.hdrb) s.idx.toNat t s
  | .hdr => (Config.freeByte s.draws, if s.idx = 2 then (s.drawn 1).peerJudges else s.drawn 1)
  | .idle => (Config.freeByte s.draws, s.drawn 1)

/-! ### One byte exchange -/

/-- What becomes of an exchange: it returns in one of two ways (R12), it never returns (R18, R252, U20), or a reset of the
unit takes its place (R266). -/
inductive Xres where
  | ok (r : Byte)
  | fail (e : BusErr)
  | hung
  | cut

/-- The byte of an exchange that does not succeed reaches the peer, or does not (R157, R248). -/
def arrives (reached : Bool) (peer : State → Byte × State) (s : State) : State := if reached then (peer s).2 else s

/-- Whether the byte of the exchange whose place a reset takes reaches the peer (R248, R266). -/
def ResetPoint.reached : ResetPoint → Bool
  | .exchange reached => reached
  | .step => false
  | .between => false

/-- Whether the script has the unit reset before anything else but moves of the peer's engine. -/
def resetNext (env : List EnvEvent) : Bool :=
  match dropPokes env with
  | .reset _ :: _ => true
  | _ => false

/-- One full-duplex byte exchange (R12, R35, R157), `peer` being what the peer does with the byte if it arrives. The
environment says what becomes of it; without a word of the environment it succeeds (DESIGN CHOICE, log entry 4, unsafe
for a claim about real exchanges). An exchange that never returns stays the next event of the script (log entry 37), until a reset
gives it up: the script's next event, or an item of the program (log entry 28). -/
def xchgWith (peer : State → Byte × State) (s : State) : Xres × State :=
  match s.peerMoves.env with
  | .fail e reached :: rest => (.fail e, arrives reached peer (State.withEnv rest s.peerMoves))
  | .hang reached :: rest =>
    if resetNext rest then (.cut, (arrives reached peer (State.withEnv rest s.peerMoves)).resetTaken)
    else (.hung, arrives reached peer (State.withEnv (.hang false :: rest) s.peerMoves))
  | .reset point :: rest => (.cut, arrives point.reached peer (State.withEnv rest s.peerMoves))
  | .okWith r :: rest => (.ok r, (peer (State.withEnv rest s.peerMoves)).2)
  | .ok :: rest => (.ok (peer (State.withEnv rest s.peerMoves)).1, (peer (State.withEnv rest s.peerMoves)).2)
  | _ => (.ok (peer s.peerMoves).1, (peer s.peerMoves).2)

/-- `Xchg(t)` of the frame unit (R12). -/
def xchg (t : Byte) (s : State) : Xres × State := xchgWith (State.peerSees t) s

/-- `Sel(release)`: cannot fail (R147, D12; log entry 22). -/
def State.release (s : State) : State := State.emit .selR { s.peerMoves with sel := .released }

/-! ### The frame transport engine -/

/-- Step START (R148). LEN latches the LEN_W bits of the count (R8, R20). R148 writes neither buffer of the port, and no rule
says what they hold here: that the receive buffer is empty, in a write too, and the write data empty in a read, is the
model's DESIGN CHOICE (log entry 40, unsafe). -/
def fteStart (d : Dir) (b : Block) (o n : Half) (wdata : List Byte) (s : State) : State :=
  State.emit .selA
    { s with
      dir := d
      bsb := b
      off := o
      len := Config.std.count n
      hdrb := hdrEnc Config.std o b d
      res := .none
      sel := .asserted
      phase := .hdr
      idx := 0
      wdata := wdata
      rdata := [] }

/-- Taking the exception BusError(e), step FAIL (R151, R241, R247): the failed exchange is on the trace, bus-select is
released first, the engine is idle, RES holds `e` unchanged. Nothing is saved, and there is no return from it: the next
operation is accepted at once (R250). The receive buffer of a read is then any value (R154, R158; log entry 3). -/
def raiseBusError (t : Byte) (e : BusErr) (s : State) : State :=
  let s1 := State.close (.errBus e) (State.release (State.emit (.xf t e) s))
  match s.dir with
  | .write => State.returns (.frame (.errBus e) s.rdata) s1
  | .read =>
    State.returns (.frame (.errBus e) (freeBytes s.draws s.len.toNat))
      (State.holds (freeBytes s.draws s.len.toNat) (State.drawn s.len.toNat s1))

/-- Step HEADER (R149). While the exchange does not return, the engine does not move. -/
def fteHeader (s : State) : State :=
  let t := headerByte s.hdrb s.idx
  match xchg t s with
  | (.ok r, s1) =>
    if s.idx = 2 then State.place .data 0 (State.emit (.x t r) s1)
    else State.place .hdr (s.idx + 1) (State.emit (.x t r) s1)
  | (.fail e, s1) => raiseBusError t e s1
  | (.hung, s1) => s1
  | (.cut, s1) => s1.cut

/-- The byte the engine transmits at data exchange IDX (R150). -/
def dataByte (s : State) : Byte :=
  match s.dir with
  | .write => (s.wdata[s.idx.toNat]?).getD (Config.portByte s.idx.toNat)
  | .read => Config.std.dummy

/-- Step DATA (R150). While the exchange does not return, the engine does not move. -/
def fteData (s : State) : State :=
  let t := dataByte s
  match xchg t s with
  | (.ok r, s1) =>
    match s.dir with
    | .write => State.place .data (s.idx + 1) (State.emit (.x t r) s1)
    | .read => State.receive r (State.place .data (s.idx + 1) (State.emit (.x t r) s1))
  | (.fail e, s1) => raiseBusError t e s1
  | (.hung, s1) => s1
  | (.cut, s1) => s1.cut

/-- Step END (R152); the result and the bytes read are on the port. A reset may take its place (R266). -/
def fteEnd (s : State) : State :=
  match s.peerMoves.env with
  | .reset .step :: rest => State.cut (State.withEnv rest s.peerMoves)
  | _ => State.returns (.frame .ok s.rdata) (State.close .ok s.release)

/-- One step of the engine: HEADER, DATA or END, whichever is enabled; in IDLE it does nothing (R17 (b), R148 to R152). -/
def fteStep (s : State) : State :=
  match s.phase with
  | .idle => s
  | .hdr => fteHeader s
  | .data => if s.idx.toNat < s.len.toNat then fteData s else fteEnd s

/-- Steps of the engine until it is idle, at most `k`. -/
def fteRun : Nat → State → State
  | 0, s => s
  | k + 1, s => if s.phase = .idle then s else fteRun k (fteStep s)

/-- A whole frame: START, then the steps that follow: at most 3 of the header, n of data and END (R153, R154, R283). Only an
exchange that does not return leaves it open (R18, R252). -/
def runFrame (d : Dir) (b : Block) (o n : Half) (wdata : List Byte) (s : State) : State :=
  fteRun (n.toNat + 4) (fteStart d b o n wdata s)

/-- An operation on the command port is accepted only at PHASE = IDLE (R146, U17). -/
def atIdle (s : State) (k : Host.Outcome State Fault Refusal) : Host.Outcome State Fault Refusal :=
  match s.phase with
  | .idle => k
  | .hdr => .fault .commandWhileBusy
  | .data => .fault .commandWhileBusy

/-! ### The reference peer's side of a whole frame -/

/-- The `n` bytes the reference peer holds from a key on (R63 `MemRead`). -/
def State.peerBytes (s : State) (key n : Nat) : List Byte := (List.range n).map fun k => s.peerByte (key + k)

/-- The header of a wire class, in variable-length mode (R92). -/
def wireHeader (b : Block) (d : Dir) (o : Half) : HdrFields where
  off := o
  bsb := b
  dir := d
  om := Config.std.omVdm

/-- The bytes behind the header have been taken (R96). -/
def State.wireTaken (s : State) : State := { s with wire := [] }

/-- A frame is on the free bus, its header known, its data bytes in `wire`: refused with the peer's reason, or handled by
`k` (R63, R64, R66). It is judged by all the bytes in `wire`, which the class is about, before its first exchange, also where
the script cuts it short: DESIGN CHOICE (log entry 7, safe). -/
def onFreeBus (s : State) (f : HdrFields) (k : Host.Outcome State Fault Refusal) : Host.Outcome State Fault Refusal :=
  match s.phase with
  | .hdr => .fault .frameInterleaved
  | .data => .fault .frameInterleaved
  | .idle =>
    match peerRefuses s f s.wire.length with
    | some r => .refused r
    | none => k

/-- The data phase of a frame with header `f` at the peer, from data exchange `k` on, the bytes sent being given: the
responses and the state after bus-select has been released. The exchanges have the environment's outcomes like those of
the unit, and the peer's engine moves before each of them and before the release (R63, R35, R68); one that fails, does not
return or is cut is the last, and the frame a prefix (R63, R157; log entry 21). A reset of the script that falls here is one
of the frame's master: it ends the frame and leaves the unit's registers, RES among them, as they are: DESIGN CHOICE (log
entry 21, safe). -/
def wireFrame (f : HdrFields) : Nat → List Byte → State → List Byte × State
  | _, [], s => ([], s.peerMoves)
  | k, t :: ts, s =>
    match xchgWith (State.peerData f k t) s with
    | (.ok r, s1) =>
      let q := wireFrame f (k + 1) ts s1
      (r :: q.1, q.2)
    | (.fail _, s1) => ([], s1.peerMoves)
    | (.hung, s1) => ([], State.peerMoves (State.withEnv (dropHang s1.env) s1))
    | (.cut, s1) => ([], s1.peerMoves)

/-- A read frame at the peer: the responses to its data exchanges; the bytes sent are ignored (R63). -/
def peerReadFrame (b : Block) (o : Half) (s : State) : Host.Outcome State Fault Refusal :=
  onFreeBus s (wireHeader b .read o)
    (let q := wireFrame (wireHeader b .read o) 0 s.wire s.wireTaken
     .next (State.returns (.peerRead q.1) q.2))

/-- A write frame at the peer: its data bytes are stored at ascending offsets (R63). -/
def peerWriteFrame (b : Block) (o : Half) (s : State) : Host.Outcome State Fault Refusal :=
  onFreeBus s (wireHeader b .write o)
    (.next (State.returns .peerWrote (wireFrame (wireHeader b .write o) 0 s.wire s.wireTaken).2))

end Sys2Proof.Machine
end

