-- ==== Sys2Proof/Machine/Flags.lean ====
section
/-! DEFINITION. Every result bit and status the spec gives: the unit has no condition codes (10_state.md R23). -/

namespace Sys2Proof.Machine

/-- `busy = (PHASE != IDLE)` (R23). -/
def State.busy (s : State) : Bool := s.phase != .idle

/-- The `valid` bit of CP.FREE: `u <= S` (R173). -/
def cpFreeValid (szlog2 : BitVec 4) (wr rd : Half) : Bool := decide ((cpUnread wr rd).toNat ≤ bufSize szlog2)

/-- The result code of a frame's RES: OK = 0, ERR_BUS = 1 (R244). -/
def resCode : Res → Option Nat
  | .none => none
  | .ok => some 0
  | .errBus _ => some 1

/-- The code of a refusal that is returned to the host: BAD_OP = 3, OVERSIZE = 4, BAD_MODE = 5 (R243, R244); none for a
refusal that is not the frame unit's. -/
def refusalCode : Refusal → Option Nat
  | .badOp => some 3
  | .oversize => some 4
  | .badMode => some 5
  | _ => none

/-- Whether a refusal is one of the frame unit's own three, whose reason is returned to the host (R243). -/
def returnedToHost (r : Refusal) : Bool := (refusalCode r).isSome

end Sys2Proof.Machine
end

