-- ==== Sys2Proof/Machine/Agu.lean ====
section
/-! DEFINITION. The address generation unit (40_address.md): combinational, no state, no bus activity (R25, R110). -/

namespace Sys2Proof.Machine

/-- The answer of an operation without state or bus activity: its results on the command port (R25, R90, R146). -/
def answer (r : Response) (s : State) : Host.Outcome State Fault Refusal := atIdle s (.next (State.returns r s))

/-- BSB.COMMON: `b <- 0` (R111). -/
def execBsbCommon (s : State) : Host.Outcome State Fault Refusal := answer (.block (blockOf 0 .common)) s

/-- BSB.SREG: `b <- 4*i + 1` (R112). -/
def execBsbSreg (i : Sock) (s : State) : Host.Outcome State Fault Refusal := answer (.block (blockOf i .sreg)) s

/-- BSB.STX: `b <- 4*i + 2` (R113). -/
def execBsbStx (i : Sock) (s : State) : Host.Outcome State Fault Refusal := answer (.block (blockOf i .stx)) s

/-- BSB.SRX: `b <- 4*i + 3` (R114). -/
def execBsbSrx (i : Sock) (s : State) : Host.Outcome State Fault Refusal := answer (.block (blockOf i .srx)) s

/-- BSB.DEC: region, socket and whether the source assigns the block-select (R115). -/
def execBsbDec (b : Block) (s : State) : Host.Outcome State Fault Refusal :=
  answer (.blockFields (blockRegion b) (blockSock b) (blockAssigned b)) s

/-- ROFF: `o <- ROFF[r]`; a code that is no name is refused BAD_OP (R93, R117). -/
def execRoff (r : BitVec 4) (s : State) : Host.Outcome State Fault Refusal :=
  match regNameOf r with
  | some name => answer (.offset (Config.std.roff name)) s
  | none => atIdle s (.refused .badOp)

/-- RADDR: `(b, o) <- (4*i + 1, ROFF[r])`; a code that is no name is refused BAD_OP (R93, R118). -/
def execRaddr (i : Sock) (r : BitVec 4) (s : State) : Host.Outcome State Fault Refusal :=
  match regNameOf r with
  | some name => answer (.address (regAddr Config.std i name).1 (regAddr Config.std i name).2) s
  | none => atIdle s (.refused .badOp)

end Sys2Proof.Machine
end

