-- ==== Sys2Proof/Machine/Hcu.lean ====
section
/-! DEFINITION. The header codec unit (41_header.md): combinational, total (R130). -/

namespace Sys2Proof.Machine

/-- CTL.ENC (R132); neither the block-select nor the length mode is judged. -/
def execCtlEnc (b : Block) (rwb : Dir) (om : BitVec 2) (s : State) : Host.Outcome State Fault Refusal :=
  answer (.ctl (ctlEnc Config.std b rwb om)) s

/-- CTL.DEC (R133). -/
def execCtlDec (c : Byte) (s : State) : Host.Outcome State Fault Refusal := answer (.ctlFields (ctlDec Config.std c)) s

/-- HDR.ENC (R134). -/
def execHdrEnc (o : Half) (b : Block) (rwb : Dir) (s : State) : Host.Outcome State Fault Refusal :=
  answer (.header (hdrEnc Config.std o b rwb)) s

/-- HDR.DEC (R135); the length mode is reported, not judged. -/
def execHdrDec (h : Header) (s : State) : Host.Outcome State Fault Refusal :=
  answer (.headerFields (hdrDec Config.std h)) s

end Sys2Proof.Machine
end

