-- ==== Sys2Proof/Machine/Fte.lean ====
section
/-! DEFINITION. The frame operations of the frame transport engine (42_frame.md R153, R154, R159). -/

namespace Sys2Proof.Machine

/-- FRAME.RD: one read frame (R154). -/
def execFrameRd (b : Block) (o n : Half) (s : State) : Host.Outcome State Fault Refusal :=
  atIdle s (.next (runFrame .read b o n [] s))

/-- FRAME.WR: one write frame; any block-select and any offset is sent as commanded (R153). -/
def execFrameWr (b : Block) (o n : Half) (wdata : List Byte) (s : State) : Host.Outcome State Fault Refusal :=
  atIdle s (.next (runFrame .write b o n wdata s))

/-- The data of a captured transaction: the bytes sent in a write, the responses in a read (R159). -/
def capturedData (d : Dir) (xs : List (Byte × Byte)) : List Byte :=
  match d with
  | .write => xs.map Prod.fst
  | .read => xs.map Prod.snd

/-- What FRAME.PARSE returns for a header and the pairs behind it, in variable-length mode (R159). -/
def parsedFrame (f : HdrFields) (xs : List (Byte × Byte)) : Response :=
  .parsed f.dir f.bsb f.off (capturedData f.dir xs) (blockRegion f.bsb) (blockSock f.bsb) (blockAssigned f.bsb)
    (wireClass f.bsb f.dir f.om)

/-- FRAME.PARSE: from a captured transaction back to the command (R159). -/
def execFrameParse (t : List (Byte × Byte)) (s : State) : Host.Outcome State Fault Refusal :=
  match t with
  | x0 :: x1 :: x2 :: xs =>
    let f := hdrDec Config.std { h0 := x0.1, h1 := x1.1, h2 := x2.1 }
    if f.om = Config.std.omVdm then answer (parsedFrame f xs) s else atIdle s (.refused .badMode)
  | _ => answer .noFrame s

end Sys2Proof.Machine
end

