-- ==== Sys2Proof/Machine/Cbu.lean ====
section
/-! DEFINITION. The circular buffer unit (43_circular.md): pointer arithmetic, the splitter, and the buffer transfers that
drive the frame transport engine once or twice. -/

namespace Sys2Proof.Machine

/-- CP.WRAP (R170). -/
def execCpWrap (p : Half) (szlog2 : BitVec 4) (s : State) : Host.Outcome State Fault Refusal :=
  answer (.offset (cpWrap p szlog2)) s

/-- CP.ADV (R171). -/
def execCpAdv (p n : Half) (s : State) : Host.Outcome State Fault Refusal := answer (.pointer (cpAdv p n)) s

/-- CP.UNREAD (R172). -/
def execCpUnread (wr rd : Half) (s : State) : Host.Outcome State Fault Refusal := answer (.count (cpUnread wr rd)) s

/-- CP.FREE (R173). -/
def execCpFree (szlog2 : BitVec 4) (wr rd : Half) (s : State) : Host.Outcome State Fault Refusal :=
  answer (.free (cpFree szlog2 wr rd) (cpFreeValid szlog2 wr rd)) s

/-- CP.SPLIT (R175); total, `fits` is reported and not judged. -/
def execCpSplit (p l : Half) (szlog2 : BitVec 4) (s : State) : Host.Outcome State Fault Refusal :=
  answer (.split (cpSplit p l szlog2)) s

/-- After a bus error the `l` bytes of a read transfer are any value; a write has no receive buffer (R158, R176; log
entry 3). -/
def bufferLost (l : Half) (r : Res) (s : State) : State :=
  match s.dir with
  | .write => s
  | .read =>
    State.returns (.frame r (freeBytes s.draws l.toNat))
      (State.holds (freeBytes s.draws l.toNat) (State.drawn l.toNat s))

/-- The whole transfer's result on the port after its second frame, `first` being the state after the first one: the
bytes of both when both succeeded, else the second frame's error; a second frame without a result leaves the transfer
without one (R23, R176, R177, R266), and then the receive buffer holds what the second frame has received and no byte of
the first: DESIGN CHOICE (log entry 38, unsafe). -/
def joinFrames (l : Half) (first s : State) : State :=
  match s.res with
  | .ok => State.returns (.frame .ok (first.rdata ++ s.rdata)) (State.holds (first.rdata ++ s.rdata) s)
  | .errBus e => bufferLost l (.errBus e) s
  | .none => s

/-- Whether the script has a reset fall between the two frames of a buffer transfer (R266). -/
def cutsBetween (env : List EnvEvent) : Bool :=
  match dropPokes env with
  | .reset .between :: _ => true
  | _ => false

/-- The unit is reset between the two frames of a buffer transfer: no second frame is sent (R266; log entry 28). -/
def State.cutBetween (s : State) : State := State.cut s.resetTaken

/-- The second frame of a buffer transfer after the first has succeeded, and the whole result; a reset may come before it
(R176, R177, R266). -/
def secondFrame (d : Dir) (b : Block) (l : Half) (c : Split) (wdata : List Byte) (first : State) : State :=
  if cutsBetween first.env then first.cutBetween
  else joinFrames l first (runFrame d b 0 c.l1 (wdata.drop c.l0.toNat) first)

/-- One or two frames, as the splitter says; the second is started only if the first succeeded (R176, R177, R246): not
after an error, not after a reset, and not while the first has not ended. -/
def splitTransfer (d : Dir) (b : Block) (l : Half) (c : Split) (wdata : List Byte) (s : State) : State :=
  let first := runFrame d b c.o0 c.l0 (wdata.take c.l0.toNat) s
  if c.two then
    match first.res with
    | .ok => secondFrame d b l c wdata first
    | .errBus e => bufferLost l (.errBus e) first
    | .none => first
  else first

/-- A wrap-aware buffer transfer: refused OVERSIZE before any bus activity when L > S (R176, R177, R179). -/
def bufferTransfer (d : Dir) (b : Block) (p l : Half) (szlog2 : BitVec 4) (wdata : List Byte) (s : State) :
    Host.Outcome State Fault Refusal :=
  atIdle s
    (if (cpSplit p l szlog2).fits then .next (splitTransfer d b l (cpSplit p l szlog2) wdata s)
     else .refused .oversize)

/-- CB.RD (R176). -/
def execCbRd (b : Block) (p l : Half) (szlog2 : BitVec 4) (s : State) : Host.Outcome State Fault Refusal :=
  bufferTransfer .read b p l szlog2 [] s

/-- CB.WR (R177). -/
def execCbWr (b : Block) (p l : Half) (szlog2 : BitVec 4) (wdata : List Byte) (s : State) :
    Host.Outcome State Fault Refusal :=
  bufferTransfer .write b p l szlog2 wdata s

end Sys2Proof.Machine
end

