-- ==== Sys2Proof/Machine/Wire.lean ====
section
/-! DEFINITION. The wire-header classes: what the reference peer does with a frame of that header whose data bytes stand in
`State.wire` (42_frame.md R161 to R169, 20_memory.md R63, R64). -/

namespace Sys2Proof.Machine

/-- W.RD.COMMON: a read of the common block (R161). -/
def execWRdCommon (off : Half) (s : State) : Host.Outcome State Fault Refusal := peerReadFrame (blockOf 0 .common) off s

/-- W.WR.COMMON: a write of the common block (R162). -/
def execWWrCommon (off : Half) (s : State) : Host.Outcome State Fault Refusal := peerWriteFrame (blockOf 0 .common) off s

/-- W.RD.SREG: a read of a socket's registers (R163). -/
def execWRdSreg (sock : Sock) (off : Half) (s : State) : Host.Outcome State Fault Refusal :=
  peerReadFrame (blockOf sock .sreg) off s

/-- W.WR.SREG: a write of a socket's registers (R164). -/
def execWWrSreg (sock : Sock) (off : Half) (s : State) : Host.Outcome State Fault Refusal :=
  peerWriteFrame (blockOf sock .sreg) off s

/-- W.RD.STX: a read of a socket's tx buffer (R165). -/
def execWRdStx (sock : Sock) (off : Half) (s : State) : Host.Outcome State Fault Refusal :=
  peerReadFrame (blockOf sock .stx) off s

/-- W.WR.STX: a write of a socket's tx buffer (R166). -/
def execWWrStx (sock : Sock) (off : Half) (s : State) : Host.Outcome State Fault Refusal :=
  peerWriteFrame (blockOf sock .stx) off s

/-- W.RD.SRX: a read of a socket's rx buffer (R167). -/
def execWRdSrx (sock : Sock) (off : Half) (s : State) : Host.Outcome State Fault Refusal :=
  peerReadFrame (blockOf sock .srx) off s

/-- W.WR.SRX: a write of a socket's rx buffer (R168). -/
def execWWrSrx (sock : Sock) (off : Half) (s : State) : Host.Outcome State Fault Refusal :=
  peerWriteFrame (blockOf sock .srx) off s

/-- The reference peer's refusal of a reserved header; only inside an open frame is the bus not free for it (R64, R169). -/
def peerRefusal (r : Refusal) (s : State) : Host.Outcome State Fault Refusal :=
  match s.phase with
  | .idle => .refused r
  | .hdr => .fault .frameInterleaved
  | .data => .fault .frameInterleaved

/-- W.RSV.BSB: an unassigned block-select; the reference peer has no step for it (R94, R169). -/
def execWRsvBsb (s : State) : Host.Outcome State Fault Refusal := peerRefusal .peerUnassignedBlock s

/-- W.RSV.OM1: length mode 0b01; the reference peer has no step for it (R95, R169). -/
def execWRsvOm1 (s : State) : Host.Outcome State Fault Refusal := peerRefusal .peerLengthMode s

/-- W.RSV.OM2: length mode 0b10; the reference peer has no step for it (R95, R169). -/
def execWRsvOm2 (s : State) : Host.Outcome State Fault Refusal := peerRefusal .peerLengthMode s

/-- W.RSV.OM3: length mode 0b11; the reference peer has no step for it (R95, R169). -/
def execWRsvOm3 (s : State) : Host.Outcome State Fault Refusal := peerRefusal .peerLengthMode s

end Sys2Proof.Machine
end

