-- ==== Sys2Proof/Machine/Dispatch.lean ====
section
/-! DEFINITION. One arm per operation: the meaning of each row of spec/opcode_table.json. -/

namespace Sys2Proof.Machine

def exec (i : Instr) (s : State) : Host.Outcome State Fault Refusal :=
  match i with
  | .bsbCommon => Sys2Proof.Machine.execBsbCommon s
  | .bsbSreg i0 => Sys2Proof.Machine.execBsbSreg i0 s
  | .bsbStx i0 => Sys2Proof.Machine.execBsbStx i0 s
  | .bsbSrx i0 => Sys2Proof.Machine.execBsbSrx i0 s
  | .bsbDec b => Sys2Proof.Machine.execBsbDec b s
  | .roff r => Sys2Proof.Machine.execRoff r s
  | .raddr i0 r => Sys2Proof.Machine.execRaddr i0 r s
  | .ctlEnc b rwb om => Sys2Proof.Machine.execCtlEnc b rwb om s
  | .ctlDec c => Sys2Proof.Machine.execCtlDec c s
  | .hdrEnc o b rwb => Sys2Proof.Machine.execHdrEnc o b rwb s
  | .hdrDec h => Sys2Proof.Machine.execHdrDec h s
  | .frameRd b o n => Sys2Proof.Machine.execFrameRd b o n s
  | .frameWr b o n wdata => Sys2Proof.Machine.execFrameWr b o n wdata s
  | .frameParse t => Sys2Proof.Machine.execFrameParse t s
  | .cpWrap p szlog2 => Sys2Proof.Machine.execCpWrap p szlog2 s
  | .cpAdv p n => Sys2Proof.Machine.execCpAdv p n s
  | .cpUnread wr rd => Sys2Proof.Machine.execCpUnread wr rd s
  | .cpFree szlog2 wr rd => Sys2Proof.Machine.execCpFree szlog2 wr rd s
  | .cpSplit p l szlog2 => Sys2Proof.Machine.execCpSplit p l szlog2 s
  | .cbRd b p l szlog2 => Sys2Proof.Machine.execCbRd b p l szlog2 s
  | .cbWr b p l szlog2 wdata => Sys2Proof.Machine.execCbWr b p l szlog2 wdata s
  | .wRdCommon off => Sys2Proof.Machine.execWRdCommon off s
  | .wWrCommon off => Sys2Proof.Machine.execWWrCommon off s
  | .wRdSreg sock off => Sys2Proof.Machine.execWRdSreg sock off s
  | .wWrSreg sock off => Sys2Proof.Machine.execWWrSreg sock off s
  | .wRdStx sock off => Sys2Proof.Machine.execWRdStx sock off s
  | .wWrStx sock off => Sys2Proof.Machine.execWWrStx sock off s
  | .wRdSrx sock off => Sys2Proof.Machine.execWRdSrx sock off s
  | .wWrSrx sock off => Sys2Proof.Machine.execWWrSrx sock off s
  | .wRsvBsb _ _ _ => Sys2Proof.Machine.execWRsvBsb s
  | .wRsvOm1 _ _ _ => Sys2Proof.Machine.execWRsvOm1 s
  | .wRsvOm2 _ _ _ => Sys2Proof.Machine.execWRsvOm2 s
  | .wRsvOm3 _ _ _ => Sys2Proof.Machine.execWRsvOm3 s

end Sys2Proof.Machine
end

