-- ==== Sys2Proof/Machine/Sequences.lean ====
section
/-! DEFINITION. The host sequences (44_socket_ops.md R195 to R210, 45_udp.md R220 to R231): which frame unit operation the host
issues at each position, and what it does with the answer. The host keeps nothing between calls (R220). -/

namespace Sys2Proof.Machine

/-- A write of a named register of socket `i`: one FRAME.WR (R98, R195). -/
def regWrite (cfg : Config) (i : Sock) (r : RegName) (bytes : List Byte) : Instr :=
  .frameWr (regAddr cfg i r).1 (regAddr cfg i r).2 (BitVec.ofNat 16 bytes.length) bytes

/-- A read of a named register of socket `i`, in its whole width: one FRAME.RD (R98, R195). -/
def regRead (cfg : Config) (i : Sock) (r : RegName) : Instr :=
  .frameRd (regAddr cfg i r).1 (regAddr cfg i r).2 (BitVec.ofNat 16 (regWidth r))

/-- The one operation of a socket call (R197 to R206). -/
def socketIssue (cfg : Config) : SocketCall → Instr
  | .setMode i tag => regWrite cfg i .mode [tag]
  | .resetInterrupt i flag => regWrite cfg i .interrupt [flag]
  | .hasInterrupt i _ => regRead cfg i .interrupt
  | .setSourcePort i port => regWrite cfg i .sourcePort (bytesBe16 port)
  | .setDestinationAddress i a => regWrite cfg i .destAddress (addrBytes a)
  | .setDestinationPort i port => regWrite cfg i .destPort (bytesBe16 port)
  | .getTxReadPointer i => regRead cfg i .txReadPointer
  | .getTxWritePointer i => regRead cfg i .txWritePointer
  | .getRxReadPointer i => regRead cfg i .rxReadPointer
  | .setTxReadPointer i p => regWrite cfg i .txReadPointer (bytesBe16 p)
  | .setTxWritePointer i p => regWrite cfg i .txWritePointer (bytesBe16 p)
  | .setRxReadPointer i p => regWrite cfg i .rxReadPointer (bytesBe16 p)
  | .setInterruptMask i m => regWrite cfg i .interruptMask [m]
  | .issueCommand i tag => regWrite cfg i .command [cfg.cmd tag]

/-- The flag test of has_interrupt: `(v & flag) != 0` (R199, D40; PRESUMED, log entry 29, unsafe). -/
def flagSet (v flag : Byte) : Bool := v &&& flag != 0

/-- What a socket call returns when its frame succeeded, from the bytes read: `rdata` of a successful FRAME.RD has
exactly the register's width (R199, R203). -/
def socketReturn : SocketCall → List Byte → HostResult
  | .setMode _ _, _ => .done
  | .resetInterrupt _ _, _ => .done
  | .hasInterrupt _ flag, rdata => .flag (flagSet (rdata.getD 0 0) flag)
  | .setSourcePort _ _, _ => .done
  | .setDestinationAddress _ _, _ => .done
  | .setDestinationPort _ _, _ => .done
  | .getTxReadPointer _, rdata => .pointer (be16At rdata 0)
  | .getTxWritePointer _, rdata => .pointer (be16At rdata 0)
  | .getRxReadPointer _, rdata => .pointer (be16At rdata 0)
  | .setTxReadPointer _ _, _ => .done
  | .setTxWritePointer _ _, _ => .done
  | .setRxReadPointer _ _, _ => .done
  | .setInterruptMask _ _, _ => .done
  | .issueCommand _ _, _ => .done

/-- The inline datagram header in its 8 bytes (R225 step 3, R226). -/
def inlineHeader (hdr : List Byte) : InlineHeader where
  src := { a0 := hdr.getD 0 0, a1 := hdr.getD 1 0, a2 := hdr.getD 2 0, a3 := hdr.getD 3 0 }
  port := be16At hdr 4
  declared := be16At hdr 6

/-- `copy_len = min(capacity, declared)` (R225 step 4, R227). -/
def copyLen (j : RecvJob) (h : InlineHeader) : Nat := min j.capacity h.declared.toNat

/-- The frame unit operation the host issues at a position, or the refusal that ends the sequence there: a payload
longer than any count is longer than every buffer (R221 step 3, R225 step 4, R179; log entry 27). -/
def taskIssue (cfg : Config) : HostTask → Except Refusal Instr
  | .socket c => .ok (socketIssue cfg c)
  | .sizeFirst u => .ok (regRead cfg u.sock .receivedSize)
  | .sizeSecond u _ => .ok (regRead cfg u.sock .receivedSize)
  | .sendPointer j => .ok (socketIssue cfg (.getTxWritePointer j.sock))
  | .sendAddress j _ => .ok (socketIssue cfg (.setDestinationAddress j.sock j.addr))
  | .sendPort j _ => .ok (socketIssue cfg (.setDestinationPort j.sock j.port))
  | .sendPayload j p =>
    if cfg.countFits j.payload.length then
      .ok (.cbWr (blockOf j.sock .stx) p (BitVec.ofNat 16 j.payload.length) j.szlog2 j.payload)
    else .error .oversize
  | .sendAdvance j p =>
    .ok (socketIssue cfg (.setTxWritePointer j.sock (cpAdv p (BitVec.ofNat 16 j.payload.length))))
  | .sendCommand j => .ok (socketIssue cfg (.issueCommand j.sock .send))
  | .sendPoll j _ => .ok (socketIssue cfg (.hasInterrupt j.sock cfg.irqSendDone))
  | .sendClear j => .ok (socketIssue cfg (.resetInterrupt j.sock cfg.irqSendDone))
  | .recvPointer j => .ok (socketIssue cfg (.getRxReadPointer j.sock))
  | .recvHeader j p => .ok (.cbRd (blockOf j.sock .srx) p 8 j.szlog2)
  | .recvPayload j p h =>
    if cfg.countFits (copyLen j h) then
      .ok (.cbRd (blockOf j.sock .srx) (cpAdv p 8) (BitVec.ofNat 16 (copyLen j h)) j.szlog2)
    else .error .oversize
  | .recvAdvance j p h _ => .ok (socketIssue cfg (.setRxReadPointer j.sock (cpAdv p (8 + h.declared))))
  | .recvAck j _ _ => .ok (socketIssue cfg (.issueCommand j.sock .receiveAck))

/-- What the host does when an operation of its sequence has succeeded. -/
inductive HostNext where
  | go (t : HostTask)
  | finish (r : HostResult)
  deriving DecidableEq, Repr

/-- The stable value is taken: get_receive_size returns it; udp_receive goes on, or reports none ready below 8 (R225
step 1, R228). -/
def sizeTaken (u : SizeUser) (n : Half) : HostNext :=
  match u with
  | .get _ => .finish (.size n)
  | .recv j => if n.toNat < 8 then .finish .noneReady else .go (.recvPointer j)

/-- The end of the polls: with none left udp_send times out (R221 step 6, R222, R242). -/
def pollAgain (j : SendJob) (left : Nat) : HostNext :=
  match left with
  | 0 => .finish .sendTimeout
  | k + 1 => .go (.sendPoll j (k + 1))

/-- What the host does at a position when the operation there has succeeded with the bytes `rdata` (R207, R221, R225). -/
def taskReturn (cfg : Config) : HostTask → List Byte → HostNext
  | .socket c, rdata => .finish (socketReturn c rdata)
  | .sizeFirst u, rdata => .go (.sizeSecond u (be16At rdata 0))
  | .sizeSecond u s0, rdata =>
    if s0 = be16At rdata 0 ∧ (cfg.rsrGate = false ∨ cfg.rsrMin.toNat ≤ s0.toNat) then sizeTaken u s0
    else .go (.sizeFirst u)
  | .sendPointer j, rdata => .go (.sendAddress j (be16At rdata 0))
  | .sendAddress j p, _ => .go (.sendPort j p)
  | .sendPort j p, _ => .go (.sendPayload j p)
  | .sendPayload j p, _ => .go (.sendAdvance j p)
  | .sendAdvance j _, _ => .go (.sendCommand j)
  | .sendCommand j, _ => pollAgain j j.retryMax
  | .sendPoll j left, rdata =>
    if flagSet (rdata.getD 0 0) cfg.irqSendDone then .go (.sendClear j) else pollAgain j (left - 1)
  | .sendClear _, _ => .finish .sent
  | .recvPointer j, rdata => .go (.recvHeader j (be16At rdata 0))
  | .recvHeader j p, rdata => .go (.recvPayload j p (inlineHeader rdata))
  | .recvPayload j p h, rdata => .go (.recvAdvance j p h rdata)
  | .recvAdvance j _ h data, _ => .go (.recvAck j h data)
  | .recvAck j h data, _ => .finish (.received h.src h.port (copyLen j h) data)

/-- The first position of a called sequence. -/
def callStart : Call → HostTask
  | .socket c => .socket c
  | .getReceiveSize i => .sizeFirst (.get i)
  | .udpSend j => .sendPointer j
  | .udpReceive j => .sizeFirst (.recv j)

/-- The sequence has ended with a result; nothing of it is kept (R18, R220). -/
def State.finish (r : HostResult) (s : State) : State := { s with task := none, results := s.results ++ [r] }

/-- The host stands at a position of a sequence. -/
def State.stands (t : HostTask) (s : State) : State := { s with task := some t }

/-- A result has been returned to the host (R18). -/
def State.reports (r : HostResult) (s : State) : State := { s with results := s.results ++ [r] }

/-- What the host still has to do after it has taken an item of its program. -/
def State.goesOn (program : List HostItem) (s : State) : State := { s with program := program }

/-- The bytes behind the header of a frame on the bus (R96). -/
def State.onWire (bytes : List Byte) (s : State) : State := { s with wire := bytes }

/-- What the host does once an operation of its sequence has returned: on with the next position, or the first error, or
the reset that cut the operation, ends the sequence (R208, R246, R266). While an exchange does not return, the host waits
(R146, R252). -/
def taskAfter (t : HostTask) (s : State) : State :=
  match s.phase with
  | .hdr => s
  | .data => s
  | .idle =>
    match s.resp with
    | .frame .ok rdata =>
      match taskReturn Config.std t rdata with
      | .go t1 => State.stands t1 s
      | .finish r => s.finish r
    | .frame (.errBus e) _ => s.finish (.busError e)
    | .cut => s.finish .cut
    | r => s.finish (.op r)

/-- One move of a host that stands in a sequence: it issues one operation and takes the answer (R17 (a)). -/
def taskMove (t : HostTask) (s : State) : Host.Outcome State Fault Refusal :=
  match taskIssue Config.std t with
  | .error r => .next (s.finish (.refused r))
  | .ok i =>
    match exec i s with
    | .next s1 => .next (taskAfter t s1)
    | .refused r => if returnedToHost r then .next (s.finish (.refused r)) else .refused r
    | .fault f => .fault f

/-- The response of the operation the host issued by itself goes to the host, once the operation has returned (R18, R146,
R252). -/
def State.answered (s : State) : State :=
  match s.phase with
  | .idle => State.reports (.op s.resp) s
  | .hdr => s
  | .data => s

/-- The operation the host issued by itself: its response, or its refusal in place of a result with nothing else changed,
goes to the host, who goes on (R18, R243; log entry 8). -/
def opAfter (s : State) (o : Host.Outcome State Fault Refusal) : Host.Outcome State Fault Refusal :=
  match o with
  | .next s1 => .next s1.answered
  | .refused r =>
    if returnedToHost r then .next (State.reports (.op (.refused r)) (State.returns (.refused r) s))
    else .refused r
  | .fault f => .fault f

/-- One packet of the host's program: decoded and run (R89, R92, R93). Fewer than three bytes on the bus are no frame and
the reference peer does nothing (R63, R96; log entry 32). -/
def packetMove (p : Packet) (s : State) : Host.Outcome State Fault Refusal :=
  match decodeRest p with
  | .ok (i, rest) => opAfter s (exec i (State.onWire rest s))
  | .error .badOpsel => opAfter s (.refused .badOp)
  | .error .dataLength => .refused .operandLength
  | .error .noFrame => opAfter s (.next (State.returns .noFrame s))

/-! ### Several users of the bus (R261) -/

/-- The host's program has the bus; the sequence that had it waits (R261). -/
def State.parks (s : State) : State := { s with task := none, parked := s.parked ++ s.task.toList }

/-- The sequence in progress on socket `i` has the bus, and the one that had it waits; nothing changes if none is waiting
there (R261). -/
def State.resumes (i : Sock) (s : State) : State :=
  match s.parked.find? (fun k => k.sock == i) with
  | none => s
  | some k => { s with task := some k, parked := s.parked.filter (fun k => k.sock != i) ++ s.task.toList }

/-- Whose turn it is next has been read. -/
def State.turnTaken (turns : List Turn) (s : State) : State := { s with turns := turns }

/-- The bus goes to the one whose turn it is; nothing changes if no sequence is waiting there (R261; log entry 25). -/
def State.givesBus (t : Turn) (s : State) : State :=
  match t with
  | .program => s.parks
  | .user i => s.resumes i

/-- Between two operations the bus goes to the one whose turn is next, for one move; with no turn set it stays where it is
(R261). -/
def State.due (s : State) : State :=
  match s.turns with
  | [] => s
  | t :: rest => State.givesBus t (State.turnTaken rest s)

/-- A call is started beside the sequences in progress on other sockets. One on the same socket is finished first: two
sequences on one socket are not interleaved (R261, U32). -/
def callMove (c : Call) (rest : List HostItem) (s : State) : State :=
  if s.parked.any (fun k => k.sock == c.sock) then s.resumes c.sock
  else State.stands (callStart c) (State.goesOn rest s)

/-- With its program at its end the host finishes the sequences in progress; with nothing left to do it rests, and only
the peer's engine moves (R17, R18). -/
def restMove (s : State) : State :=
  match s.parked with
  | k :: _ => s.resumes k.sock
  | [] => s.peerMoves

/-- What the host does on its own, in no sequence and in no operation: the next item of its program (R17 (a)). -/
def hostMove (s : State) : Host.Outcome State Fault Refusal :=
  match s.program with
  | .op p :: rest => packetMove p (State.goesOn rest s)
  | .call c :: rest => .next (callMove c rest s)
  | .reset :: rest => .next (fuReset (State.goesOn rest s))
  | [] => .next (restMove s)

/-! ### One move of the machine -/

/-- The host that waits for an operation learns that the unit was reset (log entry 28). -/
def State.hostCut (s : State) : State :=
  match s.task with
  | some _ => s.finish .cut
  | none => State.reports (.op .cut) s

/-- A reset item of the program. Between two operations the unit's registers are reset and nothing else; in an open frame,
whose exchange has not returned, the exchange is given up and the operation ends without a result (R266; log entry 28). -/
def resetMove (s : State) : State :=
  match s.phase with
  | .idle => fuReset s
  | .hdr => State.hostCut (State.cut (State.withEnv (dropHang s.env) s))
  | .data => State.hostCut (State.cut (State.withEnv (dropHang s.env) s))

/-- A move of the host, which has the bus: on in the sequence that has it, else on in its program (R17 (a), R261). -/
def busMove (s : State) : Host.Outcome State Fault Refusal :=
  match s.task with
  | some k => taskMove k s
  | none => hostMove s

/-- One move of the machine. A reset at the head of the program takes effect at once. Inside an open frame the engine
takes its next step and the host has no move. Otherwise the one whose turn it is moves (R17, R146, R261, R265, R266; log
entries 11, 23, 25, 28). -/
def move (s : State) : Host.Outcome State Fault Refusal :=
  match s.program with
  | .reset :: rest => .next (resetMove (State.goesOn rest s))
  | _ =>
    match s.phase with
    | .hdr => .next (fteStep s)
    | .data => .next (fteStep s)
    | .idle => busMove s.due

/-- A packet at the head of the host's program, the engine idle, no sequence having the bus, so that the next move runs it
(log entry 11). -/
def State.withPacket (p : Packet) (s : State) : State :=
  { s with program := .op p :: s.program, task := none, turns := [], phase := .idle, sel := .released }

end Sys2Proof.Machine
end

