-- ==== Sys2Proof/Machine/Step.lean ====
section
/-! DEFINITION. One step of the machine, and the placing of an operation where the step takes its next one. -/

namespace Sys2Proof.Machine

/-- One step: a move of the machine with the default parameters (R8, R17). -/
def step (s : State) : Host.Outcome State Fault Refusal := Sys2Proof.Machine.move s

/-- The state with an opcode-table word as the operation the very next step runs: on the command port for a row of one
byte, on the bus for a wire header. -/
def State.withFetchWord (s : State) (nbits w : Nat) : State :=
  Sys2Proof.Machine.State.withPacket (Sys2Proof.tablePacket nbits w) s

end Sys2Proof.Machine
end

