-- ==== Sys2Proof/Safety.lean ====
section
/-! DEFINITION. What counts as a safe state and a safe run, and the words the statements use for the environment's script. -/

namespace Sys2Proof.Machine

/-- Where a bus trace stands: bus-select released, asserted, or asserted after a failed exchange (R29, R151). -/
inductive BusLevel where
  | free
  | frameOpen
  | failed
  deriving DecidableEq, Repr

/-- The bus events that may follow: exchanges only between assertion and release, nothing but the release after a failed
exchange, no assertion inside an open frame (R66, R151). -/
def busNext (l : BusLevel) (e : BusEvent) : Option BusLevel :=
  match e with
  | .selA => if l = .free then some .frameOpen else none
  | .x _ _ => if l = .frameOpen then some .frameOpen else none
  | .xf _ _ => if l = .frameOpen then some .failed else none
  | .selR => if l = .free then none else some .free

/-- Where a trace leads from a level, if every event of it may happen. -/
def busAfter : BusLevel → List BusEvent → Option BusLevel
  | l, [] => some l
  | l, e :: es => (busNext l e).bind fun l1 => busAfter l1 es

/-- The level that SEL shows. -/
def selLevel : Sel → BusLevel
  | .released => .free
  | .asserted => .frameOpen

/-- The whole trace so far is a sequence of frames, each bracketed by assertion and release, the last one open exactly
when SEL is asserted (R21, R66). -/
abbrev State.Bracketed (s : State) : Prop := busAfter .free s.trace = some (selLevel s.sel)

/-- The registers of the frame transport engine agree with each other (R21, R22): SEL is asserted exactly while a frame
is open; IDX is inside the phase; HDRB encodes the latched command; a read has as many bytes as IDX says. -/
abbrev State.EngineInv (s : State) : Prop :=
  (s.sel = .asserted ↔ s.phase ≠ .idle) ∧
  (s.phase = .hdr → s.idx.toNat ≤ 2 ∧ s.rdata = []) ∧
  (s.phase = .data → s.idx.toNat ≤ s.len.toNat ∧ (s.dir = .read → s.rdata.length = s.idx.toNat)) ∧
  (s.phase ≠ .idle → s.hdrb = hdrEnc Config.std s.off s.bsb s.dir ∧ s.res = .none)

/-- The peer's memory is in its canonical form; nothing is known of a lost peer; a peer that still has a meaning in the
data phase gives the open frame one (R64). -/
abbrev State.PeerInv (s : State) : Prop :=
  Memory.wf s.pm ∧ (s.peer = .lost → s.pm = []) ∧
  (s.phase = .data → s.peer = .reference → peerRefuses s (hdrDec Config.std s.hdrb) s.len.toNat = none)

/-- No two host sequences in progress drive the same socket (R261, U32). -/
abbrev State.HostInv (s : State) : Prop := ((s.task.toList ++ s.parked).map HostTask.sock).Nodup

/-- The invariant of the machine. -/
abbrev State.Inv (s : State) : Prop := s.EngineInv ∧ s.PeerInv ∧ s.HostInv

/-- The end of a run: nothing left to do, the engine idle (R18). -/
abbrev State.ended (s : State) : Prop := s.phase = .idle ∧ s.task = none ∧ s.parked = [] ∧ s.program = []

/-- What stops a frame before it has ended normally: an exchange that fails (R151), one that never returns (R252), a reset
of the unit (R266), which may give up one that does not return. -/
inductive Stop where
  | fail (e : BusErr)
  | hang
  | reset
  deriving DecidableEq, Repr

/-- What stops a frame of which `n` exchanges and the release of bus-select are still to come: how many exchanges succeed
before it, and what it is. A reset that takes the place of the release comes after all `n`. -/
def firstStop : List EnvEvent → Nat → Option (Nat × Stop)
  | [], _ => none
  | .poke _ _ _ :: rest, n => firstStop rest n
  | .reset .step :: _, _ => some (0, .reset)
  | .reset (.exchange _) :: _, 0 => none
  | .reset (.exchange _) :: _, _ + 1 => some (0, .reset)
  | .reset .between :: _, 0 => none
  | .reset .between :: _, _ + 1 => some (0, .reset)
  | .fail _ _ :: _, 0 => none
  | .fail e _ :: _, _ + 1 => some (0, .fail e)
  | .hang _ :: _, 0 => none
  | .hang _ :: rest, _ + 1 => some (0, if resetNext rest then .reset else .hang)
  | .ok :: _, 0 => none
  | .ok :: rest, n + 1 => (firstStop rest n).map fun x => (x.1 + 1, x.2)
  | .okWith _ :: _, 0 => none
  | .okWith _ :: rest, n + 1 => (firstStop rest n).map fun x => (x.1 + 1, x.2)

/-- How many of the next `n` exchanges succeed, up to the first that does not. -/
def succeeding : List EnvEvent → Nat → Nat
  | [], n => n
  | .poke _ _ _ :: rest, n => succeeding rest n
  | .ok :: _, 0 => 0
  | .ok :: rest, n + 1 => succeeding rest n + 1
  | .okWith _ :: _, 0 => 0
  | .okWith _ :: rest, n + 1 => succeeding rest n + 1
  | .fail _ _ :: _, _ => 0
  | .hang _ :: _, _ => 0
  | .reset _ :: _, _ => 0

/-- How many of the next `n` exchanges reach the peer: those that succeed, and the one that fails, never returns or is cut by
a reset if the script says it reached the peer (R157, R248). -/
def reachedCount : List EnvEvent → Nat → Nat
  | [], n => n
  | .poke _ _ _ :: rest, n => reachedCount rest n
  | .ok :: _, 0 => 0
  | .okWith _ :: _, 0 => 0
  | .fail _ _ :: _, 0 => 0
  | .fail _ reached :: _, _ + 1 => if reached then 1 else 0
  | .hang _ :: _, 0 => 0
  | .hang reached :: _, _ + 1 => if reached then 1 else 0
  | .reset _ :: _, 0 => 0
  | .reset point :: _, _ + 1 => if point.reached then 1 else 0
  | .ok :: rest, n + 1 => reachedCount rest n + 1
  | .okWith _ :: rest, n + 1 => reachedCount rest n + 1

/-- The keys the peer's engine changes in a script. -/
def pokedKeys : List EnvEvent → List Nat
  | [] => []
  | .poke b o _ :: rest => byteKey b o.toNat :: pokedKeys rest
  | .ok :: rest => pokedKeys rest
  | .okWith _ :: rest => pokedKeys rest
  | .fail _ _ :: rest => pokedKeys rest
  | .hang _ :: rest => pokedKeys rest
  | .reset _ :: rest => pokedKeys rest

/-- The byte an oracle gives as the response to exchange `k` of a script, if it gives one (R35). -/
def oracleByte : List EnvEvent → Nat → Option Byte
  | [], _ => none
  | .poke _ _ _ :: rest, k => oracleByte rest k
  | .okWith r :: _, 0 => some r
  | _ :: _, 0 => none
  | _ :: rest, k + 1 => oracleByte rest k

/-- The peer's memory when exchange `k` of a script comes, by the moves of its engine alone (R35, R68). -/
def memoryAt : List EnvEvent → Nat → List Host.Cell → List Host.Cell
  | [], _, m => m
  | .poke b o v :: rest, k, m => memoryAt rest k (Memory.set m (byteKey b o.toNat) v)
  | _ :: _, 0, m => m
  | _ :: rest, k + 1, m => memoryAt rest k m

/-- What exchange `k` of a script samples at a location of the peer: the oracle's byte, else the byte there at that moment,
a free value if nothing is known of it (R35, R63). -/
def sampleAt (env : List EnvEvent) (m : List Host.Cell) (k key : Nat) : Byte :=
  (oracleByte env k).getD ((Memory.get (memoryAt env k m) key).getD (Config.peerInit key))

/-- A script in which every exchange succeeds, the peer answers and its engine rests. -/
abbrev Quiet (env : List EnvEvent) : Prop := ∀ ev ∈ env, ev = .ok

/-- The exchanges of a frame as bus events. -/
def exchanges (xs : List (Byte × Byte)) : List BusEvent := xs.map fun x => .x x.1 x.2

/-- What an operation of the frame unit leaves alone outside itself and the peer: the host, the bus side input, and the
peer's buffer sizes. -/
abbrev SameOutside (s t : State) : Prop :=
  t.program = s.program ∧ t.task = s.task ∧ t.parked = s.parked ∧ t.turns = s.turns ∧ t.results = s.results ∧
  t.wire = s.wire ∧ t.txLog2 = s.txLog2 ∧ t.rxLog2 = s.rxLog2

/-- The operations of the command port that neither assert bus-select nor reach the peer (R25, R52). -/
def isArithmetic : Instr → Bool
  | .bsbCommon => true
  | .bsbSreg _ => true
  | .bsbStx _ => true
  | .bsbSrx _ => true
  | .bsbDec _ => true
  | .roff _ => true
  | .raddr _ _ => true
  | .ctlEnc _ _ _ => true
  | .ctlDec _ => true
  | .hdrEnc _ _ _ => true
  | .hdrDec _ => true
  | .frameParse _ => true
  | .cpWrap _ _ => true
  | .cpAdv _ _ => true
  | .cpUnread _ _ => true
  | .cpFree _ _ _ => true
  | .cpSplit _ _ _ => true
  | .frameRd _ _ _ => false
  | .frameWr _ _ _ _ => false
  | .cbRd _ _ _ _ => false
  | .cbWr _ _ _ _ _ => false
  | .wRdCommon _ => false
  | .wWrCommon _ => false
  | .wRdSreg _ _ => false
  | .wWrSreg _ _ => false
  | .wRdStx _ _ => false
  | .wWrStx _ _ => false
  | .wRdSrx _ _ => false
  | .wWrSrx _ _ => false
  | .wRsvBsb _ _ _ => false
  | .wRsvOm1 _ _ _ => false
  | .wRsvOm2 _ _ _ => false
  | .wRsvOm3 _ _ _ => false

/-- The operations that drive the bus (R52). -/
def drivesBus : Instr → Bool
  | .frameRd _ _ _ => true
  | .frameWr _ _ _ _ => true
  | .cbRd _ _ _ _ => true
  | .cbWr _ _ _ _ _ => true
  | _ => false

/-- The operation completes at PHASE = IDLE: its results are on the port and nothing else has changed (R25, R146). -/
def Answers (i : Instr) (r : Response) : Prop := ∀ s : State, s.phase = .idle → exec i s = .next (s.returns r)

/-- The next item of the host's program is not a reset of the frame unit. -/
def NoReset (s : State) : Prop := ∀ rest, s.program ≠ .reset :: rest

/-- The host sequence `k` has the bus for the next move: no operation is in progress, no reset of the unit comes first, and
it is its turn (R146, R261). -/
abbrev HasBus (s : State) (k : HostTask) : Prop := s.phase = .idle ∧ NoReset s ∧ s.due.task = some k

/-- The host's program has the bus for the next move. -/
abbrev HostFree (s : State) : Prop := s.phase = .idle ∧ s.due.task = none

/-- The state after `n` moves, when each of them answers a next state. -/
def State.after : Nat → State → Option State
  | 0, s => some s
  | n + 1, s =>
    match step s with
    | .next t => State.after n t
    | .fault _ => none
    | .refused _ => none

/-- The state after `n` steps of the engine alone. -/
def fteAfter : Nat → State → State
  | 0, s => s
  | n + 1, s => fteAfter n (fteStep s)

/-- The reference peer gives a frame of `n` data bytes at `(b, o)` a meaning, in variable-length mode (R64). -/
abbrev PeerTakes (s : State) (b : Block) (o : Half) (n : Nat) : Prop :=
  s.peer = .reference ∧ blockAssigned b = true ∧ o.toNat + n ≤ blockLimit s b

/-- The named registers in the order of their codes (R91). -/
def regNames : List RegName :=
  [.mode, .command, .interrupt, .interruptMask, .sourcePort, .destAddress, .destPort, .txReadPointer, .txWritePointer,
   .rxReadPointer, .rxWritePointer, .receivedSize]

/-- The block-select operation of a region (R111 to R114). -/
def blockOp (r : Region) (i : Sock) : Instr :=
  match r with
  | .common => .bsbCommon
  | .sreg => .bsbSreg i
  | .stx => .bsbStx i
  | .srx => .bsbSrx i

/-- The wire class of an assigned block and a direction (R92); the common block has no socket. -/
def wireOp (r : Region) (d : Dir) (i : Sock) (off : Half) : Instr :=
  match r, d with
  | .common, .read => .wRdCommon off
  | .common, .write => .wWrCommon off
  | .sreg, .read => .wRdSreg i off
  | .sreg, .write => .wWrSreg i off
  | .stx, .read => .wRdStx i off
  | .stx, .write => .wWrStx i off
  | .srx, .read => .wRdSrx i off
  | .srx, .write => .wWrSrx i off

/-- The FRAME operation of a direction; a read has no write data. -/
def frameOp (d : Dir) (b : Block) (o n : Half) (wdata : List Byte) : Instr :=
  match d with
  | .read => .frameRd b o n
  | .write => .frameWr b o n wdata

/-- The reason a packet on the command port is refused, read from the table of R243 alone. -/
def refusedWith : Packet → Option Refusal
  | .wire _ => none
  | .cmd opsel x =>
    if opsel.toNat ∈ [0x07, 0x0C, 0x0D, 0x0E, 0x0F, 0x13, 0x14, 0x15, 0x16, 0x17, 0x1F] then some .badOp
    else if opsel.toNat ∈ [0x05, 0x06] ∧ 12 ≤ x.r.toNat then some .badOp
    else if opsel.toNat = 0x1D ∧ 2 ^ x.szlog2.toNat < x.l.toNat then some .oversize
    else if opsel.toNat = 0x1E ∧ 2 ^ x.szlog2.toNat < x.l.toNat ∧ x.wdata.length = x.l.toNat then some .oversize
    else if opsel.toNat = 0x12 ∧ 3 ≤ x.t.length ∧ (x.t.getD 2 (0, 0)).1.toNat % 4 ≠ 0 then some .badMode
    else none

end Sys2Proof.Machine
end

