-- ==== Sys2Proof/Certificates/Slice0/Obligations.lean ====
section
/-! DEFINITION. The statements for the provers, from the numbered rules of the spec. -/

section

open Sys2Proof Sys2Proof.Machine

/-! ### Address generation unit -/

/-- R111 to R114: the codes that select the four operations, and the block-select each returns; nothing else changes. -/
def Obligations.BlockSelectValues : Prop :=
  (∀ x, decodeCmd 0x00 x = .ok .bsbCommon) ∧ (∀ x, decodeCmd 0x01 x = .ok (.bsbSreg x.i)) ∧
  (∀ x, decodeCmd 0x02 x = .ok (.bsbStx x.i)) ∧ (∀ x, decodeCmd 0x03 x = .ok (.bsbSrx x.i)) ∧
  Answers .bsbCommon (.block 0) ∧
  (∀ i, Answers (.bsbSreg i) (.block (BitVec.ofNat 5 (4 * i.toNat + 1)))) ∧
  (∀ i, Answers (.bsbStx i) (.block (BitVec.ofNat 5 (4 * i.toNat + 2)))) ∧
  (∀ i, Answers (.bsbSrx i) (.block (BitVec.ofNat 5 (4 * i.toNat + 3))))

/-- R115: region, socket index and assigned bit of any block-select; total. -/
def Obligations.BlockSelectDecoded : Prop :=
  (∀ x, decodeCmd 0x04 x = .ok (.bsbDec x.b)) ∧
  ∀ b : Block, ∃ r : Region, (regionCode r).toNat = b.toNat % 4 ∧
    Answers (.bsbDec b)
      (.blockFields r (BitVec.ofNat 3 (b.toNat / 4)) (decide (b.toNat % 4 ≠ 0 ∨ b.toNat / 4 = 0)))

/-- R116: two block-select operations give the same block only if they are the same operation; no result is one of the
seven unassigned values; BSB.DEC gives region and socket back; and a result depends on the index alone. -/
def Obligations.BlockSelectMuxLaws : Prop :=
  ∀ (r r' : Region) (i i' : Sock), ∃ b b' : Block,
    Answers (blockOp r i) (.block b) ∧ Answers (blockOp r' i') (.block b') ∧
    (b = b' ↔ blockOp r i = blockOp r' i') ∧
    b.toNat < 32 ∧ b.toNat ∉ [4, 8, 12, 16, 20, 24, 28] ∧
    Answers (.bsbDec b) (.blockFields r (if r = .common then 0 else i) true)

/-- R91, R118: a register name code 0..11 selects its name in the order of R91, and RADDR pairs the socket's register
block with the table's offset of the name; codes 12..15 are refused BAD_OP. The table itself is a parameter. -/
def Obligations.RegisterAddressFormed : Prop :=
  (∀ x, decodeCmd 0x05 x = .ok (.roff x.r)) ∧ (∀ x, decodeCmd 0x06 x = .ok (.raddr x.i x.r)) ∧
  (∀ (r : BitVec 4) (name : RegName), regNames[r.toNat]? = some name →
    Answers (.roff r) (.offset (Config.std.roff name)) ∧
    ∀ i, Answers (.raddr i r) (.address (BitVec.ofNat 5 (4 * i.toNat + 1)) (Config.std.roff name))) ∧
  (∀ r : BitVec 4, 12 ≤ r.toNat → ∀ s : State, s.phase = .idle →
    exec (.roff r) s = .refused .badOp ∧ ∀ i, exec (.raddr i r) s = .refused .badOp)

/-- The default offset table and the register widths: the model's PRESUMED values (log entry 13), not the source's. The
offsets are distinct and no two registers share a byte. -/
def Obligations.DefaultOffsetTable : Prop :=
  (∀ k : Fin 12, ∃ name, regNames[k.val]? = some name ∧
    Answers (.roff (BitVec.ofNat 4 k.val))
      (.offset (([0x0000, 0x0001, 0x0002, 0x002C, 0x0004, 0x000C, 0x0010, 0x0022, 0x0024, 0x0028, 0x002A, 0x0026] :
        List Half).getD k.val 0)) ∧
    regWidth name = ([1, 1, 1, 1, 2, 4, 2, 2, 2, 2, 2, 2] : List Nat).getD k.val 0) ∧
  ∀ n n' : RegName, n ≠ n' →
    (Config.std.roff n).toNat + regWidth n ≤ (Config.std.roff n').toNat ∨
    (Config.std.roff n').toNat + regWidth n' ≤ (Config.std.roff n).toNat

/-! ### Header codec unit -/

/-- The control byte in numbers: bits 7:3 block-select, bit 2 direction, bits 1:0 length mode, both ways, total. The
positions of the direction bit and the length mode are the spec's defaults, PRESUMED in log entry 12. -/
def Obligations.ControlByteLayout : Prop :=
  (∀ x, decodeCmd 0x08 x = .ok (.ctlEnc x.b x.rwb x.om)) ∧ (∀ x, decodeCmd 0x09 x = .ok (.ctlDec x.c)) ∧
  (∀ (b : Block) (d : Dir) (om : BitVec 2),
    Answers (.ctlEnc b d om)
      (.ctl (BitVec.ofNat 8 (8 * b.toNat + (match d with | .read => 0 | .write => 4) + om.toNat)))) ∧
  (∀ c : Byte,
    Answers (.ctlDec c)
      (.ctlFields
        { bsb := BitVec.ofNat 5 (c.toNat / 8)
          dir := if c.toNat / 4 % 2 = 1 then .write else .read
          om := BitVec.ofNat 2 (c.toNat % 4) }))

/-- R134, R135, R86: the header is the offset's high byte, its low byte, and the control byte that CTL.ENC gives in
variable-length mode; HDR.DEC rebuilds the offset as h0*256 + h1 and gives the fields that CTL.DEC gives. -/
def Obligations.HeaderCodec : Prop :=
  (∀ x, decodeCmd 0x0A x = .ok (.hdrEnc x.o x.b x.rwb)) ∧ (∀ x, decodeCmd 0x0B x = .ok (.hdrDec x.h)) ∧
  (∀ (o : Half) (b : Block) (d : Dir), ∃ c, Answers (.ctlEnc b d Config.std.omVdm) (.ctl c) ∧
    Answers (.hdrEnc o b d)
      (.header { h0 := BitVec.ofNat 8 (o.toNat / 256), h1 := BitVec.ofNat 8 (o.toNat % 256), h2 := c })) ∧
  (∀ h : Header, ∃ f, Answers (.ctlDec h.h2) (.ctlFields f) ∧
    Answers (.hdrDec h)
      (.headerFields
        { off := BitVec.ofNat 16 (h.h0.toNat * 256 + h.h1.toNat), bsb := f.bsb, dir := f.dir, om := f.om }))

/-- R136: the control byte is a bijection; HDR.DEC inverts HDR.ENC; HDR.ENC is injective and its image is exactly the
headers in variable-length mode; the header of a frame depends on neither its data nor its length. -/
def Obligations.CodecLaws : Prop :=
  (∀ (b : Block) (d : Dir) (om : BitVec 2), ∃ c, Answers (.ctlEnc b d om) (.ctl c) ∧
    Answers (.ctlDec c) (.ctlFields { bsb := b, dir := d, om := om })) ∧
  (∀ c : Byte, ∃ f, Answers (.ctlDec c) (.ctlFields f) ∧ Answers (.ctlEnc f.bsb f.dir f.om) (.ctl c)) ∧
  (∀ (o : Half) (b : Block) (d : Dir), ∃ h, Answers (.hdrEnc o b d) (.header h) ∧
    Answers (.hdrDec h) (.headerFields { off := o, bsb := b, dir := d, om := Config.std.omVdm })) ∧
  (∀ (o o' : Half) (b b' : Block) (d d' : Dir) (h : Header), Answers (.hdrEnc o b d) (.header h) →
    Answers (.hdrEnc o' b' d') (.header h) → o = o' ∧ b = b' ∧ d = d') ∧
  (∀ h : Header, (∃ o b d, Answers (.hdrEnc o b d) (.header h)) ↔
    ∃ f, Answers (.hdrDec h) (.headerFields f) ∧ f.om = Config.std.omVdm) ∧
  (∀ (d : Dir) (b : Block) (o n n' : Half) (wd wd' : List Byte) (s s' : State),
    (fteStart d b o n wd s).hdrb = (fteStart d b o n' wd' s').hdrb)

/-! ### Circular buffer unit -/

/-- R170, R171, R172: wrap, advance and difference, in numbers; the wrap is a mask of the low bits. -/
def Obligations.PointerArithmetic : Prop :=
  (∀ x, decodeCmd 0x18 x = .ok (.cpWrap x.p x.szlog2)) ∧ (∀ x, decodeCmd 0x19 x = .ok (.cpAdv x.p x.n)) ∧
  (∀ x, decodeCmd 0x1A x = .ok (.cpUnread x.wr x.rd)) ∧
  (∀ (p : Half) (sz : BitVec 4), Answers (.cpWrap p sz) (.offset (BitVec.ofNat 16 (p.toNat % 2 ^ sz.toNat))) ∧
    BitVec.ofNat 16 (p.toNat % 2 ^ sz.toNat) = p &&& BitVec.ofNat 16 (2 ^ sz.toNat - 1)) ∧
  (∀ p n : Half, Answers (.cpAdv p n) (.pointer (BitVec.ofNat 16 ((p.toNat + n.toNat) % 65536)))) ∧
  (∀ wr rd : Half,
    Answers (.cpUnread wr rd) (.count (BitVec.ofNat 16 ((wr.toNat + (65536 - rd.toNat)) % 65536))))

/-- R173: free space and its valid bit; when it is valid the number is S - u exactly. -/
def Obligations.FreeSpace : Prop :=
  (∀ x, decodeCmd 0x1B x = .ok (.cpFree x.szlog2 x.wr x.rd)) ∧
  ∀ (sz : BitVec 4) (wr rd : Half), ∃ (u : Nat) (f : Half) (v : Bool),
    u = (wr.toNat + (65536 - rd.toNat)) % 65536 ∧ Answers (.cpFree sz wr rd) (.free f v) ∧
    v = decide (u ≤ 2 ^ sz.toNat) ∧ f.toNat = (2 ^ sz.toNat + (65536 - u)) % 65536 ∧
    (v = true → f.toNat = 2 ^ sz.toNat - u ∧ f.toNat ≤ 2 ^ sz.toNat)

/-- R175: the splitter's formula, for every operand. -/
def Obligations.SplitterFormula : Prop :=
  (∀ x, decodeCmd 0x1C x = .ok (.cpSplit x.p x.l x.szlog2)) ∧
  ∀ (p l : Half) (sz : BitVec 4), ∃ c, Answers (.cpSplit p l sz) (.split c) ∧
    c.o0.toNat = p.toNat % 2 ^ sz.toNat ∧ c.fits = decide (l.toNat ≤ 2 ^ sz.toNat) ∧
    (if p.toNat % 2 ^ sz.toNat + l.toNat > 2 ^ sz.toNat then
      c.two = true ∧ c.l0.toNat = 2 ^ sz.toNat - p.toNat % 2 ^ sz.toNat ∧ c.l1.toNat = l.toNat - c.l0.toNat ∧
        1 ≤ c.l0.toNat ∧ 1 ≤ c.l1.toNat
    else c.two = false ∧ c.l0 = l)

/-- R178 (a) to (d): the lengths sum to L; with L <= S every offset is inside the buffer, the chunks do not overlap, and
byte j of the transfer is at (p + j) mod S. R179: with L > S a second chunk is longer than the first offset. -/
def Obligations.SplitterLaws : Prop :=
  ∀ (p l : Half) (sz : BitVec 4), ∃ c, Answers (.cpSplit p l sz) (.split c) ∧
    c.l0.toNat + (if c.two then c.l1.toNat else 0) = l.toNat ∧
    (l.toNat ≤ 2 ^ sz.toNat →
      c.o0.toNat + c.l0.toNat ≤ 2 ^ sz.toNat ∧ (c.two = true → c.l1.toNat ≤ c.o0.toNat) ∧
      ∀ j, j < l.toNat →
        (if j < c.l0.toNat then c.o0.toNat + j else j - c.l0.toNat) = (p.toNat + j) % 2 ^ sz.toNat) ∧
    (2 ^ sz.toNat < l.toNat → c.two = true ∧ c.o0.toNat < c.l1.toNat)

/-- R174: advancing then wrapping is wrapping then advancing inside the buffer; a pointer written back is the 16-bit
logical value. That its two bytes are written high byte first is R55's order for register values (D22), which the source
does not give: PRESUMED (log entry 20). -/
def Obligations.TwoSpaces : Prop :=
  (∀ (p n : Half) (sz : BitVec 4), ∃ q o1 o2, Answers (.cpAdv p n) (.pointer q) ∧ Answers (.cpWrap q sz) (.offset o1) ∧
    Answers (.cpWrap p sz) (.offset o2) ∧ o1.toNat = (o2.toNat + n.toNat) % 2 ^ sz.toNat) ∧
  (∀ (j : SendJob) (p : Half), taskIssue Config.std (.sendAdvance j p) =
    .ok (.frameWr (blockOf j.sock .sreg) (Config.std.roff .txWritePointer) 2
      (bytesBe16 (p + BitVec.ofNat 16 j.payload.length)))) ∧
  (∀ (j : RecvJob) (p : Half) (h : InlineHeader) (data : List Byte),
    taskIssue Config.std (.recvAdvance j p h data) =
      .ok (.frameWr (blockOf j.sock .sreg) (Config.std.roff .rxReadPointer) 2
        (bytesBe16 (p + (8 + h.declared)))))

/-! ### Frame transport engine: its steps -/

/-- R148: a frame operation at PHASE = IDLE latches its command and the header, clears RES, asserts bus-select and goes to
(HDR, 0); what follows is the engine's own steps. That the port's receive buffer is then empty, and its write data in a
read, is the model's choice (log entry 40). -/
def Obligations.FrameStart : Prop :=
  ∀ (s : State) (b : Block) (o n : Half) (wd : List Byte), s.phase = .idle → ∀ d : Dir, ∃ h,
    Answers (.hdrEnc o b d) (.header h) ∧
    exec (frameOp d b o n wd) s =
      .next (fteRun (n.toNat + 4)
        { s with
          dir := d, bsb := b, off := o, len := n, hdrb := h, res := .none, sel := .asserted, phase := .hdr, idx := 0
          wdata := (match d with | .read => [] | .write => wd), rdata := [], trace := s.trace ++ [.selA] })

/-- R149: step HEADER exchanges HDRB[IDX] and discards the response. While the exchange does not return (log entry 37) nothing
else moves; a reset may take its place (log entry 28). -/
def Obligations.StepHeader : Prop :=
  ∀ s : State, NoReset s → s.phase = .hdr → s.idx.toNat ≤ 2 →
    match xchg ((headerBytes s.hdrb).getD s.idx.toNat 0) s with
    | (.ok r, s1) =>
      step s = .next
        { s1 with
          trace := s1.trace ++ [.x ((headerBytes s.hdrb).getD s.idx.toNat 0) r]
          phase := if s.idx = 2 then .data else .hdr
          idx := if s.idx = 2 then 0 else s.idx + 1 }
    | (.fail e, s1) => step s = .next (raiseBusError ((headerBytes s.hdrb).getD s.idx.toNat 0) e s1)
    | (.hung, s1) => step s = .next s1
    | (.cut, s1) => step s = .next s1.cut

/-- R150: step DATA exchanges wdata[IDX] in a write and DUMMY in a read, and keeps the response of a read. While the exchange
does not return (log entry 37) nothing else moves; a reset may take its place (log entry 28). -/
def Obligations.StepData : Prop :=
  ∀ s : State, NoReset s → s.phase = .data → s.idx.toNat < s.len.toNat →
    (s.dir = .write → s.wdata.length = s.len.toNat) → (s.dir = .read → s.rdata.length = s.idx.toNat) →
    ∃ t : Byte, t = (match s.dir with | .write => s.wdata.getD s.idx.toNat 0 | .read => Config.std.dummy) ∧
      match xchg t s with
      | (.ok r, s1) =>
        ∃ u, step s = .next u ∧
          u = { s1 with trace := s1.trace ++ [.x t r], idx := s.idx + 1, rdata := u.rdata } ∧
          (s.dir = .write → u.rdata = s.rdata) ∧ (s.dir = .read → u.rdata = s.rdata ++ [r])
      | (.fail e, s1) => step s = .next (raiseBusError t e s1)
      | (.hung, s1) => step s = .next s1
      | (.cut, s1) => step s = .next s1.cut

/-- R151, R247: BusError(e). The failed exchange is on the trace, then the release of bus-select; the engine is idle, RES
holds e unchanged; nothing is saved, and the peer keeps every byte its engine leaves alone. That IDX, DIR, BSB, OFF, LEN
and HDRB keep their values is the model's choice, since U16 gives them any value between frames (log entry 39). -/
def Obligations.StepFail : Prop :=
  ∀ (t : Byte) (e : BusErr) (s : State), ∃ u, u = raiseBusError t e s ∧
    u.trace = s.trace ++ [.xf t e, .selR] ∧ u.sel = .released ∧ u.phase = .idle ∧ u.res = .errBus e ∧
    u.resp = .frame (.errBus e) u.rdata ∧
    u.idx = s.idx ∧ u.dir = s.dir ∧ u.bsb = s.bsb ∧ u.off = s.off ∧ u.len = s.len ∧ u.hdrb = s.hdrb ∧
    u.wdata = s.wdata ∧ SameOutside s u ∧ u.peer = s.peer ∧
    ∀ a, a ∉ pokedKeys s.env → Memory.get u.pm a = Memory.get s.pm a

/-- R152: step END releases bus-select; the engine is idle with result OK, and nothing else of the unit changes: for IDX, DIR,
BSB, OFF, LEN and HDRB that is the model's choice, since U16 gives them any value between frames (log entry 39). A reset
that the script puts in its place cuts the operation instead (R266, log entry 28). -/
def Obligations.StepEnd : Prop :=
  ∀ s : State, NoReset s → s.phase = .data → s.idx = s.len →
    (firstStop s.env 0 = none → ∃ u, step s = .next u ∧
      u.trace = s.trace ++ [.selR] ∧ u.sel = .released ∧ u.phase = .idle ∧ u.res = .ok ∧
      u.resp = .frame .ok s.rdata ∧ u.rdata = s.rdata ∧
      u.idx = s.idx ∧ u.dir = s.dir ∧ u.bsb = s.bsb ∧ u.off = s.off ∧ u.len = s.len ∧ u.hdrb = s.hdrb ∧
      u.wdata = s.wdata ∧ SameOutside s u ∧
      (∀ a, a ∉ pokedKeys s.env → Memory.get u.pm a = Memory.get s.pm a)) ∧
    (firstStop s.env 0 ≠ none → ∃ env, step s = .next (State.cut (State.withEnv env s.peerMoves)))

/-- R22: the positions of a frame that nothing stops, in order: (HDR,0), (HDR,1), (HDR,2), (DATA,0), ..., (DATA,LEN), IDLE. -/
def Obligations.StepPositions : Prop :=
  ∀ (s : State) (d : Dir) (b : Block) (o n : Half) (wd : List Byte), (d = .write → wd.length = n.toNat) →
    firstStop s.env (3 + n.toNat) = none →
    (∀ k, k < 3 → (fteAfter k (fteStart d b o n wd s)).phase = .hdr ∧
      (fteAfter k (fteStart d b o n wd s)).idx.toNat = k) ∧
    (∀ k, k ≤ n.toNat → (fteAfter (3 + k) (fteStart d b o n wd s)).phase = .data ∧
      (fteAfter (3 + k) (fteStart d b o n wd s)).idx.toNat = k) ∧
    (fteAfter (4 + n.toNat) (fteStart d b o n wd s)).phase = .idle

/-! ### Frame transport engine: whole frames -/

/-- R153: FRAME.WR for every block-select and offset: its trace is assertion, the 3 header bytes and the n data bytes in order,
release; a failure cuts it after the failing exchange. An exchange that does not return leaves the frame open, with no
result, and the engine does not move any more (R252, log entry 37); a reset cuts the frame (R266, log entry 28). -/
def Obligations.WriteFrameTrace : Prop :=
  (∀ x, x.wdata.length = x.n.toNat → decodeCmd 0x11 x = .ok (.frameWr x.b x.o x.n x.wdata)) ∧
  ∀ (s : State) (b : Block) (o n : Half) (wd : List Byte), s.phase = .idle → wd.length = n.toNat →
    ∃ h t rs, Answers (.hdrEnc o b .write) (.header h) ∧ exec (.frameWr b o n wd) s = .next t ∧
      match firstStop s.env (3 + n.toNat) with
      | none =>
        t.phase = .idle ∧ t.sel = .released ∧ rs.length = 3 + n.toNat ∧ t.res = .ok ∧
        t.trace = s.trace ++ [.selA] ++ exchanges ((headerBytes h ++ wd).zip rs) ++ [.selR]
      | some (k, .fail e) =>
        t.phase = .idle ∧ t.sel = .released ∧ rs.length = k ∧ k < 3 + n.toNat ∧ t.res = .errBus e ∧
        t.trace = s.trace ++ [.selA] ++ exchanges (((headerBytes h ++ wd).take k).zip rs) ++
          [.xf ((headerBytes h ++ wd).getD k 0) e, .selR]
      | some (k, .hang) =>
        t.phase ≠ .idle ∧ t.sel = .asserted ∧ rs.length = k ∧ k < 3 + n.toNat ∧ t.res = .none ∧ fteStep t = t ∧
        t.trace = s.trace ++ [.selA] ++ exchanges (((headerBytes h ++ wd).take k).zip rs)
      | some (k, .reset) =>
        t.phase = .idle ∧ t.sel = .released ∧ rs.length = k ∧ k ≤ 3 + n.toNat ∧ t.res = .none ∧ t.resp = .cut ∧
        t.trace = s.trace ++ [.selA] ++ exchanges (((headerBytes h ++ wd).take k).zip rs) ++ [.selR]

/-- R154, R158: FRAME.RD transmits the header and n times DUMMY and returns the n responses; after a failure the receive
buffer still has n bytes, of unspecified value. An exchange that does not return leaves the frame open (R252, log entry
37); a reset cuts it (R266, log entry 28). -/
def Obligations.ReadFrameTrace : Prop :=
  (∀ x, decodeCmd 0x10 x = .ok (.frameRd x.b x.o x.n)) ∧
  ∀ (s : State) (b : Block) (o n : Half), s.phase = .idle →
    ∃ h t rs, ∃ sent : List Byte, Answers (.hdrEnc o b .read) (.header h) ∧ exec (.frameRd b o n) s = .next t ∧
      sent = headerBytes h ++ List.replicate n.toNat Config.std.dummy ∧
      match firstStop s.env (3 + n.toNat) with
      | none =>
        t.phase = .idle ∧ t.sel = .released ∧ rs.length = 3 + n.toNat ∧ t.res = .ok ∧ t.rdata = rs.drop 3 ∧
        t.resp = .frame .ok t.rdata ∧
        t.trace = s.trace ++ [.selA] ++ exchanges (sent.zip rs) ++ [.selR]
      | some (k, .fail e) =>
        t.phase = .idle ∧ t.sel = .released ∧ rs.length = k ∧ k < 3 + n.toNat ∧ t.res = .errBus e ∧
        t.resp = .frame (.errBus e) t.rdata ∧ t.rdata.length = n.toNat ∧
        t.trace = s.trace ++ [.selA] ++ exchanges ((sent.take k).zip rs) ++ [.xf (sent.getD k 0) e, .selR]
      | some (k, .hang) =>
        t.phase ≠ .idle ∧ t.sel = .asserted ∧ rs.length = k ∧ k < 3 + n.toNat ∧ t.res = .none ∧ fteStep t = t ∧
        t.trace = s.trace ++ [.selA] ++ exchanges ((sent.take k).zip rs)
      | some (k, .reset) =>
        t.phase = .idle ∧ t.sel = .released ∧ rs.length = k ∧ k ≤ 3 + n.toNat ∧ t.res = .none ∧ t.resp = .cut ∧
        t.trace = s.trace ++ [.selA] ++ exchanges ((sent.take k).zip rs) ++ [.selR]

/-- R156: a frame without data is legal: assertion, three header exchanges, release; the reference peer does nothing. That it
stays the reference peer is claimed where R64 lets it take the frame (log entry 36). That a write too leaves the receive
buffer empty is the model's choice (log entry 40). -/
def Obligations.EmptyFrame : Prop :=
  ∀ (s : State) (b : Block) (o : Half) (d : Dir), s.phase = .idle → firstStop s.env 3 = none →
    ∃ h t r0 r1 r2, Answers (.hdrEnc o b d) (.header h) ∧ exec (frameOp d b o 0 []) s = .next t ∧
      t.res = .ok ∧ t.rdata = [] ∧
      t.trace = s.trace ++ [.selA, .x h.h0 r0, .x h.h1 r1, .x h.h2 r2, .selR] ∧
      (PeerTakes s b o 0 → ∀ a, a ∉ pokedKeys s.env → Memory.get t.pm a = Memory.get s.pm a)

/-- R54, R63, R157, R248: the reference peer after a write frame, for every script: data byte k that reached it is at offset
o + k, and every other byte its engine leaves alone is as before. The byte of an exchange that fails, never returns (R252,
log entry 37) or is cut by a reset (R266, log entry 28) is among them or not as the script says (log entry 26). -/
def Obligations.WriteFrameMemory : Prop :=
  ∀ (s : State) (b : Block) (o n : Half) (wd : List Byte), s.phase = .idle → wd.length = n.toNat →
    PeerTakes s b o n.toNat →
    ∃ t, exec (.frameWr b o n wd) s = .next t ∧ t.peer = .reference ∧
      ∀ a, a ∉ pokedKeys s.env →
        Memory.get t.pm a =
          if byteKey b o.toNat ≤ a ∧ a < byteKey b o.toNat + (reachedCount s.env (3 + n.toNat) - 3) then
            wd[a - byteKey b o.toNat]?
          else Memory.get s.pm a

/-- R63, R249: a read frame leaves every byte of the reference peer alone that the peer's engine leaves alone, whatever
fails, also when an exchange never returns (log entry 37) or a reset cuts it (R266, log entry 28). -/
def Obligations.ReadFrameMemory : Prop :=
  ∀ (s : State) (b : Block) (o n : Half), s.phase = .idle → PeerTakes s b o n.toNat →
    ∃ t, exec (.frameRd b o n) s = .next t ∧ t.peer = .reference ∧
      ∀ a, a ∉ pokedKeys s.env → Memory.get t.pm a = Memory.get s.pm a

/-- R35, R63, R154: a read frame samples the peer. Byte k of it is what stands at offset o + k when its exchange comes, by
the moves of the peer's engine so far, or the byte an oracle gives; nothing makes the bytes of one read belong together.
On a quiet bus they are the peer's bytes at o, o + 1, ..., the byte of an unwritten location being a free value. -/
def Obligations.ReadFrameBytes : Prop :=
  (∀ (s : State) (b : Block) (o n : Half), s.phase = .idle → firstStop s.env (3 + n.toNat) = none →
    PeerTakes s b o n.toNat →
    ∃ t, exec (.frameRd b o n) s = .next t ∧ t.res = .ok ∧ t.resp = .frame .ok t.rdata ∧
      t.rdata = (List.range n.toNat).map fun k => sampleAt s.env s.pm (3 + k) (byteKey b (o.toNat + k))) ∧
  ∀ (s : State) (b : Block) (o n : Half), s.phase = .idle → Quiet s.env → PeerTakes s b o n.toNat →
    ∃ t, exec (.frameRd b o n) s = .next t ∧ t.res = .ok ∧ t.pm = s.pm ∧ Quiet t.env ∧
      t.resp = .frame .ok t.rdata ∧
      t.rdata = (List.range n.toNat).map fun k => s.peerByte (byteKey b (o.toNat + k))

/-- R35: a read that an oracle answers returns the oracle's bytes, whatever the peer holds and whether or not it still
has a meaning. -/
def Obligations.OracleAnswers : Prop :=
  ∀ (s : State) (b : Block) (o n : Half) (rs : List Byte), s.phase = .idle → rs.length = 3 + n.toNat →
    s.env = rs.map EnvEvent.okWith →
    ∃ t, exec (.frameRd b o n) s = .next t ∧ t.res = .ok ∧ t.rdata = rs.drop 3 ∧ t.env = []

/-- The model's choice (log entry 6) on R64 with R153: a frame that the reference peer gives no meaning to is transmitted
as commanded, and once its whole header has reached the peer nothing is known of the peer any more. A frame without data is
judged so too (log entry 36), and a frame cut short after its header is judged by its commanded count (log entry 7). Whether the header byte of an
exchange that fails, hangs or is cut has reached the peer is the script's (log entries 26, 28, 37). -/
def Obligations.RefusedFrameLosesPeer : Prop :=
  ∀ (s : State) (b : Block) (o n : Half) (wd : List Byte) (d : Dir), s.phase = .idle → wd.length = n.toNat →
    s.peer = .reference → ¬ PeerTakes s b o n.toNat →
    ∃ t, exec (frameOp d b o n wd) s = .next t ∧
      (reachedCount s.env 3 = 3 → t.peer = .lost ∧ t.pm = []) ∧
      (reachedCount s.env 3 < 3 → t.peer = .reference ∧
        ∀ a, a ∉ pokedKeys s.env → Memory.get t.pm a = Memory.get s.pm a)

/-- R21, R66, R146: what FRAME.RD, FRAME.WR, CB.RD and CB.WR have in common when they answer a next state: they started at
IDLE; the host, the bytes on the wire and the peer's sizes are as before; their bus events are whole frames, the last one
open exactly if bus-select is still asserted. They have ended with a result on the port, or a reset has cut them (log
entry 28), or an exchange of theirs does not return and nothing moves any more (log entry 37). -/
def Obligations.BusOperationFrame : Prop :=
  ∀ (i : Instr) (s t : State), drivesBus i = true → i.wellFormed = true → exec i s = .next t →
    s.phase = .idle ∧ SameOutside s t ∧
    (∃ es, t.trace = s.trace ++ es ∧ busAfter .free es = some (selLevel t.sel)) ∧
    ((t.phase = .idle ∧ t.sel = .released ∧ t.res ≠ .none ∧ t.resp = .frame t.res t.rdata) ∨
     (t.phase = .idle ∧ t.sel = .released ∧ t.res = .none ∧ t.resp = .cut) ∨
     (t.phase ≠ .idle ∧ t.sel = .asserted ∧ t.res = .none ∧ fteStep t = t))

/-! ### Buffer transfers -/

/-- R177: CB.WR is one FRAME.WR, or two of them, the second only if the first succeeded (so not after an error, nor while the
first has not ended) and no reset falls between the two (R266, log entry 28), in which case the transfer is cut with
nothing more on the bus; OVERSIZE before any bus activity. -/
def Obligations.BufferWriteIsFrames : Prop :=
  (∀ x, x.wdata.length = x.l.toNat → decodeCmd 0x1E x = .ok (.cbWr x.b x.p x.l x.szlog2 x.wdata)) ∧
  ∀ (s : State) (b : Block) (p l : Half) (sz : BitVec 4) (wd : List Byte), s.phase = .idle → wd.length = l.toNat →
    ∃ c, Answers (.cpSplit p l sz) (.split c) ∧
      (c.fits = false → exec (.cbWr b p l sz wd) s = .refused .oversize) ∧
      (c.fits = true → c.two = false → ∃ t, exec (.frameWr b c.o0 l wd) s = .next t ∧
        exec (.cbWr b p l sz wd) s = .next t) ∧
      (c.fits = true → c.two = true → ∃ t, exec (.frameWr b c.o0 c.l0 (wd.take c.l0.toNat)) s = .next t ∧
        (t.res ≠ .ok → exec (.cbWr b p l sz wd) s = .next t) ∧
        (t.res = .ok → cutsBetween t.env = false → ∃ u, exec (.frameWr b 0 c.l1 (wd.drop c.l0.toNat)) t = .next u ∧
          exec (.cbWr b p l sz wd) s = .next u) ∧
        (t.res = .ok → cutsBetween t.env = true → ∃ v, exec (.cbWr b p l sz wd) s = .next v ∧
          v.trace = t.trace ∧ v.phase = .idle ∧ v.sel = .released ∧ v.res = .none ∧ v.resp = .cut ∧ SameOutside t v ∧
          ∀ a, a ∉ pokedKeys t.env → Memory.get v.pm a = Memory.get t.pm a))

/-- R176: CB.RD is one FRAME.RD, or two of them with their bytes joined in order, the second only if the first succeeded;
after an error it reports that frame's result and its L bytes are unspecified; a frame without a result leaves the
transfer without one, the receive buffer then being the second frame's (log entry 38), and so does a reset between the two
frames (R266, log entry 28); OVERSIZE before any bus activity. -/
def Obligations.BufferReadIsFrames : Prop :=
  (∀ x, decodeCmd 0x1D x = .ok (.cbRd x.b x.p x.l x.szlog2)) ∧
  ∀ (s : State) (b : Block) (p l : Half) (sz : BitVec 4), s.phase = .idle →
    ∃ c, Answers (.cpSplit p l sz) (.split c) ∧
      (c.fits = false → exec (.cbRd b p l sz) s = .refused .oversize) ∧
      (c.fits = true → c.two = false → ∃ t, exec (.frameRd b c.o0 l) s = .next t ∧ exec (.cbRd b p l sz) s = .next t) ∧
      (c.fits = true → c.two = true → ∃ t v, exec (.frameRd b c.o0 c.l0) s = .next t ∧
        exec (.cbRd b p l sz) s = .next v ∧
        (t.res = .none → v = t) ∧
        (∀ e, t.res = .errBus e → v = { t with rdata := v.rdata, resp := .frame (.errBus e) v.rdata, draws := v.draws } ∧
          v.rdata.length = l.toNat) ∧
        (t.res = .ok → cutsBetween t.env = true →
          v.trace = t.trace ∧ v.phase = .idle ∧ v.sel = .released ∧ v.res = .none ∧ v.resp = .cut ∧ SameOutside t v ∧
          ∀ a, a ∉ pokedKeys t.env → Memory.get v.pm a = Memory.get t.pm a) ∧
        (t.res = .ok → cutsBetween t.env = false → ∃ u, exec (.frameRd b 0 c.l1) t = .next u ∧
          (u.res = .ok → v = { u with rdata := t.rdata ++ u.rdata, resp := .frame .ok (t.rdata ++ u.rdata) }) ∧
          (u.res = .none → v = u) ∧
          (∀ e, u.res = .errBus e →
            v = { u with rdata := v.rdata, resp := .frame (.errBus e) v.rdata, draws := v.draws } ∧
            v.rdata.length = l.toNat)))

/-- R179: with L > S the splitter still answers its formula, with `fits` = 0, and both transfers are refused. -/
def Obligations.OversizeRefused : Prop :=
  ∀ (b : Block) (p l : Half) (sz : BitVec 4) (wd : List Byte), 2 ^ sz.toNat < l.toNat →
    (∃ c, Answers (.cpSplit p l sz) (.split c) ∧ c.fits = false ∧ (c.two = true → c.o0.toNat < c.l1.toNat)) ∧
    ∀ s : State, s.phase = .idle →
      exec (.cbRd b p l sz) s = .refused .oversize ∧ exec (.cbWr b p l sz wd) s = .refused .oversize

/-- R178 (d) with R177: on a quiet bus, byte j of the data is afterwards at (p + j) mod S of the block, and every other byte
of the peer is as before. -/
def Obligations.BufferWriteMemory : Prop :=
  ∀ (s : State) (b : Block) (p l : Half) (sz : BitVec 4) (wd : List Byte), s.phase = .idle → Quiet s.env →
    wd.length = l.toNat → l.toNat ≤ 2 ^ sz.toNat → PeerTakes s b 0 (2 ^ sz.toNat) →
    ∃ t, exec (.cbWr b p l sz wd) s = .next t ∧ t.res = .ok ∧ t.peer = .reference ∧ Quiet t.env ∧
      (∀ j, j < l.toNat → Memory.get t.pm (byteKey b ((p.toNat + j) % 2 ^ sz.toNat)) = wd[j]?) ∧
      (∀ a, (∀ j, j < l.toNat → a ≠ byteKey b ((p.toNat + j) % 2 ^ sz.toNat)) →
        Memory.get t.pm a = Memory.get s.pm a)

/-- R178 (e): on the reference peer, a buffer write followed by a buffer read of the same place gives the data back, for
every pointer, every length up to S and every S. -/
def Obligations.BufferReadBack : Prop :=
  ∀ (s : State) (b : Block) (p l : Half) (sz : BitVec 4) (wd : List Byte), s.phase = .idle → Quiet s.env →
    wd.length = l.toNat → l.toNat ≤ 2 ^ sz.toNat → PeerTakes s b 0 (2 ^ sz.toNat) →
    ∃ t u, exec (.cbWr b p l sz wd) s = .next t ∧ exec (.cbRd b p l sz) t = .next u ∧
      t.res = .ok ∧ u.res = .ok ∧ u.rdata = wd ∧ u.pm = t.pm

/-! ### The decoder side -/

/-- R159: the three ways FRAME.PARSE answers. -/
def Obligations.ParseCases : Prop :=
  (∀ x, decodeCmd 0x12 x = .ok (.frameParse x.t)) ∧
  (∀ t : List (Byte × Byte), t.length < 3 → Answers (.frameParse t) .noFrame) ∧
  ∀ (x0 x1 x2 : Byte × Byte) (xs : List (Byte × Byte)), ∃ f,
    Answers (.hdrDec { h0 := x0.1, h1 := x1.1, h2 := x2.1 }) (.headerFields f) ∧
    (f.om ≠ Config.std.omVdm → ∀ s : State, s.phase = .idle →
      exec (.frameParse (x0 :: x1 :: x2 :: xs)) s = .refused .badMode) ∧
    (f.om = Config.std.omVdm → ∃ region i assigned, Answers (.bsbDec f.bsb) (.blockFields region i assigned) ∧
      Answers (.frameParse (x0 :: x1 :: x2 :: xs))
        (.parsed f.dir f.bsb f.off (match f.dir with | .write => xs.map Prod.fst | .read => xs.map Prod.snd)
          region i assigned (wireClass f.bsb f.dir f.om)))

/-- R160: parsing the trace of a frame that succeeded gives back its direction, block, offset and data; and re-issuing a
parsed command transmits the captured header, and in a write the captured data. -/
def Obligations.ParseRoundTrip : Prop :=
  (∀ (s : State) (b : Block) (o n : Half) (wd : List Byte) (d : Dir), s.phase = .idle → wd.length = n.toNat →
    firstStop s.env (3 + n.toNat) = none →
    ∃ t xs region i assigned cls, exec (frameOp d b o n wd) s = .next t ∧
      t.trace = s.trace ++ [.selA] ++ exchanges xs ++ [.selR] ∧
      Answers (.frameParse xs)
        (.parsed d b o (match d with | .write => wd | .read => t.rdata) region i assigned cls)) ∧
  (∀ (xs : List (Byte × Byte)) (d : Dir) (b : Block) (o : Half) (data : List Byte) (region : Region) (i : Sock)
    (assigned : Bool) (cls : WireClass), Answers (.frameParse xs) (.parsed d b o data region i assigned cls) →
    ∃ h, Answers (.hdrEnc o b d) (.header h) ∧ (xs.take 3).map Prod.fst = headerBytes h ∧
      (d = .write → (xs.drop 3).map Prod.fst = data))

/-! ### The reference peer's side of a frame -/

/-- R161, R163, R165, R167 with R35: a read class answers data exchange k with the byte that stands at PM[b][o + k] when that
exchange comes (or with an oracle's), up to the first exchange that does not succeed; nothing is written. That its
exchanges have the script's outcomes is the model's (log entry 21). -/
def Obligations.WireReads : Prop :=
  ∀ (r : Region) (i : Sock) (off : Half), (r = .common → i = 0) →
    (∀ rest, decodeRest (.wire (headerBytes (hdrEnc Config.std off (blockOf i r) .read) ++ rest)) =
      .ok (wireOp r .read i off, rest)) ∧
    ∀ s : State, s.phase = .idle → PeerTakes s (blockOf i r) off s.wire.length →
      ∃ t data, exec (wireOp r .read i off) s = .next t ∧
        t = { s with wire := [], resp := .peerRead data, pm := t.pm, env := t.env } ∧
        data.length = succeeding s.env s.wire.length ∧
        (∀ k, k < data.length →
          data[k]? = some (sampleAt s.env s.pm k (byteKey (blockOf i r) (off.toNat + k)))) ∧
        ∀ a, a ∉ pokedKeys s.env → Memory.get t.pm a = Memory.get s.pm a

/-- R162, R164, R166, R168: a write class stores the byte of data exchange k at PM[b][o + k], for every byte that reaches the
peer, and nothing else; its engine may change other bytes meanwhile (R68). That its exchanges have the script's outcomes,
and whether the byte of one that fails, hangs or is cut arrives, is the model's (log entries 21, 26). -/
def Obligations.WireWrites : Prop :=
  ∀ (r : Region) (i : Sock) (off : Half), (r = .common → i = 0) →
    (∀ rest, decodeRest (.wire (headerBytes (hdrEnc Config.std off (blockOf i r) .write) ++ rest)) =
      .ok (wireOp r .write i off, rest)) ∧
    ∀ s : State, s.phase = .idle → PeerTakes s (blockOf i r) off s.wire.length →
      ∃ t, exec (wireOp r .write i off) s = .next t ∧
        t = { s with wire := [], resp := .peerWrote, pm := t.pm, env := t.env, draws := t.draws } ∧
        ∀ a, a ∉ pokedKeys s.env → Memory.get t.pm a =
          if byteKey (blockOf i r) off.toNat ≤ a ∧
              a < byteKey (blockOf i r) off.toNat + reachedCount s.env s.wire.length then
            s.wire[a - byteKey (blockOf i r) off.toNat]?
          else Memory.get s.pm a

/-- R64, R169: the reference peer refuses the four reserved classes, a frame past offset 65535, and a frame past the end of
a buffer. That a wire class is judged by all the bytes on the wire, also where the script cuts it short before it passes
the end, is the model's choice (log entry 7): the two past-the-end clauses hold for every script. -/
def Obligations.WireRefusals : Prop :=
  ∀ s : State, s.phase = .idle →
    (∀ sock d off, exec (.wRsvBsb sock d off) s = .refused .peerUnassignedBlock) ∧
    (∀ b d off, exec (.wRsvOm1 b d off) s = .refused .peerLengthMode) ∧
    (∀ b d off, exec (.wRsvOm2 b d off) s = .refused .peerLengthMode) ∧
    (∀ b d off, exec (.wRsvOm3 b d off) s = .refused .peerLengthMode) ∧
    ∀ (r : Region) (d : Dir) (i : Sock) (off : Half), (r = .common → i = 0) →
      (65536 < off.toNat + s.wire.length → exec (wireOp r d i off) s = .refused .peerPastBlock) ∧
      (off.toNat + s.wire.length ≤ 65536 → blockLimit s (blockOf i r) < off.toNat + s.wire.length →
        exec (wireOp r d i off) s = .refused .peerPastBuffer)

/-- The model's choice (log entry 6): of a lost peer no byte becomes known. Each data exchange that reaches it draws one free
byte (log entry 3); the response to data exchange k of a read is the byte an oracle gives (R35), or else the free byte
drawn there, whatever its value. -/
def Obligations.WireOnLostPeer : Prop :=
  ∀ (s : State) (r : Region) (i : Sock) (off : Half), (r = .common → i = 0) → s.phase = .idle → s.peer = .lost →
    off.toNat + s.wire.length ≤ blockLimit s (blockOf i r) →
    (∃ t, exec (wireOp r .write i off) s = .next t ∧
      t = { s with wire := [], resp := .peerWrote, env := t.env, draws := s.draws + reachedCount s.env s.wire.length }) ∧
    ∃ t data, exec (wireOp r .read i off) s = .next t ∧ data.length = succeeding s.env s.wire.length ∧
      t = { s with
        wire := [], resp := .peerRead data, env := t.env, draws := s.draws + reachedCount s.env s.wire.length } ∧
      ∀ k, k < data.length → data[k]? = some ((oracleByte s.env k).getD (Config.freeByte (s.draws + k)))

/-- R63, R81: the two sides of a frame agree. On a quiet bus a frame of the unit leaves the peer as the class of its own
header leaves it, and a read returns the bytes the class answers. -/
def Obligations.WireAgreesWithFrames : Prop :=
  ∀ (s : State) (b : Block) (o n : Half) (wd : List Byte) (d : Dir), s.phase = .idle → Quiet s.env →
    wd.length = n.toNat → PeerTakes s b o n.toNat →
    ∃ h i t u, Answers (.hdrEnc o b d) (.header h) ∧ decodeRest (.wire (headerBytes h ++ wd)) = .ok (i, wd) ∧
      exec (frameOp d b o n wd) s = .next t ∧ exec i (s.onWire wd) = .next u ∧ t.pm = u.pm ∧
      (d = .read → u.resp = .peerRead t.rdata) ∧ (d = .write → u.resp = .peerWrote)

/-! ### Whole-machine rules -/

/-- R25: an operation of the AGU, the HCU, FRAME.PARSE or the combinational CBU has one answer, the same in every state at
IDLE, and changes nothing but the port; or it is refused in every such state with a reason of R243. -/
def Obligations.CombinationalHaveNoState : Prop :=
  ∀ i : Instr, isArithmetic i = true →
    (∃ r, Answers i r) ∨ (∃ r, returnedToHost r = true ∧ ∀ s : State, s.phase = .idle → exec i s = .refused r)

/-- The model's choice (log entry 10) on R146 and R66: inside an open frame no operation of the port and no other frame
runs. -/
def Obligations.BusyStops : Prop :=
  ∀ (i : Instr) (s : State), s.phase ≠ .idle →
    exec i s = .fault (if isArithmetic i || drivesBus i then .commandWhileBusy else .frameInterleaved)

/-- The machine's step runs the decoded operation: its response goes to the host, unless an exchange of it does not return
(log entry 37); a refusal of the unit's own goes to the host in place of a result with nothing else changed; another
refusal, or a fault, is the step's. Fewer than three bytes on the bus are no frame, and nothing happens but that the host
learns it (R96, log entry 32); write data that is not as long as its count is refused (log entry 24). The form of the
host's program is the model's (log entries 8, 11, 23). -/
def Obligations.StepRunsDecoded : Prop :=
  (∀ (s : State) (p : Packet) (rest : List HostItem) (i : Instr) (bytes : List Byte), HostFree s →
    s.program = .op p :: rest → decodeRest p = .ok (i, bytes) →
    match exec i { s.due with program := rest, wire := bytes } with
    | .next t => step s = .next (if t.phase = .idle then { t with results := t.results ++ [.op t.resp] } else t)
    | .refused r =>
      step s =
        if returnedToHost r then
          .next { s.due with program := rest, resp := .refused r, results := s.results ++ [.op (.refused r)] }
        else .refused r
    | .fault f => step s = .fault f) ∧
  (∀ (s : State) (bytes : List Byte) (rest : List HostItem), HostFree s → s.program = .op (.wire bytes) :: rest →
    bytes.length < 3 →
    step s = .next { s.due with program := rest, resp := .noFrame, results := s.results ++ [.op .noFrame] }) ∧
  (∀ (s : State) (x : Operands) (rest : List HostItem), HostFree s →
    (s.program = .op (.cmd 0x11 x) :: rest ∧ x.wdata.length ≠ x.n.toNat ∨
      s.program = .op (.cmd 0x1E x) :: rest ∧ x.wdata.length ≠ x.l.toNat) →
    step s = .refused .operandLength)

/-- R17, R261: who moves. Inside a frame it is the engine. Between operations the bus goes, for one move, to whose turn it
is: the host's program, or a sequence in progress on a socket, and the one that had the bus waits; with no turn set it
stays where it is. A call begins its sequence, unless one on the same socket is still waiting, which then goes on first
(U32); at the end of the program the waiting sequences go on; with nothing left to do only the peer's engine moves. The
form of the host's program and of the turns is the model's (log entries 11, 23, 25). -/
def Obligations.StepOtherwise : Prop :=
  (∀ s : State, NoReset s → s.phase ≠ .idle → step s = .next (fteStep s)) ∧
  (∀ s : State, NoReset s → s.phase = .idle →
    step s = (match s.due.task with | some k => taskMove k s.due | none => hostMove s.due)) ∧
  (∀ s : State, s.turns = [] → s.due = s) ∧
  (∀ (s : State) (turns : List Turn), s.turns = .program :: turns →
    s.due = { s with turns := turns, task := none, parked := s.parked ++ s.task.toList }) ∧
  (∀ (s : State) (turns : List Turn) (i : Sock), s.turns = .user i :: turns →
    (∀ k, s.parked.find? (fun q => q.sock == i) = some k →
      s.due = { s with
        turns := turns, task := some k, parked := s.parked.filter (fun q => q.sock != i) ++ s.task.toList }) ∧
    ((∀ k ∈ s.parked, k.sock ≠ i) → s.due = { s with turns := turns })) ∧
  (∀ (s : State) (c : Call) (rest : List HostItem), HostFree s → s.program = .call c :: rest →
    ((∀ k ∈ s.due.parked, k.sock ≠ c.sock) →
      step s = .next { s.due with program := rest, task := some (callStart c) }) ∧
    (∀ k, s.due.parked.find? (fun q => q.sock == c.sock) = some k →
      step s = .next { s.due with task := some k, parked := s.due.parked.filter (fun q => q.sock != c.sock) })) ∧
  (∀ (s : State) (k : HostTask) (ks : List HostTask), HostFree s → s.program = [] → s.due.parked = k :: ks →
    step s = .next { s.due with task := some k, parked := ks.filter (fun q => q.sock != k.sock) }) ∧
  (∀ s : State, HostFree s → s.program = [] → s.due.parked = [] → step s = .next s.due.peerMoves)

/-- R243: a refused operation does nothing: no bus event, no register, RES as it was; the reason is returned in place of a
result. That the host goes on then is the model's (log entry 8), and the length mode of a captured header is bits 1:0 of
its third byte, variable length 0b00, by the PRESUMED positions of log entry 12. -/
def Obligations.RefusalsChangeNothing : Prop :=
  (refusalCode .badOp = some 3 ∧ refusalCode .oversize = some 4 ∧ refusalCode .badMode = some 5) ∧
  ∀ (s : State) (p : Packet) (rest : List HostItem) (r : Refusal), HostFree s →
    s.program = .op p :: rest → refusedWith p = some r →
    step s = .next { s.due with program := rest, resp := .refused r, results := s.results ++ [.op (.refused r)] }

/-- R30, R265: out of reset the unit is idle with bus-select released and no result, and nothing runs until the host
starts an operation. That a resting host is a step that changes nothing is the model's form (log entry 11). -/
def Obligations.ResetState : Prop :=
  State.reset.phase = .idle ∧ State.reset.sel = .released ∧ State.reset.res = .none ∧
  step State.reset = .next State.reset

/-- The state after reset meets the invariant, its trace is bracketed, and nothing is left to do. -/
def Obligations.ResetInvariant : Prop := State.reset.Inv ∧ State.reset.Bracketed ∧ State.reset.ended

/-- R21, R22: every step keeps the invariant: SEL is asserted exactly while a frame is open, IDX is inside its phase, HDRB
encodes the latched command, the peer's memory is canonical, and no two sequences in progress drive one socket (R261). Its
clause on the receive buffer, whose length is IDX in a read, rests on the buffer being empty at START (log entry 40). -/
def Obligations.StepKeepsInvariant : Prop :=
  ∀ s t : State, s.Inv → step s = .next t → t.Inv

/-- R21, R66: every step keeps the whole bus trace a sequence of frames, each bracketed by assertion and release, with
nothing but the release after a failed exchange. -/
def Obligations.StepKeepsBracketed : Prop :=
  ∀ s t : State, s.Inv → s.Bracketed → step s = .next t → t.Bracketed

/-- R146: the machine never presents an operation inside an open frame: no step faults, from any state. -/
def Obligations.StepNeverFaults : Prop :=
  ∀ (s : State) (f : Fault), step s ≠ .fault f

/-- R89, R90, R92: decoding the encoding of a well-formed operation gives it back, with every operand at every value. -/
def Obligations.DecodeEncode : Prop :=
  ∀ i : Instr, i.wellFormed = true → decode (encode i) = .ok i

/-- R81, R92: every header of three bytes is exactly one class with its fields, and encoding that gives the three bytes
back; and whatever decodes is well formed. -/
def Obligations.WireWordsDecode : Prop :=
  (∀ h : Header, ∃ i, decode (.wire (headerBytes h)) = .ok i ∧ encode i = .wire (headerBytes h)) ∧
  ∀ (p : Packet) (i : Instr) (bytes : List Byte), decodeRest p = .ok (i, bytes) → i.wellFormed = true

/-- Words written out from the spec's examples (R134, R153, R159, R161 to R168) decode to the operation they stand for;
the low three bits of a control byte are the defaults (log entry 12). -/
def Obligations.SpecWordsDecode : Prop :=
  decodeTableWord 8 0x10 = some (.frameRd 0 0 0) ∧ decodeTableWord 8 0x1C = some (.cpSplit 0 0 0) ∧
  decodeTableWord 8 0x07 = none ∧ decodeTableWord 24 0x000000 = some (.wRdCommon 0) ∧
  decodeTableWord 24 0x00010C = some (.wWrSreg 0 1) ∧ decodeTableWord 24 0x002648 = some (.wRdSreg 2 0x26) ∧
  decodeTableWord 24 0x07FA34 = some (.wWrStx 1 0x7FA) ∧ decodeTableWord 24 0x07FC58 = some (.wRdSrx 2 0x7FC) ∧
  decodeTableWord 24 0x00001C = some (.wWrSrx 0 0) ∧ decodeTableWord 24 0x000020 = some (.wRsvBsb 1 .read 0) ∧
  decodeTableWord 24 0xFFFFFF = some (.wRsvOm3 31 .write 0xFFFF)

/-- R266: a reset of the unit at any moment: its registers are as after reset, a frame in progress is cut short by the
release of bus-select, no frame is sent, and the peer keeps what it holds. That it is an item of the program taking
effect at the next step, or an event of the script that cuts an operation, and that the host's position, results and
script are kept or an operation in progress ends without a result, is the model's DESIGN CHOICE (log entry 28). -/
def Obligations.UnitReset : Prop :=
  (∀ (s : State) (rest : List HostItem), s.program = .reset :: rest → ∃ t, step s = .next t ∧
    t.phase = .idle ∧ t.sel = .released ∧ t.res = .none ∧
    t.trace = s.trace ++ (if s.sel = .asserted then [.selR] else []) ∧
    t.pm = s.pm ∧ t.peer = s.peer ∧ t.txLog2 = s.txLog2 ∧ t.rxLog2 = s.rxLog2 ∧
    t.program = rest ∧ t.parked = s.parked ∧ t.turns = s.turns ∧
    (s.phase = .idle → t.env = s.env ∧ t.task = s.task ∧ t.results = s.results) ∧
    (s.phase ≠ .idle → t.env = dropHang s.env ∧ t.task = none ∧ t.resp = .cut ∧
      t.results = s.results ++ [if s.task = none then .op .cut else .cut])) ∧
  (∀ s : State, ∃ t, t = s.cut ∧ t.phase = .idle ∧ t.sel = .released ∧ t.res = .none ∧ t.resp = .cut ∧
    t.trace = s.trace ++ (if s.sel = .asserted then [.selR] else []) ∧
    t.pm = s.pm ∧ t.peer = s.peer ∧ t.env = s.env ∧ SameOutside s t)

/-! ### Host sequences -/

/-- R197, R198, R200 to R206, and the frame of R199: the one frame of each socket operation; and the operation issued at each
position of get_receive_size, udp_send and udp_receive (R207, R221, R225), the checked length of a payload included (R179,
log entry 27). The register widths (log entry 13), the order of bytes in a register (log entry 20) and that
reset_interrupt writes the flag's own mask (log entry 29) are PRESUMED. -/
def Obligations.SocketCallFrames : Prop :=
  (∀ i : Sock, ∃ b, Answers (.bsbSreg i) (.block b) ∧
    (∀ tag, socketIssue Config.std (.setMode i tag) = .frameWr b (Config.std.roff .mode) 1 [tag]) ∧
    (∀ f, socketIssue Config.std (.resetInterrupt i f) = .frameWr b (Config.std.roff .interrupt) 1 [f]) ∧
    (∀ f, socketIssue Config.std (.hasInterrupt i f) = .frameRd b (Config.std.roff .interrupt) 1) ∧
    (∀ v, socketIssue Config.std (.setSourcePort i v) = .frameWr b (Config.std.roff .sourcePort) 2 (bytesBe16 v)) ∧
    (∀ a, socketIssue Config.std (.setDestinationAddress i a) =
      .frameWr b (Config.std.roff .destAddress) 4 [a.a0, a.a1, a.a2, a.a3]) ∧
    (∀ v, socketIssue Config.std (.setDestinationPort i v) = .frameWr b (Config.std.roff .destPort) 2 (bytesBe16 v)) ∧
    socketIssue Config.std (.getTxReadPointer i) = .frameRd b (Config.std.roff .txReadPointer) 2 ∧
    socketIssue Config.std (.getTxWritePointer i) = .frameRd b (Config.std.roff .txWritePointer) 2 ∧
    socketIssue Config.std (.getRxReadPointer i) = .frameRd b (Config.std.roff .rxReadPointer) 2 ∧
    (∀ p, socketIssue Config.std (.setTxReadPointer i p) = .frameWr b (Config.std.roff .txReadPointer) 2 (bytesBe16 p)) ∧
    (∀ p, socketIssue Config.std (.setTxWritePointer i p) =
      .frameWr b (Config.std.roff .txWritePointer) 2 (bytesBe16 p)) ∧
    (∀ p, socketIssue Config.std (.setRxReadPointer i p) = .frameWr b (Config.std.roff .rxReadPointer) 2 (bytesBe16 p)) ∧
    (∀ m, socketIssue Config.std (.setInterruptMask i m) = .frameWr b (Config.std.roff .interruptMask) 1 [m]) ∧
    (∀ tag, socketIssue Config.std (.issueCommand i tag) =
      .frameWr b (Config.std.roff .command) 1 [Config.std.cmd tag])) ∧
  (∀ c, taskIssue Config.std (.socket c) = .ok (socketIssue Config.std c)) ∧
  (∀ u : SizeUser, ∃ b, Answers (.bsbSreg u.sock) (.block b) ∧
    taskIssue Config.std (.sizeFirst u) = .ok (.frameRd b (Config.std.roff .receivedSize) 2) ∧
    ∀ s0, taskIssue Config.std (.sizeSecond u s0) = .ok (.frameRd b (Config.std.roff .receivedSize) 2)) ∧
  (∀ (j : SendJob) (p : Half) (left : Nat), ∃ b, Answers (.bsbStx j.sock) (.block b) ∧
    taskIssue Config.std (.sendPointer j) = .ok (socketIssue Config.std (.getTxWritePointer j.sock)) ∧
    taskIssue Config.std (.sendAddress j p) = .ok (socketIssue Config.std (.setDestinationAddress j.sock j.addr)) ∧
    taskIssue Config.std (.sendPort j p) = .ok (socketIssue Config.std (.setDestinationPort j.sock j.port)) ∧
    taskIssue Config.std (.sendPayload j p) =
      (if j.payload.length < 65536 then
        .ok (.cbWr b p (BitVec.ofNat 16 j.payload.length) j.szlog2 j.payload)
      else .error .oversize) ∧
    taskIssue Config.std (.sendAdvance j p) =
      .ok (socketIssue Config.std (.setTxWritePointer j.sock (p + BitVec.ofNat 16 j.payload.length))) ∧
    taskIssue Config.std (.sendCommand j) = .ok (socketIssue Config.std (.issueCommand j.sock .send)) ∧
    taskIssue Config.std (.sendPoll j left) =
      .ok (socketIssue Config.std (.hasInterrupt j.sock Config.std.irqSendDone)) ∧
    taskIssue Config.std (.sendClear j) =
      .ok (socketIssue Config.std (.resetInterrupt j.sock Config.std.irqSendDone))) ∧
  (∀ (j : RecvJob) (p : Half) (h : InlineHeader) (data : List Byte), ∃ b, Answers (.bsbSrx j.sock) (.block b) ∧
    taskIssue Config.std (.recvPointer j) = .ok (socketIssue Config.std (.getRxReadPointer j.sock)) ∧
    taskIssue Config.std (.recvHeader j p) = .ok (.cbRd b p 8 j.szlog2) ∧
    taskIssue Config.std (.recvPayload j p h) =
      .ok (.cbRd b (p + 8) (BitVec.ofNat 16 (min j.capacity h.declared.toNat)) j.szlog2) ∧
    taskIssue Config.std (.recvAdvance j p h data) =
      .ok (socketIssue Config.std (.setRxReadPointer j.sock (p + (8 + h.declared)))) ∧
    taskIssue Config.std (.recvAck j h data) = .ok (socketIssue Config.std (.issueCommand j.sock .receiveAck)))

/-- R199, R203, R207, R208, R221, R225, R246, R261: at any position `k` of a host sequence that has the bus, the step runs the
operation `i` issued there. A refusal or a bus error is handed up unchanged and ends the sequence (log entry 8), a reset
of the unit ends it (log entry 28), an exchange that does not return leaves it where it stands (log entry 37). After
success it goes on to the position, or ends with the result, that the rules name: has_interrupt returns (v AND flag) != 0
(the PRESUMED test of log entry 29), a pointer is h*256 + l (the PRESUMED byte order of log entry 20), a pair of equal
samples of at least 8 ends the loop (the gate as C2 resolves it, log entry 19), the polls are counted, and a bound of 0,
which R8 excludes, times out without a poll (log entry 34). Whatever happens, no byte of another socket's blocks is
touched but by the peer's own engine, as long as the peer has a meaning. One operation a step is the model's form (log
entry 25). -/
def Obligations.SequenceStep : Prop :=
  ∀ (s : State) (k : HostTask) (i : Instr), HasBus s k → taskIssue Config.std k = .ok i →
    (∀ r, exec i s.due = .refused r → returnedToHost r = true →
      step s = .next { s.due with task := none, results := s.results ++ [.refused r] }) ∧
    ∀ t, exec i s.due = .next t →
      (t.peer = .reference → ∀ (b : Block) (o : Half), blockSock b ≠ k.sock ∨ blockRegion b = .common →
        byteKey b o.toNat ∉ pokedKeys s.env →
        Memory.get t.pm (byteKey b o.toNat) = Memory.get s.pm (byteKey b o.toNat)) ∧
      (t.phase ≠ .idle → step s = .next t) ∧
      (t.phase = .idle → t.res = .none →
        step s = .next { t with task := none, results := t.results ++ [.cut] }) ∧
      (∀ e, t.res = .errBus e → step s = .next { t with task := none, results := t.results ++ [.busError e] }) ∧
      (t.res = .ok →
        let at' := fun n => t.rdata.getD n 0
        let word := fun n => (at' n).toNat * 256 + (at' (n + 1)).toNat
        let go := fun k' => step s = .next { t with task := some k' }
        let finish := fun r => step s = .next { t with task := none, results := t.results ++ [r] }
        match k with
        | .socket (.hasInterrupt _ flag) => finish (.flag (decide ((at' 0 &&& flag) ≠ 0)))
        | .socket (.getTxReadPointer _) => ∃ p : Half, p.toNat = word 0 ∧ finish (.pointer p)
        | .socket (.getTxWritePointer _) => ∃ p : Half, p.toNat = word 0 ∧ finish (.pointer p)
        | .socket (.getRxReadPointer _) => ∃ p : Half, p.toNat = word 0 ∧ finish (.pointer p)
        | .socket _ => finish .done
        | .sizeFirst u => ∃ n : Half, n.toNat = word 0 ∧ go (.sizeSecond u n)
        | .sizeSecond u s0 =>
          if s0.toNat = word 0 ∧ 8 ≤ s0.toNat then
            match u with
            | .get _ => finish (.size s0)
            | .recv j => go (.recvPointer j)
          else go (.sizeFirst u)
        | .sendPointer j => ∃ p : Half, p.toNat = word 0 ∧ go (.sendAddress j p)
        | .sendAddress j p => go (.sendPort j p)
        | .sendPort j p => go (.sendPayload j p)
        | .sendPayload j p => go (.sendAdvance j p)
        | .sendAdvance j _ => go (.sendCommand j)
        | .sendCommand j => if j.retryMax = 0 then finish .sendTimeout else go (.sendPoll j j.retryMax)
        | .sendPoll j left =>
          if (at' 0 &&& Config.std.irqSendDone) ≠ 0 then go (.sendClear j)
          else if left ≤ 1 then finish .sendTimeout
          else go (.sendPoll j (left - 1))
        | .sendClear _ => finish .sent
        | .recvPointer j => ∃ p : Half, p.toNat = word 0 ∧ go (.recvHeader j p)
        | .recvHeader j p => ∃ h : InlineHeader, addrBytes h.src = [at' 0, at' 1, at' 2, at' 3] ∧
            h.port.toNat = word 4 ∧ h.declared.toNat = word 6 ∧ go (.recvPayload j p h)
        | .recvPayload j p h => go (.recvAdvance j p h t.rdata)
        | .recvAdvance j _ h data => go (.recvAck j h data)
        | .recvAck j h data => finish (.received h.src h.port (min j.capacity h.declared.toNat) data))

/-- R222, R242: on a quiet bus, with the reference peer and the send-completion flag not set there, udp_send from its send
command on writes the command, polls exactly SEND_RETRY_MAX times, each poll one frame, and ends with SendTimeout; and a
poll with n reads left ends so after exactly n. The flag test is the model's PRESUMED one (log entry 29). -/
def Obligations.SendPollTimesOut : Prop :=
  (∀ (s : State) (j : SendJob), 0 < j.retryMax → HasBus s (.sendCommand j) → s.turns = [] →
    s.peer = .reference → Quiet s.env →
    (s.peerByte (byteKey (blockOf j.sock .sreg) (Config.std.roff .interrupt).toNat) &&& Config.std.irqSendDone) = 0 →
    (∀ k, k < j.retryMax → ∃ u, s.after (k + 1) = some u ∧ u.task = some (.sendPoll j (j.retryMax - k)) ∧
      u.results = s.results) ∧
    ∃ t, s.after (j.retryMax + 1) = some t ∧ t.task = none ∧ t.results = s.results ++ [.sendTimeout] ∧
      t.trace.count .selA = s.trace.count .selA + (j.retryMax + 1) ∧
      t.sockReg j.sock .command = [Config.std.cmd .send] ∧
      ∀ a, a ≠ byteKey (blockOf j.sock .sreg) (Config.std.roff .command).toNat →
        Memory.get t.pm a = Memory.get s.pm a) ∧
  ∀ (n : Nat) (s : State) (j : SendJob), 0 < n → HasBus s (.sendPoll j n) → s.turns = [] →
    s.peer = .reference → Quiet s.env →
    (s.peerByte (byteKey (blockOf j.sock .sreg) (Config.std.roff .interrupt).toNat) &&& Config.std.irqSendDone) = 0 →
    (∀ k, k < n → ∃ u, s.after k = some u ∧ u.task = some (.sendPoll j (n - k)) ∧ u.results = s.results) ∧
    ∃ t, s.after n = some t ∧ t.task = none ∧ t.results = s.results ++ [.sendTimeout] ∧ t.pm = s.pm ∧
      t.trace.count .selA = s.trace.count .selA + n

/-- R207: the stabilization loop, run by get_receive_size itself or inside udp_receive, takes a pair of reads as its result
only if both samples are equal and at least 8; any other pair starts a fresh pair; a bus error ends it. The result ends
get_receive_size, and takes udp_receive on to its step 2. A read that a reset cuts ends the sequence (log entry 28), one
that does not return leaves it waiting (log entry 37). -/
def Obligations.ReceiveSizeStable : Prop :=
  ∀ (s : State) (u : SizeUser) (k : HostTask), HasBus s k → (k = .sizeFirst u ∨ ∃ s0, k = .sizeSecond u s0) →
    ∃ t, step s = .next t ∧
      ((∃ e, t.res = .errBus e ∧ t.task = none ∧ t.results = s.results ++ [.busError e]) ∨
       (t.res = .none ∧ t.phase = .idle ∧ t.task = none ∧ t.results = s.results ++ [.cut]) ∨
       (t.res = .none ∧ t.phase ≠ .idle ∧ t.task = some k ∧ t.results = s.results ∧ step t = .next t) ∨
       (t.res = .ok ∧ ∃ h l, t.rdata = [h, l] ∧
         match k with
         | .sizeSecond _ s0 =>
           if s0 = be16 h l ∧ 8 ≤ s0.toNat then
             match u with
             | .get _ => t.task = none ∧ t.results = s.results ++ [.size s0]
             | .recv j => t.task = some (.recvPointer j) ∧ t.results = s.results
           else t.task = some (.sizeFirst u) ∧ t.results = s.results
         | _ => t.task = some (.sizeSecond u (be16 h l)) ∧ t.results = s.results))

/-- R221, R223, R174: udp_send as a whole on a quiet bus, with the reference peer, the send-completion flag set: after its
nine moves it reports success; destination address and port, payload, advanced pointer, send command and flag clearing
stand in the peer, and every other byte is as before. The register bytes rest on log entries 13, 14, 20 and 29. -/
def Obligations.UdpSendCompletes : Prop :=
  ∀ (s : State) (j : SendJob) (rest : List HostItem) (p : Half), HostFree s → s.turns = [] →
    (∀ k ∈ s.parked, k.sock ≠ j.sock) → s.program = .call (.udpSend j) :: rest → (∀ r, rest ≠ .reset :: r) →
    s.peer = .reference → Quiet s.env →
    0 < j.retryMax → j.payload.length ≤ 2 ^ j.szlog2.toNat →
    2 ^ j.szlog2.toNat ≤ blockLimit s (blockOf j.sock .stx) →
    flagSet (s.peerByte (byteKey (blockOf j.sock .sreg) (Config.std.roff .interrupt).toNat)) Config.std.irqSendDone =
      true →
    s.sockReg j.sock .txWritePointer = bytesBe16 p →
    ∃ t, s.after 9 = some t ∧ t.task = none ∧ t.program = rest ∧ t.results = s.results ++ [.sent] ∧
      t.sockReg j.sock .destAddress = addrBytes j.addr ∧ t.sockReg j.sock .destPort = bytesBe16 j.port ∧
      t.sockReg j.sock .txWritePointer = bytesBe16 (p + BitVec.ofNat 16 j.payload.length) ∧
      t.sockReg j.sock .command = [Config.std.cmd .send] ∧ t.sockReg j.sock .interrupt = [Config.std.irqSendDone] ∧
      (∀ k, k < j.payload.length →
        Memory.get t.pm (byteKey (blockOf j.sock .stx) ((p.toNat + k) % 2 ^ j.szlog2.toNat)) = j.payload[k]?) ∧
      ∀ a, (∀ r o, r ∈ [RegName.destAddress, .destPort, .txWritePointer, .command, .interrupt] → o < regWidth r →
          a ≠ byteKey (blockOf j.sock .sreg) ((Config.std.roff r).toNat + o)) →
        (∀ k, k < j.payload.length →
          a ≠ byteKey (blockOf j.sock .stx) ((p.toNat + k) % 2 ^ j.szlog2.toNat)) →
        Memory.get t.pm a = Memory.get s.pm a

/-- R225, R226, R227: udp_receive as a whole on a quiet bus, with the reference peer and a datagram in the rx buffer: after
its eight moves it returns source, port, min(capacity, declared) and that many payload bytes, and the read pointer has
advanced by 8 + declared, not by the copied length. The register bytes rest on log entries 13, 14 and 20. -/
def Obligations.UdpReceiveCompletes : Prop :=
  ∀ (s : State) (j : RecvJob) (rest : List HostItem) (n p : Half) (h : InlineHeader), HostFree s → s.turns = [] →
    (∀ k ∈ s.parked, k.sock ≠ j.sock) → s.program = .call (.udpReceive j) :: rest → (∀ r, rest ≠ .reset :: r) →
    s.peer = .reference → Quiet s.env →
    8 ≤ 2 ^ j.szlog2.toNat → 2 ^ j.szlog2.toNat ≤ blockLimit s (blockOf j.sock .srx) →
    copyLen j h ≤ 2 ^ j.szlog2.toNat → 8 ≤ n.toNat →
    s.sockReg j.sock .receivedSize = bytesBe16 n → s.sockReg j.sock .rxReadPointer = bytesBe16 p →
    (List.range 8).map (fun k => s.peerByte (byteKey (blockOf j.sock .srx) ((p.toNat + k) % 2 ^ j.szlog2.toNat))) =
      addrBytes h.src ++ bytesBe16 h.port ++ bytesBe16 h.declared →
    ∃ t, s.after 8 = some t ∧ t.task = none ∧ t.program = rest ∧
      t.results = s.results ++
        [.received h.src h.port (min j.capacity h.declared.toNat)
          ((List.range (min j.capacity h.declared.toNat)).map fun k =>
            s.peerByte (byteKey (blockOf j.sock .srx) ((p.toNat + 8 + k) % 2 ^ j.szlog2.toNat)))] ∧
      t.sockReg j.sock .rxReadPointer = bytesBe16 (p + (8 + h.declared)) ∧
      t.sockReg j.sock .command = [Config.std.cmd .receiveAck] ∧
      ∀ a, (∀ r o, r ∈ [RegName.rxReadPointer, .command] → o < regWidth r →
          a ≠ byteKey (blockOf j.sock .sreg) ((Config.std.roff r).toNat + o)) →
        Memory.get t.pm a = Memory.get s.pm a

end
end

