-- ==== Sys2Proof/Laws/Codec.lean ====
section
/-! SUPPORT. Small facts about byte order, the block-select mux, the header codec and the pointer arithmetic. -/

namespace Sys2Proof.Machine

/-- With LEN_W = 16 a count fits if it is below 65536. -/
@[simp] theorem countFits_std (n : Nat) : Config.std.countFits n = decide (n < 65536) := rfl

/-- Every count operand fits in LEN_W = 16 bits. -/
theorem countFits_half (n : Half) : Config.std.countFits n.toNat = true := decide_eq_true (p := n.toNat < 2 ^ 16) n.isLt

theorem be16_hi8_lo8 (v : Half) : be16 (hi8 v) (lo8 v) = v := by
  apply BitVec.eq_of_toNat_eq
  have := v.isLt
  simp only [be16, hi8, lo8, BitVec.toNat_append, BitVec.extractLsb'_toNat, Nat.shiftRight_eq_div_pow]
  rw [← Nat.shiftLeft_add_eq_or_of_lt (by omega), Nat.shiftLeft_eq]
  omega

theorem be16_toNat (h l : Byte) : (be16 h l).toNat = h.toNat * 256 + l.toNat := by
  have := l.isLt
  simp only [be16, BitVec.toNat_append]
  rw [← Nat.shiftLeft_add_eq_or_of_lt (by omega), Nat.shiftLeft_eq]

theorem hi8_toNat (v : Half) : (hi8 v).toNat = v.toNat / 256 := by
  have := v.isLt
  simp only [hi8, BitVec.extractLsb'_toNat, Nat.shiftRight_eq_div_pow]
  omega

theorem lo8_toNat (v : Half) : (lo8 v).toNat = v.toNat % 256 := by
  simp [lo8, BitVec.extractLsb'_toNat]

theorem hi8_be16 (h l : Byte) : hi8 (be16 h l) = h := by
  apply BitVec.eq_of_toNat_eq
  have := l.isLt
  rw [hi8_toNat, be16_toNat]
  omega

theorem lo8_be16 (h l : Byte) : lo8 (be16 h l) = l := by
  apply BitVec.eq_of_toNat_eq
  have := l.isLt
  rw [lo8_toNat, be16_toNat]
  omega

theorem blockOf_toNat : ∀ (i : Sock) (r : Region), (blockOf i r).toNat = 4 * i.toNat + (regionCode r).toNat := by
  intro i r
  cases r <;> revert i <;> decide

theorem blockRegion_blockOf : ∀ (i : Sock) (r : Region), blockRegion (blockOf i r) = r := by
  intro i r
  cases r <;> revert i <;> decide

theorem blockSock_blockOf : ∀ (i : Sock) (r : Region), blockSock (blockOf i r) = i := by
  intro i r
  cases r <;> revert i <;> decide

theorem blockOf_fields : ∀ b : Block, blockOf (blockSock b) (blockRegion b) = b := by decide

theorem blockAssigned_blockOf (i : Sock) (r : Region) (h : r ≠ .common ∨ i = 0) :
    blockAssigned (blockOf i r) = true := by
  rw [blockAssigned, blockRegion_blockOf, blockSock_blockOf]
  rcases h with h | h <;> simp [h]

theorem ctlDec_ctlEnc : ∀ (b : Block) (d : Dir) (om : BitVec 2),
    ctlDec Config.std (ctlEnc Config.std b d om) = { bsb := b, dir := d, om := om } := by
  intro b d om
  cases d <;> revert b om <;> decide

theorem ctlEnc_ctlDec : ∀ c : Byte,
    ctlEnc Config.std (ctlDec Config.std c).bsb (ctlDec Config.std c).dir (ctlDec Config.std c).om = c := by
  decide

/-- Decoding an encoded header gives its fields back, in variable-length mode (R136). -/
theorem hdrDec_hdrEnc (o : Half) (b : Block) (d : Dir) :
    hdrDec Config.std (hdrEnc Config.std o b d) = wireHeader b d o := by
  simp only [hdrDec, hdrEnc, ctlDec_ctlEnc, be16_hi8_lo8, wireHeader]

theorem bufSize_pos (sz : BitVec 4) : 0 < bufSize sz := Nat.pow_pos (by decide)

theorem bufSize_le (sz : BitVec 4) : bufSize sz ≤ 32768 := by
  have : sz.toNat ≤ 15 := by have := sz.isLt; omega
  exact Nat.pow_le_pow_right (by decide : 0 < 2) this

theorem cpWrap_toNat (p : Half) (sz : BitVec 4) : (cpWrap p sz).toNat = p.toNat % bufSize sz := by
  have h1 := Nat.mod_lt p.toNat (bufSize_pos sz)
  have h2 := bufSize_le sz
  simp only [cpWrap, BitVec.toNat_ofNat]
  omega

theorem cpWrap_lt (p : Half) (sz : BitVec 4) : (cpWrap p sz).toNat < bufSize sz := by
  rw [cpWrap_toNat]
  exact Nat.mod_lt _ (bufSize_pos sz)

/-- Everything the splitter says, in numbers (R175). -/
theorem cpSplit_spec (p l : Half) (sz : BitVec 4) :
    (cpSplit p l sz).o0 = cpWrap p sz ∧ (cpSplit p l sz).fits = decide (l.toNat ≤ bufSize sz) ∧
    ((cpSplit p l sz).two = true ∧ bufSize sz < (cpWrap p sz).toNat + l.toNat ∧
        (cpSplit p l sz).l0.toNat = bufSize sz - (cpWrap p sz).toNat ∧
        (cpSplit p l sz).l1.toNat = l.toNat - (bufSize sz - (cpWrap p sz).toNat) ∨
      (cpSplit p l sz).two = false ∧ (cpWrap p sz).toNat + l.toNat ≤ bufSize sz ∧
        (cpSplit p l sz).l0 = l) := by
  have h1 := cpWrap_lt p sz
  have h2 := bufSize_le sz
  have h3 := l.isLt
  unfold cpSplit
  simp only []
  split
  · rename_i h
    have h4 : (BitVec.ofNat 16 (bufSize sz) - cpWrap p sz).toNat = bufSize sz - (cpWrap p sz).toNat := by
      rw [BitVec.toNat_sub, BitVec.toNat_ofNat]
      omega
    refine ⟨rfl, rfl, .inl ⟨rfl, h, h4, ?_⟩⟩
    simp only []
    rw [BitVec.toNat_sub, h4]
    omega
  · rename_i h
    exact ⟨rfl, rfl, .inr ⟨rfl, by omega, rfl⟩⟩

end Sys2Proof.Machine
end

