-- ==== Sys2Proof/Laws/State.lean ====
section
/-! SUPPORT. One lemma per field per named update of the state, true by rfl, so that no later proof unfolds a record
update. -/

namespace Sys2Proof.Machine

/-- With LEN_W = 16 a count operand has no bit above its width. -/
@[simp] theorem count_std (n : Half) : Config.std.count n = n :=
  BitVec.eq_of_toNat_eq ((BitVec.toNat_ofNat _ 16).trans ((Nat.mod_mod _ _).trans (Nat.mod_eq_of_lt n.isLt)))

/-! ### emit -/

@[simp] theorem State.emit_sel (e : BusEvent) (s : State) :
    (State.emit e s).sel = s.sel := rfl
@[simp] theorem State.emit_phase (e : BusEvent) (s : State) :
    (State.emit e s).phase = s.phase := rfl
@[simp] theorem State.emit_idx (e : BusEvent) (s : State) :
    (State.emit e s).idx = s.idx := rfl
@[simp] theorem State.emit_dir (e : BusEvent) (s : State) :
    (State.emit e s).dir = s.dir := rfl
@[simp] theorem State.emit_bsb (e : BusEvent) (s : State) :
    (State.emit e s).bsb = s.bsb := rfl
@[simp] theorem State.emit_off (e : BusEvent) (s : State) :
    (State.emit e s).off = s.off := rfl
@[simp] theorem State.emit_len (e : BusEvent) (s : State) :
    (State.emit e s).len = s.len := rfl
@[simp] theorem State.emit_hdrb (e : BusEvent) (s : State) :
    (State.emit e s).hdrb = s.hdrb := rfl
@[simp] theorem State.emit_res (e : BusEvent) (s : State) :
    (State.emit e s).res = s.res := rfl
@[simp] theorem State.emit_wdata (e : BusEvent) (s : State) :
    (State.emit e s).wdata = s.wdata := rfl
@[simp] theorem State.emit_rdata (e : BusEvent) (s : State) :
    (State.emit e s).rdata = s.rdata := rfl
@[simp] theorem State.emit_resp (e : BusEvent) (s : State) :
    (State.emit e s).resp = s.resp := rfl
@[simp] theorem State.emit_trace (e : BusEvent) (s : State) :
    (State.emit e s).trace = s.trace ++ [e] := rfl
@[simp] theorem State.emit_pm (e : BusEvent) (s : State) :
    (State.emit e s).pm = s.pm := rfl
@[simp] theorem State.emit_peer (e : BusEvent) (s : State) :
    (State.emit e s).peer = s.peer := rfl
@[simp] theorem State.emit_txLog2 (e : BusEvent) (s : State) :
    (State.emit e s).txLog2 = s.txLog2 := rfl
@[simp] theorem State.emit_rxLog2 (e : BusEvent) (s : State) :
    (State.emit e s).rxLog2 = s.rxLog2 := rfl
@[simp] theorem State.emit_wire (e : BusEvent) (s : State) :
    (State.emit e s).wire = s.wire := rfl
@[simp] theorem State.emit_env (e : BusEvent) (s : State) :
    (State.emit e s).env = s.env := rfl
@[simp] theorem State.emit_draws (e : BusEvent) (s : State) :
    (State.emit e s).draws = s.draws := rfl
@[simp] theorem State.emit_program (e : BusEvent) (s : State) :
    (State.emit e s).program = s.program := rfl
@[simp] theorem State.emit_task (e : BusEvent) (s : State) :
    (State.emit e s).task = s.task := rfl
@[simp] theorem State.emit_parked (e : BusEvent) (s : State) :
    (State.emit e s).parked = s.parked := rfl
@[simp] theorem State.emit_turns (e : BusEvent) (s : State) :
    (State.emit e s).turns = s.turns := rfl
@[simp] theorem State.emit_results (e : BusEvent) (s : State) :
    (State.emit e s).results = s.results := rfl

/-! ### returns -/

@[simp] theorem State.returns_sel (r : Response) (s : State) :
    (State.returns r s).sel = s.sel := rfl
@[simp] theorem State.returns_phase (r : Response) (s : State) :
    (State.returns r s).phase = s.phase := rfl
@[simp] theorem State.returns_idx (r : Response) (s : State) :
    (State.returns r s).idx = s.idx := rfl
@[simp] theorem State.returns_dir (r : Response) (s : State) :
    (State.returns r s).dir = s.dir := rfl
@[simp] theorem State.returns_bsb (r : Response) (s : State) :
    (State.returns r s).bsb = s.bsb := rfl
@[simp] theorem State.returns_off (r : Response) (s : State) :
    (State.returns r s).off = s.off := rfl
@[simp] theorem State.returns_len (r : Response) (s : State) :
    (State.returns r s).len = s.len := rfl
@[simp] theorem State.returns_hdrb (r : Response) (s : State) :
    (State.returns r s).hdrb = s.hdrb := rfl
@[simp] theorem State.returns_res (r : Response) (s : State) :
    (State.returns r s).res = s.res := rfl
@[simp] theorem State.returns_wdata (r : Response) (s : State) :
    (State.returns r s).wdata = s.wdata := rfl
@[simp] theorem State.returns_rdata (r : Response) (s : State) :
    (State.returns r s).rdata = s.rdata := rfl
@[simp] theorem State.returns_resp (r : Response) (s : State) :
    (State.returns r s).resp = r := rfl
@[simp] theorem State.returns_trace (r : Response) (s : State) :
    (State.returns r s).trace = s.trace := rfl
@[simp] theorem State.returns_pm (r : Response) (s : State) :
    (State.returns r s).pm = s.pm := rfl
@[simp] theorem State.returns_peer (r : Response) (s : State) :
    (State.returns r s).peer = s.peer := rfl
@[simp] theorem State.returns_txLog2 (r : Response) (s : State) :
    (State.returns r s).txLog2 = s.txLog2 := rfl
@[simp] theorem State.returns_rxLog2 (r : Response) (s : State) :
    (State.returns r s).rxLog2 = s.rxLog2 := rfl
@[simp] theorem State.returns_wire (r : Response) (s : State) :
    (State.returns r s).wire = s.wire := rfl
@[simp] theorem State.returns_env (r : Response) (s : State) :
    (State.returns r s).env = s.env := rfl
@[simp] theorem State.returns_draws (r : Response) (s : State) :
    (State.returns r s).draws = s.draws := rfl
@[simp] theorem State.returns_program (r : Response) (s : State) :
    (State.returns r s).program = s.program := rfl
@[simp] theorem State.returns_task (r : Response) (s : State) :
    (State.returns r s).task = s.task := rfl
@[simp] theorem State.returns_parked (r : Response) (s : State) :
    (State.returns r s).parked = s.parked := rfl
@[simp] theorem State.returns_turns (r : Response) (s : State) :
    (State.returns r s).turns = s.turns := rfl
@[simp] theorem State.returns_results (r : Response) (s : State) :
    (State.returns r s).results = s.results := rfl

/-! ### drawn -/

@[simp] theorem State.drawn_sel (n : Nat) (s : State) :
    (State.drawn n s).sel = s.sel := rfl
@[simp] theorem State.drawn_phase (n : Nat) (s : State) :
    (State.drawn n s).phase = s.phase := rfl
@[simp] theorem State.drawn_idx (n : Nat) (s : State) :
    (State.drawn n s).idx = s.idx := rfl
@[simp] theorem State.drawn_dir (n : Nat) (s : State) :
    (State.drawn n s).dir = s.dir := rfl
@[simp] theorem State.drawn_bsb (n : Nat) (s : State) :
    (State.drawn n s).bsb = s.bsb := rfl
@[simp] theorem State.drawn_off (n : Nat) (s : State) :
    (State.drawn n s).off = s.off := rfl
@[simp] theorem State.drawn_len (n : Nat) (s : State) :
    (State.drawn n s).len = s.len := rfl
@[simp] theorem State.drawn_hdrb (n : Nat) (s : State) :
    (State.drawn n s).hdrb = s.hdrb := rfl
@[simp] theorem State.drawn_res (n : Nat) (s : State) :
    (State.drawn n s).res = s.res := rfl
@[simp] theorem State.drawn_wdata (n : Nat) (s : State) :
    (State.drawn n s).wdata = s.wdata := rfl
@[simp] theorem State.drawn_rdata (n : Nat) (s : State) :
    (State.drawn n s).rdata = s.rdata := rfl
@[simp] theorem State.drawn_resp (n : Nat) (s : State) :
    (State.drawn n s).resp = s.resp := rfl
@[simp] theorem State.drawn_trace (n : Nat) (s : State) :
    (State.drawn n s).trace = s.trace := rfl
@[simp] theorem State.drawn_pm (n : Nat) (s : State) :
    (State.drawn n s).pm = s.pm := rfl
@[simp] theorem State.drawn_peer (n : Nat) (s : State) :
    (State.drawn n s).peer = s.peer := rfl
@[simp] theorem State.drawn_txLog2 (n : Nat) (s : State) :
    (State.drawn n s).txLog2 = s.txLog2 := rfl
@[simp] theorem State.drawn_rxLog2 (n : Nat) (s : State) :
    (State.drawn n s).rxLog2 = s.rxLog2 := rfl
@[simp] theorem State.drawn_wire (n : Nat) (s : State) :
    (State.drawn n s).wire = s.wire := rfl
@[simp] theorem State.drawn_env (n : Nat) (s : State) :
    (State.drawn n s).env = s.env := rfl
@[simp] theorem State.drawn_draws (n : Nat) (s : State) :
    (State.drawn n s).draws = s.draws + n := rfl
@[simp] theorem State.drawn_program (n : Nat) (s : State) :
    (State.drawn n s).program = s.program := rfl
@[simp] theorem State.drawn_task (n : Nat) (s : State) :
    (State.drawn n s).task = s.task := rfl
@[simp] theorem State.drawn_parked (n : Nat) (s : State) :
    (State.drawn n s).parked = s.parked := rfl
@[simp] theorem State.drawn_turns (n : Nat) (s : State) :
    (State.drawn n s).turns = s.turns := rfl
@[simp] theorem State.drawn_results (n : Nat) (s : State) :
    (State.drawn n s).results = s.results := rfl

/-! ### place -/

@[simp] theorem State.place_sel (p : Phase) (i : Half) (s : State) :
    (State.place p i s).sel = s.sel := rfl
@[simp] theorem State.place_phase (p : Phase) (i : Half) (s : State) :
    (State.place p i s).phase = p := rfl
@[simp] theorem State.place_idx (p : Phase) (i : Half) (s : State) :
    (State.place p i s).idx = i := rfl
@[simp] theorem State.place_dir (p : Phase) (i : Half) (s : State) :
    (State.place p i s).dir = s.dir := rfl
@[simp] theorem State.place_bsb (p : Phase) (i : Half) (s : State) :
    (State.place p i s).bsb = s.bsb := rfl
@[simp] theorem State.place_off (p : Phase) (i : Half) (s : State) :
    (State.place p i s).off = s.off := rfl
@[simp] theorem State.place_len (p : Phase) (i : Half) (s : State) :
    (State.place p i s).len = s.len := rfl
@[simp] theorem State.place_hdrb (p : Phase) (i : Half) (s : State) :
    (State.place p i s).hdrb = s.hdrb := rfl
@[simp] theorem State.place_res (p : Phase) (i : Half) (s : State) :
    (State.place p i s).res = s.res := rfl
@[simp] theorem State.place_wdata (p : Phase) (i : Half) (s : State) :
    (State.place p i s).wdata = s.wdata := rfl
@[simp] theorem State.place_rdata (p : Phase) (i : Half) (s : State) :
    (State.place p i s).rdata = s.rdata := rfl
@[simp] theorem State.place_resp (p : Phase) (i : Half) (s : State) :
    (State.place p i s).resp = s.resp := rfl
@[simp] theorem State.place_trace (p : Phase) (i : Half) (s : State) :
    (State.place p i s).trace = s.trace := rfl
@[simp] theorem State.place_pm (p : Phase) (i : Half) (s : State) :
    (State.place p i s).pm = s.pm := rfl
@[simp] theorem State.place_peer (p : Phase) (i : Half) (s : State) :
    (State.place p i s).peer = s.peer := rfl
@[simp] theorem State.place_txLog2 (p : Phase) (i : Half) (s : State) :
    (State.place p i s).txLog2 = s.txLog2 := rfl
@[simp] theorem State.place_rxLog2 (p : Phase) (i : Half) (s : State) :
    (State.place p i s).rxLog2 = s.rxLog2 := rfl
@[simp] theorem State.place_wire (p : Phase) (i : Half) (s : State) :
    (State.place p i s).wire = s.wire := rfl
@[simp] theorem State.place_env (p : Phase) (i : Half) (s : State) :
    (State.place p i s).env = s.env := rfl
@[simp] theorem State.place_draws (p : Phase) (i : Half) (s : State) :
    (State.place p i s).draws = s.draws := rfl
@[simp] theorem State.place_program (p : Phase) (i : Half) (s : State) :
    (State.place p i s).program = s.program := rfl
@[simp] theorem State.place_task (p : Phase) (i : Half) (s : State) :
    (State.place p i s).task = s.task := rfl
@[simp] theorem State.place_parked (p : Phase) (i : Half) (s : State) :
    (State.place p i s).parked = s.parked := rfl
@[simp] theorem State.place_turns (p : Phase) (i : Half) (s : State) :
    (State.place p i s).turns = s.turns := rfl
@[simp] theorem State.place_results (p : Phase) (i : Half) (s : State) :
    (State.place p i s).results = s.results := rfl

/-! ### receive -/

@[simp] theorem State.receive_sel (r : Byte) (s : State) :
    (State.receive r s).sel = s.sel := rfl
@[simp] theorem State.receive_phase (r : Byte) (s : State) :
    (State.receive r s).phase = s.phase := rfl
@[simp] theorem State.receive_idx (r : Byte) (s : State) :
    (State.receive r s).idx = s.idx := rfl
@[simp] theorem State.receive_dir (r : Byte) (s : State) :
    (State.receive r s).dir = s.dir := rfl
@[simp] theorem State.receive_bsb (r : Byte) (s : State) :
    (State.receive r s).bsb = s.bsb := rfl
@[simp] theorem State.receive_off (r : Byte) (s : State) :
    (State.receive r s).off = s.off := rfl
@[simp] theorem State.receive_len (r : Byte) (s : State) :
    (State.receive r s).len = s.len := rfl
@[simp] theorem State.receive_hdrb (r : Byte) (s : State) :
    (State.receive r s).hdrb = s.hdrb := rfl
@[simp] theorem State.receive_res (r : Byte) (s : State) :
    (State.receive r s).res = s.res := rfl
@[simp] theorem State.receive_wdata (r : Byte) (s : State) :
    (State.receive r s).wdata = s.wdata := rfl
@[simp] theorem State.receive_rdata (r : Byte) (s : State) :
    (State.receive r s).rdata = s.rdata ++ [r] := rfl
@[simp] theorem State.receive_resp (r : Byte) (s : State) :
    (State.receive r s).resp = s.resp := rfl
@[simp] theorem State.receive_trace (r : Byte) (s : State) :
    (State.receive r s).trace = s.trace := rfl
@[simp] theorem State.receive_pm (r : Byte) (s : State) :
    (State.receive r s).pm = s.pm := rfl
@[simp] theorem State.receive_peer (r : Byte) (s : State) :
    (State.receive r s).peer = s.peer := rfl
@[simp] theorem State.receive_txLog2 (r : Byte) (s : State) :
    (State.receive r s).txLog2 = s.txLog2 := rfl
@[simp] theorem State.receive_rxLog2 (r : Byte) (s : State) :
    (State.receive r s).rxLog2 = s.rxLog2 := rfl
@[simp] theorem State.receive_wire (r : Byte) (s : State) :
    (State.receive r s).wire = s.wire := rfl
@[simp] theorem State.receive_env (r : Byte) (s : State) :
    (State.receive r s).env = s.env := rfl
@[simp] theorem State.receive_draws (r : Byte) (s : State) :
    (State.receive r s).draws = s.draws := rfl
@[simp] theorem State.receive_program (r : Byte) (s : State) :
    (State.receive r s).program = s.program := rfl
@[simp] theorem State.receive_task (r : Byte) (s : State) :
    (State.receive r s).task = s.task := rfl
@[simp] theorem State.receive_parked (r : Byte) (s : State) :
    (State.receive r s).parked = s.parked := rfl
@[simp] theorem State.receive_turns (r : Byte) (s : State) :
    (State.receive r s).turns = s.turns := rfl
@[simp] theorem State.receive_results (r : Byte) (s : State) :
    (State.receive r s).results = s.results := rfl

/-! ### holds -/

@[simp] theorem State.holds_sel (bytes : List Byte) (s : State) :
    (State.holds bytes s).sel = s.sel := rfl
@[simp] theorem State.holds_phase (bytes : List Byte) (s : State) :
    (State.holds bytes s).phase = s.phase := rfl
@[simp] theorem State.holds_idx (bytes : List Byte) (s : State) :
    (State.holds bytes s).idx = s.idx := rfl
@[simp] theorem State.holds_dir (bytes : List Byte) (s : State) :
    (State.holds bytes s).dir = s.dir := rfl
@[simp] theorem State.holds_bsb (bytes : List Byte) (s : State) :
    (State.holds bytes s).bsb = s.bsb := rfl
@[simp] theorem State.holds_off (bytes : List Byte) (s : State) :
    (State.holds bytes s).off = s.off := rfl
@[simp] theorem State.holds_len (bytes : List Byte) (s : State) :
    (State.holds bytes s).len = s.len := rfl
@[simp] theorem State.holds_hdrb (bytes : List Byte) (s : State) :
    (State.holds bytes s).hdrb = s.hdrb := rfl
@[simp] theorem State.holds_res (bytes : List Byte) (s : State) :
    (State.holds bytes s).res = s.res := rfl
@[simp] theorem State.holds_wdata (bytes : List Byte) (s : State) :
    (State.holds bytes s).wdata = s.wdata := rfl
@[simp] theorem State.holds_rdata (bytes : List Byte) (s : State) :
    (State.holds bytes s).rdata = bytes := rfl
@[simp] theorem State.holds_resp (bytes : List Byte) (s : State) :
    (State.holds bytes s).resp = s.resp := rfl
@[simp] theorem State.holds_trace (bytes : List Byte) (s : State) :
    (State.holds bytes s).trace = s.trace := rfl
@[simp] theorem State.holds_pm (bytes : List Byte) (s : State) :
    (State.holds bytes s).pm = s.pm := rfl
@[simp] theorem State.holds_peer (bytes : List Byte) (s : State) :
    (State.holds bytes s).peer = s.peer := rfl
@[simp] theorem State.holds_txLog2 (bytes : List Byte) (s : State) :
    (State.holds bytes s).txLog2 = s.txLog2 := rfl
@[simp] theorem State.holds_rxLog2 (bytes : List Byte) (s : State) :
    (State.holds bytes s).rxLog2 = s.rxLog2 := rfl
@[simp] theorem State.holds_wire (bytes : List Byte) (s : State) :
    (State.holds bytes s).wire = s.wire := rfl
@[simp] theorem State.holds_env (bytes : List Byte) (s : State) :
    (State.holds bytes s).env = s.env := rfl
@[simp] theorem State.holds_draws (bytes : List Byte) (s : State) :
    (State.holds bytes s).draws = s.draws := rfl
@[simp] theorem State.holds_program (bytes : List Byte) (s : State) :
    (State.holds bytes s).program = s.program := rfl
@[simp] theorem State.holds_task (bytes : List Byte) (s : State) :
    (State.holds bytes s).task = s.task := rfl
@[simp] theorem State.holds_parked (bytes : List Byte) (s : State) :
    (State.holds bytes s).parked = s.parked := rfl
@[simp] theorem State.holds_turns (bytes : List Byte) (s : State) :
    (State.holds bytes s).turns = s.turns := rfl
@[simp] theorem State.holds_results (bytes : List Byte) (s : State) :
    (State.holds bytes s).results = s.results := rfl

/-! ### close -/

@[simp] theorem State.close_sel (r : Res) (s : State) :
    (State.close r s).sel = s.sel := rfl
@[simp] theorem State.close_phase (r : Res) (s : State) :
    (State.close r s).phase = .idle := rfl
@[simp] theorem State.close_idx (r : Res) (s : State) :
    (State.close r s).idx = s.idx := rfl
@[simp] theorem State.close_dir (r : Res) (s : State) :
    (State.close r s).dir = s.dir := rfl
@[simp] theorem State.close_bsb (r : Res) (s : State) :
    (State.close r s).bsb = s.bsb := rfl
@[simp] theorem State.close_off (r : Res) (s : State) :
    (State.close r s).off = s.off := rfl
@[simp] theorem State.close_len (r : Res) (s : State) :
    (State.close r s).len = s.len := rfl
@[simp] theorem State.close_hdrb (r : Res) (s : State) :
    (State.close r s).hdrb = s.hdrb := rfl
@[simp] theorem State.close_res (r : Res) (s : State) :
    (State.close r s).res = r := rfl
@[simp] theorem State.close_wdata (r : Res) (s : State) :
    (State.close r s).wdata = s.wdata := rfl
@[simp] theorem State.close_rdata (r : Res) (s : State) :
    (State.close r s).rdata = s.rdata := rfl
@[simp] theorem State.close_resp (r : Res) (s : State) :
    (State.close r s).resp = s.resp := rfl
@[simp] theorem State.close_trace (r : Res) (s : State) :
    (State.close r s).trace = s.trace := rfl
@[simp] theorem State.close_pm (r : Res) (s : State) :
    (State.close r s).pm = s.pm := rfl
@[simp] theorem State.close_peer (r : Res) (s : State) :
    (State.close r s).peer = s.peer := rfl
@[simp] theorem State.close_txLog2 (r : Res) (s : State) :
    (State.close r s).txLog2 = s.txLog2 := rfl
@[simp] theorem State.close_rxLog2 (r : Res) (s : State) :
    (State.close r s).rxLog2 = s.rxLog2 := rfl
@[simp] theorem State.close_wire (r : Res) (s : State) :
    (State.close r s).wire = s.wire := rfl
@[simp] theorem State.close_env (r : Res) (s : State) :
    (State.close r s).env = s.env := rfl
@[simp] theorem State.close_draws (r : Res) (s : State) :
    (State.close r s).draws = s.draws := rfl
@[simp] theorem State.close_program (r : Res) (s : State) :
    (State.close r s).program = s.program := rfl
@[simp] theorem State.close_task (r : Res) (s : State) :
    (State.close r s).task = s.task := rfl
@[simp] theorem State.close_parked (r : Res) (s : State) :
    (State.close r s).parked = s.parked := rfl
@[simp] theorem State.close_turns (r : Res) (s : State) :
    (State.close r s).turns = s.turns := rfl
@[simp] theorem State.close_results (r : Res) (s : State) :
    (State.close r s).results = s.results := rfl

/-! ### withEnv -/

@[simp] theorem State.withEnv_sel (v : List EnvEvent) (s : State) :
    (State.withEnv v s).sel = s.sel := rfl
@[simp] theorem State.withEnv_phase (v : List EnvEvent) (s : State) :
    (State.withEnv v s).phase = s.phase := rfl
@[simp] theorem State.withEnv_idx (v : List EnvEvent) (s : State) :
    (State.withEnv v s).idx = s.idx := rfl
@[simp] theorem State.withEnv_dir (v : List EnvEvent) (s : State) :
    (State.withEnv v s).dir = s.dir := rfl
@[simp] theorem State.withEnv_bsb (v : List EnvEvent) (s : State) :
    (State.withEnv v s).bsb = s.bsb := rfl
@[simp] theorem State.withEnv_off (v : List EnvEvent) (s : State) :
    (State.withEnv v s).off = s.off := rfl
@[simp] theorem State.withEnv_len (v : List EnvEvent) (s : State) :
    (State.withEnv v s).len = s.len := rfl
@[simp] theorem State.withEnv_hdrb (v : List EnvEvent) (s : State) :
    (State.withEnv v s).hdrb = s.hdrb := rfl
@[simp] theorem State.withEnv_res (v : List EnvEvent) (s : State) :
    (State.withEnv v s).res = s.res := rfl
@[simp] theorem State.withEnv_wdata (v : List EnvEvent) (s : State) :
    (State.withEnv v s).wdata = s.wdata := rfl
@[simp] theorem State.withEnv_rdata (v : List EnvEvent) (s : State) :
    (State.withEnv v s).rdata = s.rdata := rfl
@[simp] theorem State.withEnv_resp (v : List EnvEvent) (s : State) :
    (State.withEnv v s).resp = s.resp := rfl
@[simp] theorem State.withEnv_trace (v : List EnvEvent) (s : State) :
    (State.withEnv v s).trace = s.trace := rfl
@[simp] theorem State.withEnv_pm (v : List EnvEvent) (s : State) :
    (State.withEnv v s).pm = s.pm := rfl
@[simp] theorem State.withEnv_peer (v : List EnvEvent) (s : State) :
    (State.withEnv v s).peer = s.peer := rfl
@[simp] theorem State.withEnv_txLog2 (v : List EnvEvent) (s : State) :
    (State.withEnv v s).txLog2 = s.txLog2 := rfl
@[simp] theorem State.withEnv_rxLog2 (v : List EnvEvent) (s : State) :
    (State.withEnv v s).rxLog2 = s.rxLog2 := rfl
@[simp] theorem State.withEnv_wire (v : List EnvEvent) (s : State) :
    (State.withEnv v s).wire = s.wire := rfl
@[simp] theorem State.withEnv_env (v : List EnvEvent) (s : State) :
    (State.withEnv v s).env = v := rfl
@[simp] theorem State.withEnv_draws (v : List EnvEvent) (s : State) :
    (State.withEnv v s).draws = s.draws := rfl
@[simp] theorem State.withEnv_program (v : List EnvEvent) (s : State) :
    (State.withEnv v s).program = s.program := rfl
@[simp] theorem State.withEnv_task (v : List EnvEvent) (s : State) :
    (State.withEnv v s).task = s.task := rfl
@[simp] theorem State.withEnv_parked (v : List EnvEvent) (s : State) :
    (State.withEnv v s).parked = s.parked := rfl
@[simp] theorem State.withEnv_turns (v : List EnvEvent) (s : State) :
    (State.withEnv v s).turns = s.turns := rfl
@[simp] theorem State.withEnv_results (v : List EnvEvent) (s : State) :
    (State.withEnv v s).results = s.results := rfl

/-! ### store -/

@[simp] theorem State.store_sel (key : Nat) (v : Byte) (s : State) :
    (State.store key v s).sel = s.sel := rfl
@[simp] theorem State.store_phase (key : Nat) (v : Byte) (s : State) :
    (State.store key v s).phase = s.phase := rfl
@[simp] theorem State.store_idx (key : Nat) (v : Byte) (s : State) :
    (State.store key v s).idx = s.idx := rfl
@[simp] theorem State.store_dir (key : Nat) (v : Byte) (s : State) :
    (State.store key v s).dir = s.dir := rfl
@[simp] theorem State.store_bsb (key : Nat) (v : Byte) (s : State) :
    (State.store key v s).bsb = s.bsb := rfl
@[simp] theorem State.store_off (key : Nat) (v : Byte) (s : State) :
    (State.store key v s).off = s.off := rfl
@[simp] theorem State.store_len (key : Nat) (v : Byte) (s : State) :
    (State.store key v s).len = s.len := rfl
@[simp] theorem State.store_hdrb (key : Nat) (v : Byte) (s : State) :
    (State.store key v s).hdrb = s.hdrb := rfl
@[simp] theorem State.store_res (key : Nat) (v : Byte) (s : State) :
    (State.store key v s).res = s.res := rfl
@[simp] theorem State.store_wdata (key : Nat) (v : Byte) (s : State) :
    (State.store key v s).wdata = s.wdata := rfl
@[simp] theorem State.store_rdata (key : Nat) (v : Byte) (s : State) :
    (State.store key v s).rdata = s.rdata := rfl
@[simp] theorem State.store_resp (key : Nat) (v : Byte) (s : State) :
    (State.store key v s).resp = s.resp := rfl
@[simp] theorem State.store_trace (key : Nat) (v : Byte) (s : State) :
    (State.store key v s).trace = s.trace := rfl
@[simp] theorem State.store_pm (key : Nat) (v : Byte) (s : State) :
    (State.store key v s).pm = Memory.set s.pm key v := rfl
@[simp] theorem State.store_peer (key : Nat) (v : Byte) (s : State) :
    (State.store key v s).peer = s.peer := rfl
@[simp] theorem State.store_txLog2 (key : Nat) (v : Byte) (s : State) :
    (State.store key v s).txLog2 = s.txLog2 := rfl
@[simp] theorem State.store_rxLog2 (key : Nat) (v : Byte) (s : State) :
    (State.store key v s).rxLog2 = s.rxLog2 := rfl
@[simp] theorem State.store_wire (key : Nat) (v : Byte) (s : State) :
    (State.store key v s).wire = s.wire := rfl
@[simp] theorem State.store_env (key : Nat) (v : Byte) (s : State) :
    (State.store key v s).env = s.env := rfl
@[simp] theorem State.store_draws (key : Nat) (v : Byte) (s : State) :
    (State.store key v s).draws = s.draws := rfl
@[simp] theorem State.store_program (key : Nat) (v : Byte) (s : State) :
    (State.store key v s).program = s.program := rfl
@[simp] theorem State.store_task (key : Nat) (v : Byte) (s : State) :
    (State.store key v s).task = s.task := rfl
@[simp] theorem State.store_parked (key : Nat) (v : Byte) (s : State) :
    (State.store key v s).parked = s.parked := rfl
@[simp] theorem State.store_turns (key : Nat) (v : Byte) (s : State) :
    (State.store key v s).turns = s.turns := rfl
@[simp] theorem State.store_results (key : Nat) (v : Byte) (s : State) :
    (State.store key v s).results = s.results := rfl

/-! ### wireTaken -/

@[simp] theorem State.wireTaken_sel (s : State) :
    (s.wireTaken).sel = s.sel := rfl
@[simp] theorem State.wireTaken_phase (s : State) :
    (s.wireTaken).phase = s.phase := rfl
@[simp] theorem State.wireTaken_idx (s : State) :
    (s.wireTaken).idx = s.idx := rfl
@[simp] theorem State.wireTaken_dir (s : State) :
    (s.wireTaken).dir = s.dir := rfl
@[simp] theorem State.wireTaken_bsb (s : State) :
    (s.wireTaken).bsb = s.bsb := rfl
@[simp] theorem State.wireTaken_off (s : State) :
    (s.wireTaken).off = s.off := rfl
@[simp] theorem State.wireTaken_len (s : State) :
    (s.wireTaken).len = s.len := rfl
@[simp] theorem State.wireTaken_hdrb (s : State) :
    (s.wireTaken).hdrb = s.hdrb := rfl
@[simp] theorem State.wireTaken_res (s : State) :
    (s.wireTaken).res = s.res := rfl
@[simp] theorem State.wireTaken_wdata (s : State) :
    (s.wireTaken).wdata = s.wdata := rfl
@[simp] theorem State.wireTaken_rdata (s : State) :
    (s.wireTaken).rdata = s.rdata := rfl
@[simp] theorem State.wireTaken_resp (s : State) :
    (s.wireTaken).resp = s.resp := rfl
@[simp] theorem State.wireTaken_trace (s : State) :
    (s.wireTaken).trace = s.trace := rfl
@[simp] theorem State.wireTaken_pm (s : State) :
    (s.wireTaken).pm = s.pm := rfl
@[simp] theorem State.wireTaken_peer (s : State) :
    (s.wireTaken).peer = s.peer := rfl
@[simp] theorem State.wireTaken_txLog2 (s : State) :
    (s.wireTaken).txLog2 = s.txLog2 := rfl
@[simp] theorem State.wireTaken_rxLog2 (s : State) :
    (s.wireTaken).rxLog2 = s.rxLog2 := rfl
@[simp] theorem State.wireTaken_wire (s : State) :
    (s.wireTaken).wire = [] := rfl
@[simp] theorem State.wireTaken_env (s : State) :
    (s.wireTaken).env = s.env := rfl
@[simp] theorem State.wireTaken_draws (s : State) :
    (s.wireTaken).draws = s.draws := rfl
@[simp] theorem State.wireTaken_program (s : State) :
    (s.wireTaken).program = s.program := rfl
@[simp] theorem State.wireTaken_task (s : State) :
    (s.wireTaken).task = s.task := rfl
@[simp] theorem State.wireTaken_parked (s : State) :
    (s.wireTaken).parked = s.parked := rfl
@[simp] theorem State.wireTaken_turns (s : State) :
    (s.wireTaken).turns = s.turns := rfl
@[simp] theorem State.wireTaken_results (s : State) :
    (s.wireTaken).results = s.results := rfl

/-! ### stands -/

@[simp] theorem State.stands_sel (t : HostTask) (s : State) :
    (State.stands t s).sel = s.sel := rfl
@[simp] theorem State.stands_phase (t : HostTask) (s : State) :
    (State.stands t s).phase = s.phase := rfl
@[simp] theorem State.stands_idx (t : HostTask) (s : State) :
    (State.stands t s).idx = s.idx := rfl
@[simp] theorem State.stands_dir (t : HostTask) (s : State) :
    (State.stands t s).dir = s.dir := rfl
@[simp] theorem State.stands_bsb (t : HostTask) (s : State) :
    (State.stands t s).bsb = s.bsb := rfl
@[simp] theorem State.stands_off (t : HostTask) (s : State) :
    (State.stands t s).off = s.off := rfl
@[simp] theorem State.stands_len (t : HostTask) (s : State) :
    (State.stands t s).len = s.len := rfl
@[simp] theorem State.stands_hdrb (t : HostTask) (s : State) :
    (State.stands t s).hdrb = s.hdrb := rfl
@[simp] theorem State.stands_res (t : HostTask) (s : State) :
    (State.stands t s).res = s.res := rfl
@[simp] theorem State.stands_wdata (t : HostTask) (s : State) :
    (State.stands t s).wdata = s.wdata := rfl
@[simp] theorem State.stands_rdata (t : HostTask) (s : State) :
    (State.stands t s).rdata = s.rdata := rfl
@[simp] theorem State.stands_resp (t : HostTask) (s : State) :
    (State.stands t s).resp = s.resp := rfl
@[simp] theorem State.stands_trace (t : HostTask) (s : State) :
    (State.stands t s).trace = s.trace := rfl
@[simp] theorem State.stands_pm (t : HostTask) (s : State) :
    (State.stands t s).pm = s.pm := rfl
@[simp] theorem State.stands_peer (t : HostTask) (s : State) :
    (State.stands t s).peer = s.peer := rfl
@[simp] theorem State.stands_txLog2 (t : HostTask) (s : State) :
    (State.stands t s).txLog2 = s.txLog2 := rfl
@[simp] theorem State.stands_rxLog2 (t : HostTask) (s : State) :
    (State.stands t s).rxLog2 = s.rxLog2 := rfl
@[simp] theorem State.stands_wire (t : HostTask) (s : State) :
    (State.stands t s).wire = s.wire := rfl
@[simp] theorem State.stands_env (t : HostTask) (s : State) :
    (State.stands t s).env = s.env := rfl
@[simp] theorem State.stands_draws (t : HostTask) (s : State) :
    (State.stands t s).draws = s.draws := rfl
@[simp] theorem State.stands_program (t : HostTask) (s : State) :
    (State.stands t s).program = s.program := rfl
@[simp] theorem State.stands_task (t : HostTask) (s : State) :
    (State.stands t s).task = some t := rfl
@[simp] theorem State.stands_parked (t : HostTask) (s : State) :
    (State.stands t s).parked = s.parked := rfl
@[simp] theorem State.stands_turns (t : HostTask) (s : State) :
    (State.stands t s).turns = s.turns := rfl
@[simp] theorem State.stands_results (t : HostTask) (s : State) :
    (State.stands t s).results = s.results := rfl

/-! ### reports -/

@[simp] theorem State.reports_sel (r : HostResult) (s : State) :
    (State.reports r s).sel = s.sel := rfl
@[simp] theorem State.reports_phase (r : HostResult) (s : State) :
    (State.reports r s).phase = s.phase := rfl
@[simp] theorem State.reports_idx (r : HostResult) (s : State) :
    (State.reports r s).idx = s.idx := rfl
@[simp] theorem State.reports_dir (r : HostResult) (s : State) :
    (State.reports r s).dir = s.dir := rfl
@[simp] theorem State.reports_bsb (r : HostResult) (s : State) :
    (State.reports r s).bsb = s.bsb := rfl
@[simp] theorem State.reports_off (r : HostResult) (s : State) :
    (State.reports r s).off = s.off := rfl
@[simp] theorem State.reports_len (r : HostResult) (s : State) :
    (State.reports r s).len = s.len := rfl
@[simp] theorem State.reports_hdrb (r : HostResult) (s : State) :
    (State.reports r s).hdrb = s.hdrb := rfl
@[simp] theorem State.reports_res (r : HostResult) (s : State) :
    (State.reports r s).res = s.res := rfl
@[simp] theorem State.reports_wdata (r : HostResult) (s : State) :
    (State.reports r s).wdata = s.wdata := rfl
@[simp] theorem State.reports_rdata (r : HostResult) (s : State) :
    (State.reports r s).rdata = s.rdata := rfl
@[simp] theorem State.reports_resp (r : HostResult) (s : State) :
    (State.reports r s).resp = s.resp := rfl
@[simp] theorem State.reports_trace (r : HostResult) (s : State) :
    (State.reports r s).trace = s.trace := rfl
@[simp] theorem State.reports_pm (r : HostResult) (s : State) :
    (State.reports r s).pm = s.pm := rfl
@[simp] theorem State.reports_peer (r : HostResult) (s : State) :
    (State.reports r s).peer = s.peer := rfl
@[simp] theorem State.reports_txLog2 (r : HostResult) (s : State) :
    (State.reports r s).txLog2 = s.txLog2 := rfl
@[simp] theorem State.reports_rxLog2 (r : HostResult) (s : State) :
    (State.reports r s).rxLog2 = s.rxLog2 := rfl
@[simp] theorem State.reports_wire (r : HostResult) (s : State) :
    (State.reports r s).wire = s.wire := rfl
@[simp] theorem State.reports_env (r : HostResult) (s : State) :
    (State.reports r s).env = s.env := rfl
@[simp] theorem State.reports_draws (r : HostResult) (s : State) :
    (State.reports r s).draws = s.draws := rfl
@[simp] theorem State.reports_program (r : HostResult) (s : State) :
    (State.reports r s).program = s.program := rfl
@[simp] theorem State.reports_task (r : HostResult) (s : State) :
    (State.reports r s).task = s.task := rfl
@[simp] theorem State.reports_parked (r : HostResult) (s : State) :
    (State.reports r s).parked = s.parked := rfl
@[simp] theorem State.reports_turns (r : HostResult) (s : State) :
    (State.reports r s).turns = s.turns := rfl
@[simp] theorem State.reports_results (r : HostResult) (s : State) :
    (State.reports r s).results = s.results ++ [r] := rfl

/-! ### goesOn -/

@[simp] theorem State.goesOn_sel (p : List HostItem) (s : State) :
    (State.goesOn p s).sel = s.sel := rfl
@[simp] theorem State.goesOn_phase (p : List HostItem) (s : State) :
    (State.goesOn p s).phase = s.phase := rfl
@[simp] theorem State.goesOn_idx (p : List HostItem) (s : State) :
    (State.goesOn p s).idx = s.idx := rfl
@[simp] theorem State.goesOn_dir (p : List HostItem) (s : State) :
    (State.goesOn p s).dir = s.dir := rfl
@[simp] theorem State.goesOn_bsb (p : List HostItem) (s : State) :
    (State.goesOn p s).bsb = s.bsb := rfl
@[simp] theorem State.goesOn_off (p : List HostItem) (s : State) :
    (State.goesOn p s).off = s.off := rfl
@[simp] theorem State.goesOn_len (p : List HostItem) (s : State) :
    (State.goesOn p s).len = s.len := rfl
@[simp] theorem State.goesOn_hdrb (p : List HostItem) (s : State) :
    (State.goesOn p s).hdrb = s.hdrb := rfl
@[simp] theorem State.goesOn_res (p : List HostItem) (s : State) :
    (State.goesOn p s).res = s.res := rfl
@[simp] theorem State.goesOn_wdata (p : List HostItem) (s : State) :
    (State.goesOn p s).wdata = s.wdata := rfl
@[simp] theorem State.goesOn_rdata (p : List HostItem) (s : State) :
    (State.goesOn p s).rdata = s.rdata := rfl
@[simp] theorem State.goesOn_resp (p : List HostItem) (s : State) :
    (State.goesOn p s).resp = s.resp := rfl
@[simp] theorem State.goesOn_trace (p : List HostItem) (s : State) :
    (State.goesOn p s).trace = s.trace := rfl
@[simp] theorem State.goesOn_pm (p : List HostItem) (s : State) :
    (State.goesOn p s).pm = s.pm := rfl
@[simp] theorem State.goesOn_peer (p : List HostItem) (s : State) :
    (State.goesOn p s).peer = s.peer := rfl
@[simp] theorem State.goesOn_txLog2 (p : List HostItem) (s : State) :
    (State.goesOn p s).txLog2 = s.txLog2 := rfl
@[simp] theorem State.goesOn_rxLog2 (p : List HostItem) (s : State) :
    (State.goesOn p s).rxLog2 = s.rxLog2 := rfl
@[simp] theorem State.goesOn_wire (p : List HostItem) (s : State) :
    (State.goesOn p s).wire = s.wire := rfl
@[simp] theorem State.goesOn_env (p : List HostItem) (s : State) :
    (State.goesOn p s).env = s.env := rfl
@[simp] theorem State.goesOn_draws (p : List HostItem) (s : State) :
    (State.goesOn p s).draws = s.draws := rfl
@[simp] theorem State.goesOn_program (p : List HostItem) (s : State) :
    (State.goesOn p s).program = p := rfl
@[simp] theorem State.goesOn_task (p : List HostItem) (s : State) :
    (State.goesOn p s).task = s.task := rfl
@[simp] theorem State.goesOn_parked (p : List HostItem) (s : State) :
    (State.goesOn p s).parked = s.parked := rfl
@[simp] theorem State.goesOn_turns (p : List HostItem) (s : State) :
    (State.goesOn p s).turns = s.turns := rfl
@[simp] theorem State.goesOn_results (p : List HostItem) (s : State) :
    (State.goesOn p s).results = s.results := rfl

/-! ### onWire -/

@[simp] theorem State.onWire_sel (bytes : List Byte) (s : State) :
    (State.onWire bytes s).sel = s.sel := rfl
@[simp] theorem State.onWire_phase (bytes : List Byte) (s : State) :
    (State.onWire bytes s).phase = s.phase := rfl
@[simp] theorem State.onWire_idx (bytes : List Byte) (s : State) :
    (State.onWire bytes s).idx = s.idx := rfl
@[simp] theorem State.onWire_dir (bytes : List Byte) (s : State) :
    (State.onWire bytes s).dir = s.dir := rfl
@[simp] theorem State.onWire_bsb (bytes : List Byte) (s : State) :
    (State.onWire bytes s).bsb = s.bsb := rfl
@[simp] theorem State.onWire_off (bytes : List Byte) (s : State) :
    (State.onWire bytes s).off = s.off := rfl
@[simp] theorem State.onWire_len (bytes : List Byte) (s : State) :
    (State.onWire bytes s).len = s.len := rfl
@[simp] theorem State.onWire_hdrb (bytes : List Byte) (s : State) :
    (State.onWire bytes s).hdrb = s.hdrb := rfl
@[simp] theorem State.onWire_res (bytes : List Byte) (s : State) :
    (State.onWire bytes s).res = s.res := rfl
@[simp] theorem State.onWire_wdata (bytes : List Byte) (s : State) :
    (State.onWire bytes s).wdata = s.wdata := rfl
@[simp] theorem State.onWire_rdata (bytes : List Byte) (s : State) :
    (State.onWire bytes s).rdata = s.rdata := rfl
@[simp] theorem State.onWire_resp (bytes : List Byte) (s : State) :
    (State.onWire bytes s).resp = s.resp := rfl
@[simp] theorem State.onWire_trace (bytes : List Byte) (s : State) :
    (State.onWire bytes s).trace = s.trace := rfl
@[simp] theorem State.onWire_pm (bytes : List Byte) (s : State) :
    (State.onWire bytes s).pm = s.pm := rfl
@[simp] theorem State.onWire_peer (bytes : List Byte) (s : State) :
    (State.onWire bytes s).peer = s.peer := rfl
@[simp] theorem State.onWire_txLog2 (bytes : List Byte) (s : State) :
    (State.onWire bytes s).txLog2 = s.txLog2 := rfl
@[simp] theorem State.onWire_rxLog2 (bytes : List Byte) (s : State) :
    (State.onWire bytes s).rxLog2 = s.rxLog2 := rfl
@[simp] theorem State.onWire_wire (bytes : List Byte) (s : State) :
    (State.onWire bytes s).wire = bytes := rfl
@[simp] theorem State.onWire_env (bytes : List Byte) (s : State) :
    (State.onWire bytes s).env = s.env := rfl
@[simp] theorem State.onWire_draws (bytes : List Byte) (s : State) :
    (State.onWire bytes s).draws = s.draws := rfl
@[simp] theorem State.onWire_program (bytes : List Byte) (s : State) :
    (State.onWire bytes s).program = s.program := rfl
@[simp] theorem State.onWire_task (bytes : List Byte) (s : State) :
    (State.onWire bytes s).task = s.task := rfl
@[simp] theorem State.onWire_parked (bytes : List Byte) (s : State) :
    (State.onWire bytes s).parked = s.parked := rfl
@[simp] theorem State.onWire_turns (bytes : List Byte) (s : State) :
    (State.onWire bytes s).turns = s.turns := rfl
@[simp] theorem State.onWire_results (bytes : List Byte) (s : State) :
    (State.onWire bytes s).results = s.results := rfl

/-! ### withPacket -/

@[simp] theorem State.withPacket_sel (p : Packet) (s : State) :
    (State.withPacket p s).sel = .released := rfl
@[simp] theorem State.withPacket_phase (p : Packet) (s : State) :
    (State.withPacket p s).phase = .idle := rfl
@[simp] theorem State.withPacket_idx (p : Packet) (s : State) :
    (State.withPacket p s).idx = s.idx := rfl
@[simp] theorem State.withPacket_dir (p : Packet) (s : State) :
    (State.withPacket p s).dir = s.dir := rfl
@[simp] theorem State.withPacket_bsb (p : Packet) (s : State) :
    (State.withPacket p s).bsb = s.bsb := rfl
@[simp] theorem State.withPacket_off (p : Packet) (s : State) :
    (State.withPacket p s).off = s.off := rfl
@[simp] theorem State.withPacket_len (p : Packet) (s : State) :
    (State.withPacket p s).len = s.len := rfl
@[simp] theorem State.withPacket_hdrb (p : Packet) (s : State) :
    (State.withPacket p s).hdrb = s.hdrb := rfl
@[simp] theorem State.withPacket_res (p : Packet) (s : State) :
    (State.withPacket p s).res = s.res := rfl
@[simp] theorem State.withPacket_wdata (p : Packet) (s : State) :
    (State.withPacket p s).wdata = s.wdata := rfl
@[simp] theorem State.withPacket_rdata (p : Packet) (s : State) :
    (State.withPacket p s).rdata = s.rdata := rfl
@[simp] theorem State.withPacket_resp (p : Packet) (s : State) :
    (State.withPacket p s).resp = s.resp := rfl
@[simp] theorem State.withPacket_trace (p : Packet) (s : State) :
    (State.withPacket p s).trace = s.trace := rfl
@[simp] theorem State.withPacket_pm (p : Packet) (s : State) :
    (State.withPacket p s).pm = s.pm := rfl
@[simp] theorem State.withPacket_peer (p : Packet) (s : State) :
    (State.withPacket p s).peer = s.peer := rfl
@[simp] theorem State.withPacket_txLog2 (p : Packet) (s : State) :
    (State.withPacket p s).txLog2 = s.txLog2 := rfl
@[simp] theorem State.withPacket_rxLog2 (p : Packet) (s : State) :
    (State.withPacket p s).rxLog2 = s.rxLog2 := rfl
@[simp] theorem State.withPacket_wire (p : Packet) (s : State) :
    (State.withPacket p s).wire = s.wire := rfl
@[simp] theorem State.withPacket_env (p : Packet) (s : State) :
    (State.withPacket p s).env = s.env := rfl
@[simp] theorem State.withPacket_draws (p : Packet) (s : State) :
    (State.withPacket p s).draws = s.draws := rfl
@[simp] theorem State.withPacket_program (p : Packet) (s : State) :
    (State.withPacket p s).program = .op p :: s.program := rfl
@[simp] theorem State.withPacket_task (p : Packet) (s : State) :
    (State.withPacket p s).task = none := rfl
@[simp] theorem State.withPacket_parked (p : Packet) (s : State) :
    (State.withPacket p s).parked = s.parked := rfl
@[simp] theorem State.withPacket_turns (p : Packet) (s : State) :
    (State.withPacket p s).turns = [] := rfl
@[simp] theorem State.withPacket_results (p : Packet) (s : State) :
    (State.withPacket p s).results = s.results := rfl

/-! ### turnTaken -/

@[simp] theorem State.turnTaken_sel (v : List Turn) (s : State) :
    (State.turnTaken v s).sel = s.sel := rfl
@[simp] theorem State.turnTaken_phase (v : List Turn) (s : State) :
    (State.turnTaken v s).phase = s.phase := rfl
@[simp] theorem State.turnTaken_idx (v : List Turn) (s : State) :
    (State.turnTaken v s).idx = s.idx := rfl
@[simp] theorem State.turnTaken_dir (v : List Turn) (s : State) :
    (State.turnTaken v s).dir = s.dir := rfl
@[simp] theorem State.turnTaken_bsb (v : List Turn) (s : State) :
    (State.turnTaken v s).bsb = s.bsb := rfl
@[simp] theorem State.turnTaken_off (v : List Turn) (s : State) :
    (State.turnTaken v s).off = s.off := rfl
@[simp] theorem State.turnTaken_len (v : List Turn) (s : State) :
    (State.turnTaken v s).len = s.len := rfl
@[simp] theorem State.turnTaken_hdrb (v : List Turn) (s : State) :
    (State.turnTaken v s).hdrb = s.hdrb := rfl
@[simp] theorem State.turnTaken_res (v : List Turn) (s : State) :
    (State.turnTaken v s).res = s.res := rfl
@[simp] theorem State.turnTaken_wdata (v : List Turn) (s : State) :
    (State.turnTaken v s).wdata = s.wdata := rfl
@[simp] theorem State.turnTaken_rdata (v : List Turn) (s : State) :
    (State.turnTaken v s).rdata = s.rdata := rfl
@[simp] theorem State.turnTaken_resp (v : List Turn) (s : State) :
    (State.turnTaken v s).resp = s.resp := rfl
@[simp] theorem State.turnTaken_trace (v : List Turn) (s : State) :
    (State.turnTaken v s).trace = s.trace := rfl
@[simp] theorem State.turnTaken_pm (v : List Turn) (s : State) :
    (State.turnTaken v s).pm = s.pm := rfl
@[simp] theorem State.turnTaken_peer (v : List Turn) (s : State) :
    (State.turnTaken v s).peer = s.peer := rfl
@[simp] theorem State.turnTaken_txLog2 (v : List Turn) (s : State) :
    (State.turnTaken v s).txLog2 = s.txLog2 := rfl
@[simp] theorem State.turnTaken_rxLog2 (v : List Turn) (s : State) :
    (State.turnTaken v s).rxLog2 = s.rxLog2 := rfl
@[simp] theorem State.turnTaken_wire (v : List Turn) (s : State) :
    (State.turnTaken v s).wire = s.wire := rfl
@[simp] theorem State.turnTaken_env (v : List Turn) (s : State) :
    (State.turnTaken v s).env = s.env := rfl
@[simp] theorem State.turnTaken_draws (v : List Turn) (s : State) :
    (State.turnTaken v s).draws = s.draws := rfl
@[simp] theorem State.turnTaken_program (v : List Turn) (s : State) :
    (State.turnTaken v s).program = s.program := rfl
@[simp] theorem State.turnTaken_task (v : List Turn) (s : State) :
    (State.turnTaken v s).task = s.task := rfl
@[simp] theorem State.turnTaken_parked (v : List Turn) (s : State) :
    (State.turnTaken v s).parked = s.parked := rfl
@[simp] theorem State.turnTaken_turns (v : List Turn) (s : State) :
    (State.turnTaken v s).turns = v := rfl
@[simp] theorem State.turnTaken_results (v : List Turn) (s : State) :
    (State.turnTaken v s).results = s.results := rfl

/-! ### parks -/

@[simp] theorem State.parks_sel (s : State) :
    (s.parks).sel = s.sel := rfl
@[simp] theorem State.parks_phase (s : State) :
    (s.parks).phase = s.phase := rfl
@[simp] theorem State.parks_idx (s : State) :
    (s.parks).idx = s.idx := rfl
@[simp] theorem State.parks_dir (s : State) :
    (s.parks).dir = s.dir := rfl
@[simp] theorem State.parks_bsb (s : State) :
    (s.parks).bsb = s.bsb := rfl
@[simp] theorem State.parks_off (s : State) :
    (s.parks).off = s.off := rfl
@[simp] theorem State.parks_len (s : State) :
    (s.parks).len = s.len := rfl
@[simp] theorem State.parks_hdrb (s : State) :
    (s.parks).hdrb = s.hdrb := rfl
@[simp] theorem State.parks_res (s : State) :
    (s.parks).res = s.res := rfl
@[simp] theorem State.parks_wdata (s : State) :
    (s.parks).wdata = s.wdata := rfl
@[simp] theorem State.parks_rdata (s : State) :
    (s.parks).rdata = s.rdata := rfl
@[simp] theorem State.parks_resp (s : State) :
    (s.parks).resp = s.resp := rfl
@[simp] theorem State.parks_trace (s : State) :
    (s.parks).trace = s.trace := rfl
@[simp] theorem State.parks_pm (s : State) :
    (s.parks).pm = s.pm := rfl
@[simp] theorem State.parks_peer (s : State) :
    (s.parks).peer = s.peer := rfl
@[simp] theorem State.parks_txLog2 (s : State) :
    (s.parks).txLog2 = s.txLog2 := rfl
@[simp] theorem State.parks_rxLog2 (s : State) :
    (s.parks).rxLog2 = s.rxLog2 := rfl
@[simp] theorem State.parks_wire (s : State) :
    (s.parks).wire = s.wire := rfl
@[simp] theorem State.parks_env (s : State) :
    (s.parks).env = s.env := rfl
@[simp] theorem State.parks_draws (s : State) :
    (s.parks).draws = s.draws := rfl
@[simp] theorem State.parks_program (s : State) :
    (s.parks).program = s.program := rfl
@[simp] theorem State.parks_task (s : State) :
    (s.parks).task = none := rfl
@[simp] theorem State.parks_parked (s : State) :
    (s.parks).parked = s.parked ++ s.task.toList := rfl
@[simp] theorem State.parks_turns (s : State) :
    (s.parks).turns = s.turns := rfl
@[simp] theorem State.parks_results (s : State) :
    (s.parks).results = s.results := rfl

/-! ### losePeer -/

@[simp] theorem State.losePeer_sel (s : State) :
    (s.losePeer).sel = s.sel := rfl
@[simp] theorem State.losePeer_phase (s : State) :
    (s.losePeer).phase = s.phase := rfl
@[simp] theorem State.losePeer_idx (s : State) :
    (s.losePeer).idx = s.idx := rfl
@[simp] theorem State.losePeer_dir (s : State) :
    (s.losePeer).dir = s.dir := rfl
@[simp] theorem State.losePeer_bsb (s : State) :
    (s.losePeer).bsb = s.bsb := rfl
@[simp] theorem State.losePeer_off (s : State) :
    (s.losePeer).off = s.off := rfl
@[simp] theorem State.losePeer_len (s : State) :
    (s.losePeer).len = s.len := rfl
@[simp] theorem State.losePeer_hdrb (s : State) :
    (s.losePeer).hdrb = s.hdrb := rfl
@[simp] theorem State.losePeer_res (s : State) :
    (s.losePeer).res = s.res := rfl
@[simp] theorem State.losePeer_wdata (s : State) :
    (s.losePeer).wdata = s.wdata := rfl
@[simp] theorem State.losePeer_rdata (s : State) :
    (s.losePeer).rdata = s.rdata := rfl
@[simp] theorem State.losePeer_resp (s : State) :
    (s.losePeer).resp = s.resp := rfl
@[simp] theorem State.losePeer_trace (s : State) :
    (s.losePeer).trace = s.trace := rfl
@[simp] theorem State.losePeer_pm (s : State) :
    (s.losePeer).pm = [] := rfl
@[simp] theorem State.losePeer_peer (s : State) :
    (s.losePeer).peer = .lost := rfl
@[simp] theorem State.losePeer_txLog2 (s : State) :
    (s.losePeer).txLog2 = s.txLog2 := rfl
@[simp] theorem State.losePeer_rxLog2 (s : State) :
    (s.losePeer).rxLog2 = s.rxLog2 := rfl
@[simp] theorem State.losePeer_wire (s : State) :
    (s.losePeer).wire = s.wire := rfl
@[simp] theorem State.losePeer_env (s : State) :
    (s.losePeer).env = s.env := rfl
@[simp] theorem State.losePeer_draws (s : State) :
    (s.losePeer).draws = s.draws := rfl
@[simp] theorem State.losePeer_program (s : State) :
    (s.losePeer).program = s.program := rfl
@[simp] theorem State.losePeer_task (s : State) :
    (s.losePeer).task = s.task := rfl
@[simp] theorem State.losePeer_parked (s : State) :
    (s.losePeer).parked = s.parked := rfl
@[simp] theorem State.losePeer_turns (s : State) :
    (s.losePeer).turns = s.turns := rfl
@[simp] theorem State.losePeer_results (s : State) :
    (s.losePeer).results = s.results := rfl

/-! ### peerMoves -/

@[simp] theorem State.peerMoves_sel (s : State) :
    (s.peerMoves).sel = s.sel := rfl
@[simp] theorem State.peerMoves_phase (s : State) :
    (s.peerMoves).phase = s.phase := rfl
@[simp] theorem State.peerMoves_idx (s : State) :
    (s.peerMoves).idx = s.idx := rfl
@[simp] theorem State.peerMoves_dir (s : State) :
    (s.peerMoves).dir = s.dir := rfl
@[simp] theorem State.peerMoves_bsb (s : State) :
    (s.peerMoves).bsb = s.bsb := rfl
@[simp] theorem State.peerMoves_off (s : State) :
    (s.peerMoves).off = s.off := rfl
@[simp] theorem State.peerMoves_len (s : State) :
    (s.peerMoves).len = s.len := rfl
@[simp] theorem State.peerMoves_hdrb (s : State) :
    (s.peerMoves).hdrb = s.hdrb := rfl
@[simp] theorem State.peerMoves_res (s : State) :
    (s.peerMoves).res = s.res := rfl
@[simp] theorem State.peerMoves_wdata (s : State) :
    (s.peerMoves).wdata = s.wdata := rfl
@[simp] theorem State.peerMoves_rdata (s : State) :
    (s.peerMoves).rdata = s.rdata := rfl
@[simp] theorem State.peerMoves_resp (s : State) :
    (s.peerMoves).resp = s.resp := rfl
@[simp] theorem State.peerMoves_trace (s : State) :
    (s.peerMoves).trace = s.trace := rfl
@[simp] theorem State.peerMoves_pm (s : State) :
    (s.peerMoves).pm = if s.peer = .lost then s.pm else pokeAll s.env s.pm := rfl
@[simp] theorem State.peerMoves_peer (s : State) :
    (s.peerMoves).peer = s.peer := rfl
@[simp] theorem State.peerMoves_txLog2 (s : State) :
    (s.peerMoves).txLog2 = s.txLog2 := rfl
@[simp] theorem State.peerMoves_rxLog2 (s : State) :
    (s.peerMoves).rxLog2 = s.rxLog2 := rfl
@[simp] theorem State.peerMoves_wire (s : State) :
    (s.peerMoves).wire = s.wire := rfl
@[simp] theorem State.peerMoves_env (s : State) :
    (s.peerMoves).env = dropPokes s.env := rfl
@[simp] theorem State.peerMoves_draws (s : State) :
    (s.peerMoves).draws = s.draws := rfl
@[simp] theorem State.peerMoves_program (s : State) :
    (s.peerMoves).program = s.program := rfl
@[simp] theorem State.peerMoves_task (s : State) :
    (s.peerMoves).task = s.task := rfl
@[simp] theorem State.peerMoves_parked (s : State) :
    (s.peerMoves).parked = s.parked := rfl
@[simp] theorem State.peerMoves_turns (s : State) :
    (s.peerMoves).turns = s.turns := rfl
@[simp] theorem State.peerMoves_results (s : State) :
    (s.peerMoves).results = s.results := rfl

/-! ### resetTaken -/

@[simp] theorem State.resetTaken_sel (s : State) :
    (s.resetTaken).sel = s.sel := rfl
@[simp] theorem State.resetTaken_phase (s : State) :
    (s.resetTaken).phase = s.phase := rfl
@[simp] theorem State.resetTaken_idx (s : State) :
    (s.resetTaken).idx = s.idx := rfl
@[simp] theorem State.resetTaken_dir (s : State) :
    (s.resetTaken).dir = s.dir := rfl
@[simp] theorem State.resetTaken_bsb (s : State) :
    (s.resetTaken).bsb = s.bsb := rfl
@[simp] theorem State.resetTaken_off (s : State) :
    (s.resetTaken).off = s.off := rfl
@[simp] theorem State.resetTaken_len (s : State) :
    (s.resetTaken).len = s.len := rfl
@[simp] theorem State.resetTaken_hdrb (s : State) :
    (s.resetTaken).hdrb = s.hdrb := rfl
@[simp] theorem State.resetTaken_res (s : State) :
    (s.resetTaken).res = s.res := rfl
@[simp] theorem State.resetTaken_wdata (s : State) :
    (s.resetTaken).wdata = s.wdata := rfl
@[simp] theorem State.resetTaken_rdata (s : State) :
    (s.resetTaken).rdata = s.rdata := rfl
@[simp] theorem State.resetTaken_resp (s : State) :
    (s.resetTaken).resp = s.resp := rfl
@[simp] theorem State.resetTaken_trace (s : State) :
    (s.resetTaken).trace = s.trace := rfl
@[simp] theorem State.resetTaken_pm (s : State) :
    (s.resetTaken).pm = if s.peer = .lost then s.pm else pokeAll s.env s.pm := rfl
@[simp] theorem State.resetTaken_peer (s : State) :
    (s.resetTaken).peer = s.peer := rfl
@[simp] theorem State.resetTaken_txLog2 (s : State) :
    (s.resetTaken).txLog2 = s.txLog2 := rfl
@[simp] theorem State.resetTaken_rxLog2 (s : State) :
    (s.resetTaken).rxLog2 = s.rxLog2 := rfl
@[simp] theorem State.resetTaken_wire (s : State) :
    (s.resetTaken).wire = s.wire := rfl
@[simp] theorem State.resetTaken_env (s : State) :
    (s.resetTaken).env = (dropPokes s.env).tail := rfl
@[simp] theorem State.resetTaken_draws (s : State) :
    (s.resetTaken).draws = s.draws := rfl
@[simp] theorem State.resetTaken_program (s : State) :
    (s.resetTaken).program = s.program := rfl
@[simp] theorem State.resetTaken_task (s : State) :
    (s.resetTaken).task = s.task := rfl
@[simp] theorem State.resetTaken_parked (s : State) :
    (s.resetTaken).parked = s.parked := rfl
@[simp] theorem State.resetTaken_turns (s : State) :
    (s.resetTaken).turns = s.turns := rfl
@[simp] theorem State.resetTaken_results (s : State) :
    (s.resetTaken).results = s.results := rfl

/-! ### release -/

@[simp] theorem State.release_sel (s : State) :
    (s.release).sel = .released := rfl
@[simp] theorem State.release_phase (s : State) :
    (s.release).phase = s.phase := rfl
@[simp] theorem State.release_idx (s : State) :
    (s.release).idx = s.idx := rfl
@[simp] theorem State.release_dir (s : State) :
    (s.release).dir = s.dir := rfl
@[simp] theorem State.release_bsb (s : State) :
    (s.release).bsb = s.bsb := rfl
@[simp] theorem State.release_off (s : State) :
    (s.release).off = s.off := rfl
@[simp] theorem State.release_len (s : State) :
    (s.release).len = s.len := rfl
@[simp] theorem State.release_hdrb (s : State) :
    (s.release).hdrb = s.hdrb := rfl
@[simp] theorem State.release_res (s : State) :
    (s.release).res = s.res := rfl
@[simp] theorem State.release_wdata (s : State) :
    (s.release).wdata = s.wdata := rfl
@[simp] theorem State.release_rdata (s : State) :
    (s.release).rdata = s.rdata := rfl
@[simp] theorem State.release_resp (s : State) :
    (s.release).resp = s.resp := rfl
@[simp] theorem State.release_trace (s : State) :
    (s.release).trace = s.trace ++ [.selR] := rfl
@[simp] theorem State.release_pm (s : State) :
    (s.release).pm = if s.peer = .lost then s.pm else pokeAll s.env s.pm := rfl
@[simp] theorem State.release_peer (s : State) :
    (s.release).peer = s.peer := rfl
@[simp] theorem State.release_txLog2 (s : State) :
    (s.release).txLog2 = s.txLog2 := rfl
@[simp] theorem State.release_rxLog2 (s : State) :
    (s.release).rxLog2 = s.rxLog2 := rfl
@[simp] theorem State.release_wire (s : State) :
    (s.release).wire = s.wire := rfl
@[simp] theorem State.release_env (s : State) :
    (s.release).env = dropPokes s.env := rfl
@[simp] theorem State.release_draws (s : State) :
    (s.release).draws = s.draws := rfl
@[simp] theorem State.release_program (s : State) :
    (s.release).program = s.program := rfl
@[simp] theorem State.release_task (s : State) :
    (s.release).task = s.task := rfl
@[simp] theorem State.release_parked (s : State) :
    (s.release).parked = s.parked := rfl
@[simp] theorem State.release_turns (s : State) :
    (s.release).turns = s.turns := rfl
@[simp] theorem State.release_results (s : State) :
    (s.release).results = s.results := rfl

/-! ### finish -/

@[simp] theorem State.finish_sel (r : HostResult) (s : State) :
    (State.finish r s).sel = s.sel := rfl
@[simp] theorem State.finish_phase (r : HostResult) (s : State) :
    (State.finish r s).phase = s.phase := rfl
@[simp] theorem State.finish_idx (r : HostResult) (s : State) :
    (State.finish r s).idx = s.idx := rfl
@[simp] theorem State.finish_dir (r : HostResult) (s : State) :
    (State.finish r s).dir = s.dir := rfl
@[simp] theorem State.finish_bsb (r : HostResult) (s : State) :
    (State.finish r s).bsb = s.bsb := rfl
@[simp] theorem State.finish_off (r : HostResult) (s : State) :
    (State.finish r s).off = s.off := rfl
@[simp] theorem State.finish_len (r : HostResult) (s : State) :
    (State.finish r s).len = s.len := rfl
@[simp] theorem State.finish_hdrb (r : HostResult) (s : State) :
    (State.finish r s).hdrb = s.hdrb := rfl
@[simp] theorem State.finish_res (r : HostResult) (s : State) :
    (State.finish r s).res = s.res := rfl
@[simp] theorem State.finish_wdata (r : HostResult) (s : State) :
    (State.finish r s).wdata = s.wdata := rfl
@[simp] theorem State.finish_rdata (r : HostResult) (s : State) :
    (State.finish r s).rdata = s.rdata := rfl
@[simp] theorem State.finish_resp (r : HostResult) (s : State) :
    (State.finish r s).resp = s.resp := rfl
@[simp] theorem State.finish_trace (r : HostResult) (s : State) :
    (State.finish r s).trace = s.trace := rfl
@[simp] theorem State.finish_pm (r : HostResult) (s : State) :
    (State.finish r s).pm = s.pm := rfl
@[simp] theorem State.finish_peer (r : HostResult) (s : State) :
    (State.finish r s).peer = s.peer := rfl
@[simp] theorem State.finish_txLog2 (r : HostResult) (s : State) :
    (State.finish r s).txLog2 = s.txLog2 := rfl
@[simp] theorem State.finish_rxLog2 (r : HostResult) (s : State) :
    (State.finish r s).rxLog2 = s.rxLog2 := rfl
@[simp] theorem State.finish_wire (r : HostResult) (s : State) :
    (State.finish r s).wire = s.wire := rfl
@[simp] theorem State.finish_env (r : HostResult) (s : State) :
    (State.finish r s).env = s.env := rfl
@[simp] theorem State.finish_draws (r : HostResult) (s : State) :
    (State.finish r s).draws = s.draws := rfl
@[simp] theorem State.finish_program (r : HostResult) (s : State) :
    (State.finish r s).program = s.program := rfl
@[simp] theorem State.finish_task (r : HostResult) (s : State) :
    (State.finish r s).task = none := rfl
@[simp] theorem State.finish_parked (r : HostResult) (s : State) :
    (State.finish r s).parked = s.parked := rfl
@[simp] theorem State.finish_turns (r : HostResult) (s : State) :
    (State.finish r s).turns = s.turns := rfl
@[simp] theorem State.finish_results (r : HostResult) (s : State) :
    (State.finish r s).results = s.results ++ [r] := rfl

/-! ### fteStart -/

@[simp] theorem fteStart_sel (d : Dir) (b : Block) (o n : Half) (wd : List Byte) (s : State) :
    (fteStart d b o n wd s).sel = .asserted := rfl
@[simp] theorem fteStart_phase (d : Dir) (b : Block) (o n : Half) (wd : List Byte) (s : State) :
    (fteStart d b o n wd s).phase = .hdr := rfl
@[simp] theorem fteStart_idx (d : Dir) (b : Block) (o n : Half) (wd : List Byte) (s : State) :
    (fteStart d b o n wd s).idx = 0 := rfl
@[simp] theorem fteStart_dir (d : Dir) (b : Block) (o n : Half) (wd : List Byte) (s : State) :
    (fteStart d b o n wd s).dir = d := rfl
@[simp] theorem fteStart_bsb (d : Dir) (b : Block) (o n : Half) (wd : List Byte) (s : State) :
    (fteStart d b o n wd s).bsb = b := rfl
@[simp] theorem fteStart_off (d : Dir) (b : Block) (o n : Half) (wd : List Byte) (s : State) :
    (fteStart d b o n wd s).off = o := rfl
@[simp] theorem fteStart_len (d : Dir) (b : Block) (o n : Half) (wd : List Byte) (s : State) :
    (fteStart d b o n wd s).len = n := count_std n
@[simp] theorem fteStart_hdrb (d : Dir) (b : Block) (o n : Half) (wd : List Byte) (s : State) :
    (fteStart d b o n wd s).hdrb = hdrEnc Config.std o b d := rfl
@[simp] theorem fteStart_res (d : Dir) (b : Block) (o n : Half) (wd : List Byte) (s : State) :
    (fteStart d b o n wd s).res = .none := rfl
@[simp] theorem fteStart_wdata (d : Dir) (b : Block) (o n : Half) (wd : List Byte) (s : State) :
    (fteStart d b o n wd s).wdata = wd := rfl
@[simp] theorem fteStart_rdata (d : Dir) (b : Block) (o n : Half) (wd : List Byte) (s : State) :
    (fteStart d b o n wd s).rdata = [] := rfl
@[simp] theorem fteStart_resp (d : Dir) (b : Block) (o n : Half) (wd : List Byte) (s : State) :
    (fteStart d b o n wd s).resp = s.resp := rfl
@[simp] theorem fteStart_trace (d : Dir) (b : Block) (o n : Half) (wd : List Byte) (s : State) :
    (fteStart d b o n wd s).trace = s.trace ++ [.selA] := rfl
@[simp] theorem fteStart_pm (d : Dir) (b : Block) (o n : Half) (wd : List Byte) (s : State) :
    (fteStart d b o n wd s).pm = s.pm := rfl
@[simp] theorem fteStart_peer (d : Dir) (b : Block) (o n : Half) (wd : List Byte) (s : State) :
    (fteStart d b o n wd s).peer = s.peer := rfl
@[simp] theorem fteStart_txLog2 (d : Dir) (b : Block) (o n : Half) (wd : List Byte) (s : State) :
    (fteStart d b o n wd s).txLog2 = s.txLog2 := rfl
@[simp] theorem fteStart_rxLog2 (d : Dir) (b : Block) (o n : Half) (wd : List Byte) (s : State) :
    (fteStart d b o n wd s).rxLog2 = s.rxLog2 := rfl
@[simp] theorem fteStart_wire (d : Dir) (b : Block) (o n : Half) (wd : List Byte) (s : State) :
    (fteStart d b o n wd s).wire = s.wire := rfl
@[simp] theorem fteStart_env (d : Dir) (b : Block) (o n : Half) (wd : List Byte) (s : State) :
    (fteStart d b o n wd s).env = s.env := rfl
@[simp] theorem fteStart_draws (d : Dir) (b : Block) (o n : Half) (wd : List Byte) (s : State) :
    (fteStart d b o n wd s).draws = s.draws := rfl
@[simp] theorem fteStart_program (d : Dir) (b : Block) (o n : Half) (wd : List Byte) (s : State) :
    (fteStart d b o n wd s).program = s.program := rfl
@[simp] theorem fteStart_task (d : Dir) (b : Block) (o n : Half) (wd : List Byte) (s : State) :
    (fteStart d b o n wd s).task = s.task := rfl
@[simp] theorem fteStart_parked (d : Dir) (b : Block) (o n : Half) (wd : List Byte) (s : State) :
    (fteStart d b o n wd s).parked = s.parked := rfl
@[simp] theorem fteStart_turns (d : Dir) (b : Block) (o n : Half) (wd : List Byte) (s : State) :
    (fteStart d b o n wd s).turns = s.turns := rfl
@[simp] theorem fteStart_results (d : Dir) (b : Block) (o n : Half) (wd : List Byte) (s : State) :
    (fteStart d b o n wd s).results = s.results := rfl

/-! ### fuReset -/

@[simp] theorem fuReset_sel (s : State) :
    (fuReset s).sel = .released := rfl
@[simp] theorem fuReset_phase (s : State) :
    (fuReset s).phase = .idle := rfl
@[simp] theorem fuReset_idx (s : State) :
    (fuReset s).idx = 0 := rfl
@[simp] theorem fuReset_dir (s : State) :
    (fuReset s).dir = .read := rfl
@[simp] theorem fuReset_bsb (s : State) :
    (fuReset s).bsb = 0 := rfl
@[simp] theorem fuReset_off (s : State) :
    (fuReset s).off = 0 := rfl
@[simp] theorem fuReset_len (s : State) :
    (fuReset s).len = 0 := rfl
@[simp] theorem fuReset_hdrb (s : State) :
    (fuReset s).hdrb = { h0 := 0, h1 := 0, h2 := 0 } := rfl
@[simp] theorem fuReset_res (s : State) :
    (fuReset s).res = .none := rfl
@[simp] theorem fuReset_wdata (s : State) :
    (fuReset s).wdata = s.wdata := rfl
@[simp] theorem fuReset_rdata (s : State) :
    (fuReset s).rdata = s.rdata := rfl
@[simp] theorem fuReset_resp (s : State) :
    (fuReset s).resp = s.resp := rfl
@[simp] theorem fuReset_trace (s : State) :
    (fuReset s).trace = if s.sel = .asserted then s.trace ++ [.selR] else s.trace := rfl
@[simp] theorem fuReset_pm (s : State) :
    (fuReset s).pm = s.pm := rfl
@[simp] theorem fuReset_peer (s : State) :
    (fuReset s).peer = s.peer := rfl
@[simp] theorem fuReset_txLog2 (s : State) :
    (fuReset s).txLog2 = s.txLog2 := rfl
@[simp] theorem fuReset_rxLog2 (s : State) :
    (fuReset s).rxLog2 = s.rxLog2 := rfl
@[simp] theorem fuReset_wire (s : State) :
    (fuReset s).wire = s.wire := rfl
@[simp] theorem fuReset_env (s : State) :
    (fuReset s).env = s.env := rfl
@[simp] theorem fuReset_draws (s : State) :
    (fuReset s).draws = s.draws := rfl
@[simp] theorem fuReset_program (s : State) :
    (fuReset s).program = s.program := rfl
@[simp] theorem fuReset_task (s : State) :
    (fuReset s).task = s.task := rfl
@[simp] theorem fuReset_parked (s : State) :
    (fuReset s).parked = s.parked := rfl
@[simp] theorem fuReset_turns (s : State) :
    (fuReset s).turns = s.turns := rfl
@[simp] theorem fuReset_results (s : State) :
    (fuReset s).results = s.results := rfl

/-! ### cut -/

@[simp] theorem State.cut_sel (s : State) :
    (s.cut).sel = .released := rfl
@[simp] theorem State.cut_phase (s : State) :
    (s.cut).phase = .idle := rfl
@[simp] theorem State.cut_idx (s : State) :
    (s.cut).idx = 0 := rfl
@[simp] theorem State.cut_dir (s : State) :
    (s.cut).dir = .read := rfl
@[simp] theorem State.cut_bsb (s : State) :
    (s.cut).bsb = 0 := rfl
@[simp] theorem State.cut_off (s : State) :
    (s.cut).off = 0 := rfl
@[simp] theorem State.cut_len (s : State) :
    (s.cut).len = 0 := rfl
@[simp] theorem State.cut_hdrb (s : State) :
    (s.cut).hdrb = { h0 := 0, h1 := 0, h2 := 0 } := rfl
@[simp] theorem State.cut_res (s : State) :
    (s.cut).res = .none := rfl
@[simp] theorem State.cut_wdata (s : State) :
    (s.cut).wdata = s.wdata := rfl
@[simp] theorem State.cut_rdata (s : State) :
    (s.cut).rdata = s.rdata := rfl
@[simp] theorem State.cut_resp (s : State) :
    (s.cut).resp = .cut := rfl
@[simp] theorem State.cut_trace (s : State) :
    (s.cut).trace = if s.sel = .asserted then s.trace ++ [.selR] else s.trace := rfl
@[simp] theorem State.cut_pm (s : State) :
    (s.cut).pm = s.pm := rfl
@[simp] theorem State.cut_peer (s : State) :
    (s.cut).peer = s.peer := rfl
@[simp] theorem State.cut_txLog2 (s : State) :
    (s.cut).txLog2 = s.txLog2 := rfl
@[simp] theorem State.cut_rxLog2 (s : State) :
    (s.cut).rxLog2 = s.rxLog2 := rfl
@[simp] theorem State.cut_wire (s : State) :
    (s.cut).wire = s.wire := rfl
@[simp] theorem State.cut_env (s : State) :
    (s.cut).env = s.env := rfl
@[simp] theorem State.cut_draws (s : State) :
    (s.cut).draws = s.draws := rfl
@[simp] theorem State.cut_program (s : State) :
    (s.cut).program = s.program := rfl
@[simp] theorem State.cut_task (s : State) :
    (s.cut).task = s.task := rfl
@[simp] theorem State.cut_parked (s : State) :
    (s.cut).parked = s.parked := rfl
@[simp] theorem State.cut_turns (s : State) :
    (s.cut).turns = s.turns := rfl
@[simp] theorem State.cut_results (s : State) :
    (s.cut).results = s.results := rfl

end Sys2Proof.Machine
end

