-- ==== Sys2Proof/Laws/Answers.lean ====
section
/-! SUPPORT. What each combinational operation answers at PHASE = IDLE (10_state.md R25): one lemma per operation, cited
instead of unfolding `exec`. -/

namespace Sys2Proof.Machine

theorem answer_idle (r : Response) (s : State) (h : s.phase = .idle) : answer r s = .next (s.returns r) := by
  simp [answer, atIdle, h]

/-- An operation has at most one answer. -/
theorem Answers.unique {i : Instr} {r r' : Response} (h : Answers i r) (h' : Answers i r') : r = r' := by
  have a := h State.reset rfl
  have b := h' State.reset rfl
  rw [a] at b
  have := congrArg (fun o => match o with | Host.Outcome.next (t : State) => t.resp | _ => Response.none) b
  exact this

theorem bsbDec_answers (b : Block) :
    Answers (.bsbDec b) (.blockFields (blockRegion b) (blockSock b) (blockAssigned b)) :=
  fun _ h => answer_idle _ _ h

theorem blockOp_answers (r : Region) (i : Sock) :
    Answers (blockOp r i) (.block (blockOf (if r = .common then 0 else i) r)) := by
  intro s h
  cases r <;> exact answer_idle _ _ h

theorem roff_answers (r : BitVec 4) (name : RegName) (hn : regNameOf r = some name) :
    Answers (.roff r) (.offset (Config.std.roff name)) := by
  intro s h
  simp only [exec, execRoff, hn, answer_idle _ _ h]

theorem raddr_answers (i : Sock) (r : BitVec 4) (name : RegName) (hn : regNameOf r = some name) :
    Answers (.raddr i r) (.address (blockOf i .sreg) (Config.std.roff name)) := by
  intro s h
  simp only [exec, execRaddr, hn, answer_idle _ _ h, regAddr]

theorem ctlEnc_answers (b : Block) (d : Dir) (om : BitVec 2) :
    Answers (.ctlEnc b d om) (.ctl (ctlEnc Config.std b d om)) := fun _ h => answer_idle _ _ h

theorem ctlDec_answers (c : Byte) : Answers (.ctlDec c) (.ctlFields (ctlDec Config.std c)) :=
  fun _ h => answer_idle _ _ h

theorem hdrEnc_answers (o : Half) (b : Block) (d : Dir) : Answers (.hdrEnc o b d) (.header (hdrEnc Config.std o b d)) :=
  fun _ h => answer_idle _ _ h

theorem hdrDec_answers (h : Header) : Answers (.hdrDec h) (.headerFields (hdrDec Config.std h)) :=
  fun _ hs => answer_idle _ _ hs

theorem cpWrap_answers (p : Half) (sz : BitVec 4) : Answers (.cpWrap p sz) (.offset (cpWrap p sz)) :=
  fun _ h => answer_idle _ _ h

theorem cpAdv_answers (p n : Half) : Answers (.cpAdv p n) (.pointer (cpAdv p n)) := fun _ h => answer_idle _ _ h

theorem cpUnread_answers (wr rd : Half) : Answers (.cpUnread wr rd) (.count (cpUnread wr rd)) :=
  fun _ h => answer_idle _ _ h

theorem cpFree_answers (sz : BitVec 4) (wr rd : Half) :
    Answers (.cpFree sz wr rd) (.free (cpFree sz wr rd) (cpFreeValid sz wr rd)) := fun _ h => answer_idle _ _ h

theorem cpSplit_answers (p l : Half) (sz : BitVec 4) : Answers (.cpSplit p l sz) (.split (cpSplit p l sz)) :=
  fun _ h => answer_idle _ _ h

theorem frameParse_short_answers (t : List (Byte × Byte)) (h : t.length < 3) : Answers (.frameParse t) .noFrame := by
  intro s hs
  rcases t with _ | ⟨a, _ | ⟨b, _ | ⟨c, t⟩⟩⟩
  · exact answer_idle _ _ hs
  · exact answer_idle _ _ hs
  · exact answer_idle _ _ hs
  · simp at h; omega

theorem frameParse_answers (x0 x1 x2 : Byte × Byte) (xs : List (Byte × Byte))
    (h : (hdrDec Config.std { h0 := x0.1, h1 := x1.1, h2 := x2.1 }).om = Config.std.omVdm) :
    Answers (.frameParse (x0 :: x1 :: x2 :: xs))
      (parsedFrame (hdrDec Config.std { h0 := x0.1, h1 := x1.1, h2 := x2.1 }) xs) := by
  intro s hs
  simp only [exec, execFrameParse, h, if_true, answer_idle _ _ hs]

/-- FRAME.PARSE refuses a header in another length mode (R159). -/
theorem frameParse_badMode (x0 x1 x2 : Byte × Byte) (xs : List (Byte × Byte))
    (h : (hdrDec Config.std { h0 := x0.1, h1 := x1.1, h2 := x2.1 }).om ≠ Config.std.omVdm) (s : State)
    (hs : s.phase = .idle) : exec (.frameParse (x0 :: x1 :: x2 :: xs)) s = .refused .badMode := by
  simp only [exec, execFrameParse, h, if_false, atIdle, hs]

/-- A frame operation at PHASE = IDLE runs a whole frame (R153, R154). -/
theorem exec_frameOp (d : Dir) (b : Block) (o n : Half) (wd : List Byte) (s : State) (h : s.phase = .idle) :
    exec (frameOp d b o n wd) s =
      .next (runFrame d b o n (match d with | .read => [] | .write => wd) s) := by
  cases d <;> simp [frameOp, exec, execFrameRd, execFrameWr, atIdle, h]

theorem exec_frameWr (b : Block) (o n : Half) (wd : List Byte) (s : State) (h : s.phase = .idle) :
    exec (.frameWr b o n wd) s = .next (runFrame .write b o n wd s) := exec_frameOp .write b o n wd s h

theorem exec_frameRd (b : Block) (o n : Half) (s : State) (h : s.phase = .idle) :
    exec (.frameRd b o n) s = .next (runFrame .read b o n [] s) := exec_frameOp .read b o n [] s h

/-- A buffer transfer that fits runs its one or two frames (R176, R177). -/
theorem exec_cbRd (b : Block) (p l : Half) (sz : BitVec 4) (s : State) (h : s.phase = .idle)
    (hf : l.toNat ≤ bufSize sz) :
    exec (.cbRd b p l sz) s = .next (splitTransfer .read b l (cpSplit p l sz) [] s) := by
  simp [exec, execCbRd, bufferTransfer, atIdle, h, (cpSplit_spec p l sz).2.1, hf]

theorem exec_cbWr (b : Block) (p l : Half) (sz : BitVec 4) (wd : List Byte) (s : State) (h : s.phase = .idle)
    (hf : l.toNat ≤ bufSize sz) :
    exec (.cbWr b p l sz wd) s = .next (splitTransfer .write b l (cpSplit p l sz) wd s) := by
  simp [exec, execCbWr, bufferTransfer, atIdle, h, (cpSplit_spec p l sz).2.1, hf]

/-- The class of an encoded header of an assigned block (R92). -/
theorem wireInstr_enc : ∀ (r : Region) (i : Sock) (d : Dir) (off : Half), (r = .common → i = 0) →
    wireInstr (hdrEnc Config.std off (blockOf i r) d) = wireOp r d i off := by
  intro r i d off hr
  unfold wireInstr
  rw [hdrDec_hdrEnc]
  simp only [wireHeader, wireClass, blockRegion_blockOf, blockSock_blockOf]
  have : Config.std.omVdm = 0 := rfl
  rw [this]
  cases r <;> cases d <;> simp [wireOp, hr]

theorem decodeRest_enc (r : Region) (i : Sock) (d : Dir) (off : Half) (hr : r = .common → i = 0) (rest : List Byte) :
    decodeRest (.wire (headerBytes (hdrEnc Config.std off (blockOf i r) d) ++ rest)) = .ok (wireOp r d i off, rest) := by
  rw [← wireInstr_enc r i d off hr]
  rfl

/-- A read class is the peer's read frame of its block (R161 to R167). -/
theorem exec_wireRead (r : Region) (i : Sock) (off : Half) (hr : r = .common → i = 0) (s : State) :
    exec (wireOp r .read i off) s = peerReadFrame (blockOf i r) off s := by
  cases r
  · rw [hr rfl]; rfl
  all_goals rfl

/-- A write class is the peer's write frame of its block (R162 to R168). -/
theorem exec_wireWrite (r : Region) (i : Sock) (off : Half) (hr : r = .common → i = 0) (s : State) :
    exec (wireOp r .write i off) s = peerWriteFrame (blockOf i r) off s := by
  cases r
  · rw [hr rfl]; rfl
  all_goals rfl

end Sys2Proof.Machine
end

