-- ==== Sys2Proof/Laws/Memory.lean ====
section
/-! SUPPORT. The peer's memory: a read after a write, and the canonical form kept by every operation. -/

namespace Sys2Proof.Machine

theorem Memory.get_set_same (m : List Host.Cell) (a : Nat) (v : Byte) : Memory.get (Memory.set m a v) a = some v := by
  induction m with
  | nil => simp [Memory.set, Memory.get]
  | cons c rest ih =>
    obtain ⟨k, w⟩ := c
    simp only [Memory.set]
    split
    · simp [Memory.get]
    · split
      · simp [Memory.get]
      · rename_i h2; simp [Memory.get, h2, ih]

theorem Memory.get_set_other (m : List Host.Cell) (a b : Nat) (v : Byte) (h : b ≠ a) :
    Memory.get (Memory.set m a v) b = Memory.get m b := by
  induction m with
  | nil => simp [Memory.set, Memory.get, h]
  | cons c rest ih =>
    obtain ⟨k, w⟩ := c
    simp only [Memory.set]
    split
    · simp [Memory.get, h]
    · split
      · rename_i h2; subst h2; simp [Memory.get, h]
      · simp [Memory.get, ih]

/-- Reading any key after one store. -/
theorem Memory.get_set (m : List Host.Cell) (a b : Nat) (v : Byte) :
    Memory.get (Memory.set m a v) b = if b = a then some v else Memory.get m b := by
  by_cases h : b = a
  · subst h; simp [Memory.get_set_same]
  · simp [h, Memory.get_set_other m a b v h]

/-- Reading any key after a byte string has been stored at ascending keys. -/
theorem Memory.get_setAll (vs : List Byte) : ∀ (m : List Host.Cell) (a b : Nat),
    Memory.get (Memory.setAll m a vs) b =
      if a ≤ b ∧ b < a + vs.length then vs[b - a]? else Memory.get m b := by
  induction vs with
  | nil => intro m a b; rw [Memory.setAll, if_neg (by simp only [List.length_nil]; omega)]
  | cons v vs ih =>
    intro m a b
    rw [Memory.setAll, ih, Memory.get_set]
    by_cases hb : b = a
    · subst hb
      rw [if_neg (by omega), if_pos rfl, if_pos (by simp)]
      simp
    · by_cases h1 : a + 1 ≤ b ∧ b < a + 1 + vs.length
      · rw [if_pos h1, if_pos (by simp only [List.length_cons]; omega)]
        obtain ⟨k, rfl⟩ : ∃ k, b = a + 1 + k := ⟨b - (a + 1), by omega⟩
        rw [show a + 1 + k - (a + 1) = k by omega, show a + 1 + k - a = k + 1 by omega, List.getElem?_cons_succ]
      · rw [if_neg h1, if_neg hb, if_neg (by simp only [List.length_cons]; omega)]

/-- A store adds no key but its own. -/
theorem Memory.mem_set (m : List Host.Cell) (a : Nat) (v : Byte) (c : Host.Cell) (h : c ∈ Memory.set m a v) :
    c = (a, v) ∨ c ∈ m := by
  induction m with
  | nil => simp [Memory.set] at h; exact .inl h
  | cons d rest ih =>
    obtain ⟨k, w⟩ := d
    simp only [Memory.set] at h
    split at h
    · simpa [or_assoc] using h
    · split at h
      · simp only [List.mem_cons] at h
        exact h.imp id fun h => List.mem_cons.2 (.inr h)
      · simp only [List.mem_cons] at h
        rcases h with rfl | h
        · exact .inr (by simp)
        · exact (ih h).imp id (fun h => by simp [h])

theorem Memory.wf_nil : Memory.wf [] := ⟨.nil, by simp⟩

/-- A store inside the peer's space keeps the canonical form. -/
theorem Memory.wf_set (m : List Host.Cell) (a : Nat) (v : Byte) (hm : Memory.wf m) (ha : a < 2097152) :
    Memory.wf (Memory.set m a v) := by
  refine ⟨?_, fun c hc => ?_⟩
  · replace hm := hm.1
    induction m with
    | nil => simp [Memory.set]
    | cons d rest ih =>
      obtain ⟨k, w⟩ := d
      rw [List.pairwise_cons] at hm
      simp only [Memory.set]
      split
      · rename_i h
        refine List.Pairwise.cons (fun c hc => ?_) (List.Pairwise.cons hm.1 hm.2)
        rcases List.mem_cons.1 hc with rfl | hc
        · exact h
        · exact Nat.lt_trans h (hm.1 c hc)
      · split
        · rename_i h; subst h
          exact List.Pairwise.cons (fun c hc => hm.1 c hc) hm.2
        · rename_i h1 h2
          refine List.Pairwise.cons (fun c hc => ?_) (ih hm.2)
          rcases Memory.mem_set _ _ _ _ hc with rfl | hc
          · show k < a; omega
          · exact hm.1 c hc
  · rcases Memory.mem_set _ _ _ _ hc with rfl | hc
    · exact ha
    · exact hm.2 c hc

/-- Storing a byte string inside the peer's space keeps the canonical form. -/
theorem Memory.wf_setAll (vs : List Byte) : ∀ (m : List Host.Cell) (a : Nat), Memory.wf m → a + vs.length ≤ 2097152 →
    Memory.wf (Memory.setAll m a vs) := by
  induction vs with
  | nil => intro m a hm _; exact hm
  | cons v vs ih =>
    intro m a hm h
    simp only [List.length_cons] at h
    exact ih _ _ (Memory.wf_set m a v hm (by omega)) (by omega)

theorem byteKey_lt (b : Block) (o : Nat) (h : o < 65536) : byteKey b o < 2097152 := by
  have := b.isLt
  simp only [byteKey]
  omega

/-- Two bytes of the peer have one key only if they are one byte: the blocks are disjoint (R51). -/
theorem byteKey_inj (b b' : Block) (o o' : Half) (h : byteKey b o.toNat = byteKey b' o'.toNat) : b = b' ∧ o = o' := by
  have := o.isLt
  have := o'.isLt
  simp only [byteKey] at h
  constructor
  · apply BitVec.eq_of_toNat_eq; omega
  · apply BitVec.eq_of_toNat_eq; omega

/-- The peer's engine keeps the canonical form. -/
theorem pokeAll_wf (env : List EnvEvent) : ∀ m, Memory.wf m → Memory.wf (pokeAll env m) := by
  induction env with
  | nil => intro m hm; exact hm
  | cons ev rest ih =>
    intro m hm
    cases ev with
    | poke b o v => exact ih _ (Memory.wf_set m _ v hm (byteKey_lt b o.toNat o.isLt))
    | _ => exact hm

/-- The peer's engine changes only the keys it names. -/
theorem pokeAll_get (env : List EnvEvent) (a : Nat) (h : a ∉ pokedKeys env) :
    ∀ m, Memory.get (pokeAll env m) a = Memory.get m a := by
  induction env with
  | nil => intro m; rfl
  | cons ev rest ih =>
    intro m
    cases ev with
    | poke b o v =>
      simp only [pokedKeys, List.mem_cons, not_or] at h
      rw [pokeAll, ih h.2, Memory.get_set_other _ _ _ _ h.1]
    | _ => rfl

theorem dropPokes_pokedKeys (env : List EnvEvent) (a : Nat) (h : a ∉ pokedKeys env) : a ∉ pokedKeys (dropPokes env) := by
  induction env with
  | nil => exact h
  | cons ev rest ih =>
    cases ev with
    | poke b o v => simp only [pokedKeys, List.mem_cons, not_or] at h; exact ih h.2
    | _ => exact h

theorem firstStop_dropPokes (env : List EnvEvent) (n : Nat) : firstStop (dropPokes env) n = firstStop env n := by
  induction env with
  | nil => rfl
  | cons ev rest ih => cases ev <;> simp [dropPokes, firstStop, ih]

theorem succeeding_dropPokes (env : List EnvEvent) (n : Nat) : succeeding (dropPokes env) n = succeeding env n := by
  induction env with
  | nil => rfl
  | cons ev rest ih => cases ev <;> simp [dropPokes, succeeding, ih]

theorem reachedCount_dropPokes (env : List EnvEvent) (n : Nat) :
    reachedCount (dropPokes env) n = reachedCount env n := by
  induction env with
  | nil => rfl
  | cons ev rest ih => cases ev <;> simp [dropPokes, reachedCount, ih]

theorem reachedCount_zero (v : List EnvEvent) : reachedCount v 0 = 0 := by
  induction v with
  | nil => rfl
  | cons ev rest ih => cases ev <;> simp [reachedCount, ih]

theorem dropPokes_quiet (env : List EnvEvent) (h : Quiet env) : dropPokes env = env := by
  cases env with
  | nil => rfl
  | cons ev rest => have := h ev (by simp); subst this; rfl

theorem pokeAll_quiet (env : List EnvEvent) (m : List Host.Cell) (h : Quiet env) : pokeAll env m = m := by
  cases env with
  | nil => rfl
  | cons ev rest => have := h ev (by simp); subst this; rfl

end Sys2Proof.Machine
end

