-- ==== Sys2Proof/Laws/Engine.lean ====
section
/-! SUPPORT. What one byte exchange, one step of the frame transport engine and one whole frame do: one lemma per shared
operation, cited instead of unfolding it. -/

namespace Sys2Proof.Machine

/-! ### The peer's side of a byte -/

/-- A byte that reaches the peer changes nothing but the peer's memory, its status and the count of draws. -/
theorem peerSees_changes (t : Byte) (s : State) :
    (s.peerSees t).2 =
      { s with pm := (s.peerSees t).2.pm, peer := (s.peerSees t).2.peer, draws := (s.peerSees t).2.draws } := by
  unfold State.peerSees State.peerData State.peerJudges
  split
  · split <;> rfl
  · simp only []
    split
    · split <;> rfl
    · rfl
  · rfl

/-! ### One exchange -/

/-- What the peer may do with a byte: change its memory, its status and the count of draws. -/
def PeerOnly (peer : State → Byte × State) : Prop :=
  ∀ s, (peer s).2 = { s with pm := (peer s).2.pm, peer := (peer s).2.peer, draws := (peer s).2.draws }

theorem peerSees_peerOnly (t : Byte) : PeerOnly (State.peerSees t) := peerSees_changes t

theorem peerData_peerOnly (f : HdrFields) (k : Nat) (t : Byte) : PeerOnly (State.peerData f k t) := by
  intro s
  unfold State.peerData
  split <;> rfl

theorem arrives_changes (reached : Bool) (peer : State → Byte × State) (hp : PeerOnly peer) (s : State) :
    arrives reached peer s = { s with
      pm := (arrives reached peer s).pm, peer := (arrives reached peer s).peer, draws := (arrives reached peer s).draws } := by
  cases reached
  · rfl
  · exact hp s

theorem arrives_env (reached : Bool) (peer : State → Byte × State) (hp : PeerOnly peer) (s : State) :
    (arrives reached peer s).env = s.env := by rw [arrives_changes reached peer hp]

/-- An exchange changes nothing but the peer, the script and the count of draws (R12, R35, R63). -/
theorem xchgWith_changes (peer : State → Byte × State) (hp : PeerOnly peer) (s : State) :
    (xchgWith peer s).2 =
      { s with
        pm := (xchgWith peer s).2.pm
        peer := (xchgWith peer s).2.peer
        env := (xchgWith peer s).2.env
        draws := (xchgWith peer s).2.draws } := by
  unfold xchgWith
  split
  · rw [arrives_changes _ peer hp]; rfl
  · split
    · rw [arrives_changes _ peer hp]; rfl
    · rw [arrives_changes _ peer hp]; rfl
  · rw [arrives_changes _ peer hp]; rfl
  · rw [hp]; rfl
  · rw [hp]; rfl
  · rw [hp]; rfl

theorem PeerOnly.env {peer : State → Byte × State} (hp : PeerOnly peer) (s : State) : (peer s).2.env = s.env := by rw [hp s]

theorem dropPokes_not_poke (env : List EnvEvent) (b : Block) (o : Half) (v : Byte) (rest : List EnvEvent) :
    dropPokes env ≠ .poke b o v :: rest := by
  induction env with
  | nil => simp [dropPokes]
  | cons ev es ih => cases ev <;> simp_all [dropPokes]

/-- What becomes of an exchange is what the script says, and the script goes on behind it (R12, R149, R150, R252, R266). -/
theorem xchgWith_outcome (peer : State → Byte × State) (hp : PeerOnly peer) (s : State) (n : Nat) :
    match (xchgWith peer s).1 with
    | .ok _ => firstStop s.env (n + 1) = (firstStop (xchgWith peer s).2.env n).map (fun x => (x.1 + 1, x.2)) ∧
        succeeding s.env (n + 1) = succeeding (xchgWith peer s).2.env n + 1 ∧
        reachedCount s.env 1 = 1 ∧ reachedCount s.env (n + 1) = reachedCount (xchgWith peer s).2.env n + 1
    | .fail e => firstStop s.env (n + 1) = some (0, .fail e) ∧ succeeding s.env (n + 1) = 0 ∧
        reachedCount s.env (n + 1) = reachedCount s.env 1
    | .hung => firstStop s.env (n + 1) = some (0, .hang) ∧ succeeding s.env (n + 1) = 0 ∧
        reachedCount s.env (n + 1) = reachedCount s.env 1 ∧
        ∃ rest, (xchgWith peer s).2.env = .hang false :: rest ∧ resetNext rest = false
    | .cut => firstStop s.env (n + 1) = some (0, .reset) ∧ succeeding s.env (n + 1) = 0 ∧
        reachedCount s.env (n + 1) = reachedCount s.env 1 := by
  rw [← firstStop_dropPokes s.env (n + 1), ← reachedCount_dropPokes s.env (n + 1), ← reachedCount_dropPokes s.env 1,
    ← succeeding_dropPokes s.env (n + 1)]
  unfold xchgWith
  rw [State.peerMoves_env]
  rcases h : dropPokes s.env with _ | ⟨ev, rest⟩
  · simp [firstStop, reachedCount, succeeding, hp.env, h]
  · cases ev with
    | poke b o v => exact absurd h (dropPokes_not_poke _ _ _ _ _)
    | ok => simp [firstStop, reachedCount, succeeding, hp.env, reachedCount_zero]
    | okWith r => simp [firstStop, reachedCount, succeeding, hp.env, reachedCount_zero]
    | fail e reached => simp [firstStop, reachedCount, succeeding]
    | hang reached =>
      cases hn : resetNext rest <;> simp [firstStop, reachedCount, succeeding, arrives_env _ peer hp, hn]
    | reset point => cases point <;> simp [firstStop, reachedCount, succeeding]

theorem tail_pokedKeys (env : List EnvEvent) (a : Nat) (h : a ∉ pokedKeys env) : a ∉ pokedKeys env.tail := by
  cases env with
  | nil => exact h
  | cons ev rest => cases ev <;> first | exact h | exact fun hr => h (List.mem_cons_of_mem _ hr)

/-- An exchange names no key of the peer's engine that the script did not name. -/
theorem xchgWith_pokedKeys (peer : State → Byte × State) (hp : PeerOnly peer) (s : State) (a : Nat)
    (h : a ∉ pokedKeys s.env) : a ∉ pokedKeys (xchgWith peer s).2.env := by
  have := dropPokes_pokedKeys s.env a h
  unfold xchgWith
  rw [State.peerMoves_env]
  rcases hd : dropPokes s.env with _ | ⟨ev, rest⟩
  · simp [hp.env, hd, pokedKeys]
  · rw [hd] at this
    cases ev with
    | poke b o v => exact absurd hd (dropPokes_not_poke _ _ _ _ _)
    | fail e reached => simpa [pokedKeys, arrives_env _ peer hp] using this
    | hang reached =>
      cases hn : resetNext rest
      · simpa [hn, pokedKeys, arrives_env _ peer hp] using this
      · simpa [hn, arrives_env _ peer hp] using tail_pokedKeys _ _ (dropPokes_pokedKeys rest a this)
    | reset point => simpa [pokedKeys, arrives_env _ peer hp] using this
    | _ => simpa [pokedKeys, hp.env] using this

/-- Everything an exchange can leave: the peer's engine has moved, and the byte has arrived or not, as the script says; a reset
that gives up an exchange that does not return is taken behind further moves of the engine (R12, R157, R248, R266). -/
theorem xchgWith_cases (peer : State → Byte × State) (s : State) : ∃ reached env,
    reachedCount s.env 1 = (if reached then 1 else 0) ∧ (∀ a, a ∉ pokedKeys s.env → a ∉ pokedKeys env) ∧
    (((xchgWith peer s).2 = arrives reached peer (State.withEnv env s.peerMoves) ∧
        ∀ r, (xchgWith peer s).1 = .ok r → reached = true) ∨
      ((xchgWith peer s).1 = .cut ∧
        (xchgWith peer s).2 = (arrives reached peer (State.withEnv env s.peerMoves)).resetTaken)) := by
  have hk := fun a => dropPokes_pokedKeys s.env a
  rw [← reachedCount_dropPokes s.env 1]
  unfold xchgWith
  rw [State.peerMoves_env]
  rcases h : dropPokes s.env with _ | ⟨ev, rest⟩ <;> rw [h] at hk
  · refine ⟨true, [], rfl, hk, .inl ⟨?_, fun _ _ => rfl⟩⟩
    show (peer s.peerMoves).2 = (peer (State.withEnv [] s.peerMoves)).2
    rw [← h]
    rfl
  · cases ev with
    | poke b o v => exact absurd h (dropPokes_not_poke _ _ _ _ _)
    | ok => exact ⟨true, rest, by simp [reachedCount, reachedCount_zero], hk, .inl ⟨rfl, fun _ _ => rfl⟩⟩
    | okWith r => exact ⟨true, rest, by simp [reachedCount, reachedCount_zero], hk, .inl ⟨rfl, fun _ _ => rfl⟩⟩
    | fail e reached => exact ⟨reached, rest, by simp [reachedCount], hk, .inl ⟨rfl, nofun⟩⟩
    | hang reached =>
      cases hn : resetNext rest
      · exact ⟨reached, .hang false :: rest, by simp [reachedCount], hk, .inl ⟨by simp [hn], by simp [hn]⟩⟩
      · exact ⟨reached, rest, by simp [reachedCount], hk, .inr ⟨by simp [hn], by simp [hn]⟩⟩
    | reset point => exact ⟨point.reached, rest, by simp [reachedCount], hk, .inl ⟨rfl, nofun⟩⟩

/-- An exchange that has not returned stays so, and nothing changes any more (R252). -/
theorem xchgWith_hung (peer : State → Byte × State) (s : State) (rest : List EnvEvent) (h : s.env = .hang false :: rest)
    (hn : resetNext rest = false) : xchgWith peer s = (.hung, s) := by
  have hm : s.peerMoves = s := by
    unfold State.peerMoves
    rw [h]
    simp only [dropPokes, pokeAll, ite_self]
    rw [← h]
  unfold xchgWith
  rw [hm, h]
  simp only [hn, Bool.false_eq_true, if_false, ← h]
  rfl

/-- An exchange of the unit changes nothing but the peer, the script and the count of draws (R12, R35, R63). -/
theorem xchg_changes (t : Byte) (s : State) :
    (xchg t s).2 =
      { s with
        pm := (xchg t s).2.pm
        peer := (xchg t s).2.peer
        env := (xchg t s).2.env
        draws := (xchg t s).2.draws } := xchgWith_changes _ (peerSees_peerOnly t) s

@[simp] theorem xchg_sel (t : Byte) (s : State) : (xchg t s).2.sel = s.sel := by rw [xchg_changes]

@[simp] theorem xchg_phase (t : Byte) (s : State) : (xchg t s).2.phase = s.phase := by rw [xchg_changes]

@[simp] theorem xchg_idx (t : Byte) (s : State) : (xchg t s).2.idx = s.idx := by rw [xchg_changes]

@[simp] theorem xchg_dir (t : Byte) (s : State) : (xchg t s).2.dir = s.dir := by rw [xchg_changes]

@[simp] theorem xchg_bsb (t : Byte) (s : State) : (xchg t s).2.bsb = s.bsb := by rw [xchg_changes]

@[simp] theorem xchg_off (t : Byte) (s : State) : (xchg t s).2.off = s.off := by rw [xchg_changes]

@[simp] theorem xchg_len (t : Byte) (s : State) : (xchg t s).2.len = s.len := by rw [xchg_changes]

@[simp] theorem xchg_hdrb (t : Byte) (s : State) : (xchg t s).2.hdrb = s.hdrb := by rw [xchg_changes]

@[simp] theorem xchg_res (t : Byte) (s : State) : (xchg t s).2.res = s.res := by rw [xchg_changes]

@[simp] theorem xchg_wdata (t : Byte) (s : State) : (xchg t s).2.wdata = s.wdata := by rw [xchg_changes]

@[simp] theorem xchg_rdata (t : Byte) (s : State) : (xchg t s).2.rdata = s.rdata := by rw [xchg_changes]

@[simp] theorem xchg_resp (t : Byte) (s : State) : (xchg t s).2.resp = s.resp := by rw [xchg_changes]

@[simp] theorem xchg_trace (t : Byte) (s : State) : (xchg t s).2.trace = s.trace := by rw [xchg_changes]

@[simp] theorem xchg_txLog2 (t : Byte) (s : State) : (xchg t s).2.txLog2 = s.txLog2 := by rw [xchg_changes]

@[simp] theorem xchg_rxLog2 (t : Byte) (s : State) : (xchg t s).2.rxLog2 = s.rxLog2 := by rw [xchg_changes]

@[simp] theorem xchg_wire (t : Byte) (s : State) : (xchg t s).2.wire = s.wire := by rw [xchg_changes]

@[simp] theorem xchg_program (t : Byte) (s : State) : (xchg t s).2.program = s.program := by rw [xchg_changes]

@[simp] theorem xchg_task (t : Byte) (s : State) : (xchg t s).2.task = s.task := by rw [xchg_changes]

@[simp] theorem xchg_parked (t : Byte) (s : State) : (xchg t s).2.parked = s.parked := by rw [xchg_changes]

@[simp] theorem xchg_turns (t : Byte) (s : State) : (xchg t s).2.turns = s.turns := by rw [xchg_changes]

@[simp] theorem xchg_results (t : Byte) (s : State) : (xchg t s).2.results = s.results := by rw [xchg_changes]

@[simp] theorem peerSees_env (t : Byte) (s : State) : (s.peerSees t).2.env = s.env := by rw [peerSees_changes]

/-! ### The exception -/

/-- Taking BusError(e): what is on the trace, what RES and the port hold, and that nothing of the host moves (R151,
R247). -/
theorem raiseBusError_spec (t : Byte) (e : BusErr) (s : State) :
    (raiseBusError t e s).trace = s.trace ++ [.xf t e, .selR] ∧ (raiseBusError t e s).sel = .released ∧
    (raiseBusError t e s).phase = .idle ∧ (raiseBusError t e s).res = .errBus e ∧
    (∃ r, (raiseBusError t e s).resp = .frame (.errBus e) r) ∧ (raiseBusError t e s).dir = s.dir ∧
    SameOutside s (raiseBusError t e s) := by
  unfold raiseBusError
  cases hd : s.dir <;> simp [hd, SameOutside]

@[simp] theorem raiseBusError_pm (t : Byte) (e : BusErr) (s : State) :
    (raiseBusError t e s).pm = if s.peer = .lost then s.pm else pokeAll s.env s.pm := by
  unfold raiseBusError
  cases s.dir <;> rfl

@[simp] theorem raiseBusError_peer (t : Byte) (e : BusErr) (s : State) : (raiseBusError t e s).peer = s.peer := by
  unfold raiseBusError
  cases s.dir <;> simp

theorem raiseBusError_rdata (t : Byte) (e : BusErr) (s : State) :
    (raiseBusError t e s).rdata = match s.dir with | .write => s.rdata | .read => freeBytes s.draws s.len.toNat := by
  unfold raiseBusError
  cases s.dir <;> simp

theorem raiseBusError_resp (t : Byte) (e : BusErr) (s : State) :
    (raiseBusError t e s).resp = .frame (.errBus e) (raiseBusError t e s).rdata := by
  unfold raiseBusError
  cases s.dir <;> simp

/-! ### One step that exchanges a byte -/

/-- The byte the engine transmits next (R149, R150). -/
def nextByte (s : State) : Byte :=
  match s.phase with
  | .hdr => headerByte s.hdrb s.idx
  | .data => dataByte s
  | .idle => 0

/-- The state after a successful exchange with response `r`, `s1` being the state the exchange left (R149, R150). -/
def advance (r : Byte) (s s1 : State) : State :=
  match s.phase with
  | .hdr =>
    if s.idx = 2 then State.place .data 0 (State.emit (.x (nextByte s) r) s1)
    else State.place .hdr (s.idx + 1) (State.emit (.x (nextByte s) r) s1)
  | .data =>
    match s.dir with
    | .write => State.place .data (s.idx + 1) (State.emit (.x (nextByte s) r) s1)
    | .read => State.receive r (State.place .data (s.idx + 1) (State.emit (.x (nextByte s) r) s1))
  | .idle => s1

/-- A frame is open and a byte is still to be exchanged. -/
def Exchanging (s : State) : Prop := s.phase = .hdr ∨ (s.phase = .data ∧ s.idx.toNat < s.len.toNat)

/-- A step that exchanges a byte: it advances, or it takes the exception (R149, R150). -/
theorem fteStep_exchange (s : State) (h : Exchanging s) :
    fteStep s =
      match xchg (nextByte s) s with
      | (.ok r, s1) => advance r s s1
      | (.fail e, s1) => raiseBusError (nextByte s) e s1
      | (.hung, s1) => s1
      | (.cut, s1) => s1.cut := by
  rcases h with h | ⟨h, hlt⟩
  · simp only [fteStep, fteHeader, nextByte, advance, h] <;> rfl
  · simp only [fteStep, fteData, nextByte, advance, h, hlt, if_true] <;> rfl

/-- How many bytes the open frame still exchanges. -/
def remaining (s : State) : Nat :=
  match s.phase with
  | .hdr => (3 - s.idx.toNat) + s.len.toNat
  | .data => s.len.toNat - s.idx.toNat
  | .idle => 0

/-- The data bytes the engine still transmits from data exchange `k` on (R150). -/
def dataFrom (s : State) (k : Nat) : List Byte :=
  match s.dir with
  | .write => s.wdata.drop k
  | .read => List.replicate (s.len.toNat - k) Config.std.dummy

/-- The bytes the engine still transmits. -/
def pendingBytes (s : State) : List Byte :=
  match s.phase with
  | .hdr => (headerBytes s.hdrb).drop s.idx.toNat ++ dataFrom s 0
  | .data => dataFrom s s.idx.toNat
  | .idle => []

/-- The host holds as many write data bytes as the frame is long (R71). -/
def DataHeld (s : State) : Prop := s.dir = .write → s.wdata.length = s.len.toNat

/-- The positions an open frame can be in (R22). -/
def Placed (s : State) : Prop :=
  (s.phase = .hdr ∧ s.idx.toNat ≤ 2) ∨ (s.phase = .data ∧ s.idx.toNat ≤ s.len.toNat)

theorem exchanging_of_remaining (s : State) (hp : Placed s) (h : 0 < remaining s) : Exchanging s := by
  rcases hp with ⟨hp, _⟩ | ⟨hp, _⟩
  · exact .inl hp
  · simp only [remaining, hp] at h
    exact .inr ⟨hp, by omega⟩

theorem pendingBytes_length (s : State) (hp : Placed s) (hd : DataHeld s) :
    (pendingBytes s).length = remaining s := by
  unfold DataHeld at hd
  rcases hp with ⟨hp, hi⟩ | ⟨hp, hi⟩ <;> cases hdir : s.dir <;>
    simp_all [pendingBytes, remaining, dataFrom, headerBytes]

theorem half_succ (x y : Half) (h : x.toNat < y.toNat) : (x + 1).toNat = x.toNat + 1 := by
  have := y.isLt
  rw [BitVec.toNat_add]
  simp
  omega

theorem half_cases (x : Half) (h : x.toNat ≤ 2) : x = 0 ∨ x = 1 ∨ x = 2 := by
  have : x.toNat = 0 ∨ x.toNat = 1 ∨ x.toNat = 2 := by omega
  rcases this with h | h | h
  · exact .inl (BitVec.eq_of_toNat_eq h)
  · exact .inr (.inl (BitVec.eq_of_toNat_eq h))
  · exact .inr (.inr (BitVec.eq_of_toNat_eq h))

/-- After a successful exchange the frame is placed again, one byte fewer is left, and the rest is as it was. -/
theorem advance_spec (r : Byte) (s s1 : State) (hp : Placed s) (hd : DataHeld s) (hx : Exchanging s)
    (hs : s1 = { s with pm := s1.pm, peer := s1.peer, env := s1.env, draws := s1.draws }) :
    Placed (advance r s s1) ∧ DataHeld (advance r s s1) ∧ remaining s = remaining (advance r s s1) + 1 ∧
    pendingBytes s = nextByte s :: pendingBytes (advance r s s1) ∧
    (advance r s s1).trace = s.trace ++ [.x (nextByte s) r] ∧
    (advance r s s1).env = s1.env ∧ (advance r s s1).pm = s1.pm ∧ (advance r s s1).peer = s1.peer ∧
    (advance r s s1).dir = s.dir ∧ (advance r s s1).hdrb = s.hdrb ∧ (advance r s s1).len = s.len ∧
    (advance r s s1).bsb = s.bsb ∧ (advance r s s1).off = s.off ∧
    (advance r s s1).wdata = s.wdata ∧ (advance r s s1).res = s.res ∧ (advance r s s1).sel = s.sel ∧
    (advance r s s1).resp = s.resp ∧
    (advance r s s1).rdata = (if s.phase = .data ∧ s.dir = .read then s.rdata ++ [r] else s.rdata) ∧
    SameOutside s (advance r s s1) := by
  generalize s1.pm = m at *
  generalize s1.peer = q at *
  generalize s1.env = v at *
  generalize s1.draws = c at *
  subst hs
  unfold DataHeld at hd
  rcases hp with ⟨hp, hi⟩ | ⟨hp, hi⟩
  · rcases half_cases _ hi with h | h | h <;> cases hdir : s.dir <;>
      simp_all [advance, Placed, DataHeld, remaining, pendingBytes, nextByte, dataFrom, headerBytes, headerByte,
        SameOutside, Nat.add_comm] <;>
      omega
  · have hlt : s.idx.toNat < s.len.toNat := by
      rcases hx with hx | ⟨_, hx⟩
      · rw [hp] at hx; cases hx
      · exact hx
    have hsucc : (s.idx.toNat + 1) % 65536 = s.idx.toNat + 1 := by
      have := s.len.isLt
      omega
    cases hdir : s.dir
    · simp only [advance, hp, hdir, Placed, DataHeld, remaining, pendingBytes, nextByte, dataFrom, dataByte]
      simp [hsucc, SameOutside]
      refine ⟨hlt, by omega, ?_⟩
      rw [show s.len.toNat - s.idx.toNat = (s.len.toNat - (s.idx.toNat + 1)) + 1 by omega, List.replicate_succ]
    · have hw := hd hdir
      simp only [advance, hp, hdir, Placed, DataHeld, remaining, pendingBytes, nextByte, dataFrom, dataByte]
      simp [hsucc, hw, SameOutside]
      refine ⟨hlt, by omega, ?_⟩
      rw [List.drop_eq_getElem_cons (by omega : s.idx.toNat < s.wdata.length)]
      simp [List.getElem?_eq_getElem (by omega : s.idx.toNat < s.wdata.length)]

/-! ### A whole frame -/

theorem fteRun_idle (k : Nat) (s : State) (h : s.phase = .idle) : fteRun k s = s := by
  cases k <;> simp [fteRun, h]

theorem fteRun_step (k : Nat) (s : State) (h : s.phase ≠ .idle) : fteRun (k + 1) s = fteRun k (fteStep s) := by
  simp [fteRun, h]

theorem fteStep_end (s : State) (hp : Placed s) (h : remaining s = 0) : fteStep s = fteEnd s := by
  rcases hp with ⟨hp, hi⟩ | ⟨hp, hi⟩
  · simp only [remaining, hp] at h; omega
  · simp only [remaining, hp] at h
    simp only [fteStep, hp, if_neg (by omega : ¬ s.idx.toNat < s.len.toNat)]

theorem placed_not_idle (s : State) (hp : Placed s) : s.phase ≠ .idle := by
  rcases hp with ⟨hp, _⟩ | ⟨hp, _⟩ <;> simp [hp]

/-- How many of the remaining exchanges belong to the header (R149). -/
def headerLeft (s : State) : Nat :=
  match s.phase with
  | .hdr => 3 - s.idx.toNat
  | .data => 0
  | .idle => 0

/-- What running the open frame `s` to its end gives in `t`: the responses `rs`, what stopped it if something did, and what
of the state is as it was (R151 to R154, R252, R266). -/
def FrameEnd (s t : State) (rs : List Byte) (stop : Option (Nat × Stop)) : Prop :=
  SameOutside s t ∧
  match stop with
  | none =>
    t.phase = .idle ∧ t.sel = .released ∧ t.dir = s.dir ∧ t.resp = .frame .ok t.rdata ∧
    rs.length = remaining s ∧ t.res = .ok ∧
    t.trace = s.trace ++ exchanges ((pendingBytes s).zip rs) ++ [.selR] ∧
    t.rdata = (if s.dir = .read then s.rdata ++ rs.drop (headerLeft s) else s.rdata)
  | some (k, .fail e) =>
    t.phase = .idle ∧ t.sel = .released ∧ t.dir = s.dir ∧ t.resp = .frame (.errBus e) t.rdata ∧
    rs.length = k ∧ k < remaining s ∧ t.res = .errBus e ∧
    t.trace =
      s.trace ++ exchanges ((pendingBytes s).zip rs) ++ [.xf ((pendingBytes s).getD k 0) e, .selR] ∧
    (s.dir = .write → t.rdata = s.rdata) ∧ (s.dir = .read → t.rdata.length = s.len.toNat)
  | some (k, .hang) =>
    t.phase ≠ .idle ∧ t.sel = s.sel ∧ t.dir = s.dir ∧ t.resp = s.resp ∧
    rs.length = k ∧ k < remaining s ∧ t.res = s.res ∧
    t.trace = s.trace ++ exchanges ((pendingBytes s).zip rs) ∧
    (∃ rest, t.env = .hang false :: rest) ∧ fteStep t = t
  | some (k, .reset) =>
    t.phase = .idle ∧ t.sel = .released ∧ t.resp = .cut ∧
    rs.length = k ∧ k ≤ remaining s ∧ t.res = .none ∧
    t.trace = s.trace ++ exchanges ((pendingBytes s).zip rs) ++ (if s.sel = .asserted then [.selR] else [])

theorem freeBytes_length (k n : Nat) : (freeBytes k n).length = n := by simp [freeBytes]

theorem SameOutside.refl (s : State) : SameOutside s s := by simp [SameOutside]

theorem SameOutside.trans {a b c : State} (h : SameOutside a b) (g : SameOutside b c) : SameOutside a c := by
  obtain ⟨h1, h2, h3, h4, h5, h6, h7, h8⟩ := h
  obtain ⟨g1, g2, g3, g4, g5, g6, g7, g8⟩ := g
  exact ⟨g1.trans h1, g2.trans h2, g3.trans h3, g4.trans h4, g5.trans h5, g6.trans h6, g7.trans h7, g8.trans h8⟩

theorem xchg_sameOutside (t : Byte) (s : State) : SameOutside s (xchg t s).2 := by simp [SameOutside]

/-- Whether a reset takes the place of END (R266). -/
theorem firstStop_zero (env : List EnvEvent) :
    firstStop env 0 = match dropPokes env with | .reset .step :: _ => some (0, .reset) | _ => none := by
  induction env with
  | nil => rfl
  | cons ev rest ih =>
    cases ev with
    | poke b o v => simpa [firstStop, dropPokes] using ih
    | reset now => cases now <;> rfl
    | _ => rfl

/-- Everything step END can do. -/
theorem fteEnd_cases (s : State) :
    (firstStop s.env 0 = none ∧ fteEnd s = State.returns (.frame .ok s.rdata) (State.close .ok s.release)) ∨
    (firstStop s.env 0 = some (0, .reset) ∧ ∃ rest, dropPokes s.env = .reset .step :: rest ∧
      fteEnd s = State.cut (State.withEnv rest s.peerMoves)) := by
  rw [firstStop_zero]
  unfold fteEnd
  rw [State.peerMoves_env]
  rcases dropPokes s.env with _ | ⟨ev, rest⟩
  · exact .inl ⟨rfl, rfl⟩
  · cases ev with
    | reset now =>
      cases now
      · exact .inl ⟨rfl, rfl⟩
      · exact .inr ⟨rfl, rest, rfl, rfl⟩
      · exact .inl ⟨rfl, rfl⟩
    | _ => exact .inl ⟨rfl, rfl⟩

theorem fteEnd_frameEnd (s : State) (h0 : remaining s = 0) : FrameEnd s (fteEnd s) [] (firstStop s.env 0) := by
  rcases fteEnd_cases s with ⟨h1, h2⟩ | ⟨h1, rest, _, h2⟩ <;> rw [h1, h2]
  · refine ⟨by simp [SameOutside], ?_⟩
    simp [h0, exchanges]
  · refine ⟨by simp [SameOutside], ?_⟩
    simp only [exchanges, List.zip_nil_right, List.map_nil, List.append_nil]
    refine ⟨rfl, rfl, rfl, rfl, Nat.zero_le _, rfl, ?_⟩
    by_cases hsel : s.sel = .asserted <;> simp [hsel]

/-- Whether END runs normally or a reset takes its place, the engine is idle then. -/
theorem fteEnd_phase (s : State) : (fteEnd s).phase = .idle := by
  rcases fteEnd_cases s with ⟨_, h⟩ | ⟨_, rest, _, h⟩ <;> rw [h] <;> rfl

/-- An engine whose exchange has not returned does not move. -/
theorem fteStep_hung (s : State) (rest : List EnvEvent) (hx : Exchanging s) (h : s.env = .hang false :: rest)
    (hn : resetNext rest = false) : fteStep s = s := by
  rw [fteStep_exchange s hx, show xchg (nextByte s) s = (.hung, s) from xchgWith_hung _ s rest h hn]

theorem fteRun_fixed (k : Nat) (s : State) (h : fteStep s = s) : fteRun k s = s := by
  induction k with
  | zero => rfl
  | succ k ih =>
    by_cases hp : s.phase = .idle
    · exact fteRun_idle _ _ hp
    · rw [fteRun_step _ _ hp, h, ih]

/-- A frame that is open runs to its end, whatever the script says, and its trace is told by what stops it first (R149 to
R152, R153, R154, R158, R252, R266). -/
theorem fteRun_frameEnd (m : Nat) : ∀ (fuel : Nat) (s : State), Placed s → DataHeld s → remaining s = m → m < fuel →
    ∃ rs, FrameEnd s (fteRun fuel s) rs (firstStop s.env m) := by
  induction m with
  | zero =>
    intro fuel s hp hd hr hf
    obtain ⟨k, rfl⟩ : ∃ k, fuel = k + 1 := ⟨fuel - 1, by omega⟩
    rw [fteRun_step _ _ (placed_not_idle s hp), fteStep_end s hp hr, fteRun_idle _ _ (fteEnd_phase s)]
    exact ⟨[], fteEnd_frameEnd s hr⟩
  | succ m ih =>
    intro fuel s hp hd hr hf
    obtain ⟨k, rfl⟩ : ∃ k, fuel = k + 1 := ⟨fuel - 1, by omega⟩
    have hx := exchanging_of_remaining s hp (by omega)
    have ho := xchgWith_outcome _ (peerSees_peerOnly (nextByte s)) s m
    have hc := xchg_changes (nextByte s) s
    rw [show xchgWith (State.peerSees (nextByte s)) s = xchg (nextByte s) s from rfl] at ho
    rw [fteRun_step _ _ (placed_not_idle s hp), fteStep_exchange s hx]
    rcases hq : xchg (nextByte s) s with ⟨o, s1⟩
    rw [hq] at ho hc
    simp only at hc
    have hs : SameOutside s s1 := by rw [hc]; simp [SameOutside]
    have hcons : ∃ rest, pendingBytes s = nextByte s :: rest := by
      obtain ⟨_, _, _, a4, _⟩ := advance_spec 0 s s1 hp hd hx hc
      exact ⟨_, a4⟩
    obtain ⟨tail, htail⟩ := hcons
    cases o with
    | ok r =>
      simp only at ho ⊢
      obtain ⟨a1, a2, a3, a4, a5, a6, a7, a8, a9, a10, a11, a12, a13, a14, a15, a16, aresp, a17, a18⟩ :=
        advance_spec r s s1 hp hd hx hc
      obtain ⟨rs, hrs⟩ := ih k (advance r s s1) a1 a2 (by omega) (by omega)
      rw [a6] at hrs
      rw [ho.1]
      refine ⟨r :: rs, ?_⟩
      obtain ⟨b4, b6⟩ := hrs
      have hl : headerLeft s = headerLeft (advance r s s1) + (if s.phase = .hdr then 1 else 0) := by
        rcases hp with ⟨hp, hi⟩ | ⟨hp, hi⟩
        · rcases half_cases _ hi with h | h | h <;> simp [headerLeft, advance, hp, h]
        · cases hdir : s.dir <;> simp [headerLeft, advance, hp, hdir]
      refine ⟨a18.trans b4, ?_⟩
      rcases hstop : firstStop s1.env m with _ | ⟨j, e | _ | _⟩
      · rw [hstop] at b6
        obtain ⟨c1, c2, c3, c4, e1, e2, e3, e4⟩ := b6
        refine ⟨c1, c2, c3.trans a9, c4, by simp [e1]; omega, e2, ?_, ?_⟩
        · rw [e3, a5, a4]; simp [exchanges]
        · rw [e4, a9]
          cases hdir : s.dir with
          | write => simp [a17, hdir]
          | read =>
            rcases hp with ⟨hp, hi⟩ | ⟨hp, hi⟩
            · rw [a17, hl]; simp [hp]
            · rw [a17, hl]
              simp [hp, hdir, headerLeft, advance]
      · rw [hstop] at b6
        obtain ⟨c1, c2, c3, c4, e1, e2, e3, e4, e5, e6⟩ := b6
        refine ⟨c1, c2, c3.trans a9, c4, by simp [e1], by omega, e3, ?_, ?_, ?_⟩
        · rw [e4, a5, a4]; simp [exchanges]
        · intro hdir; rw [e5 (by rw [a9]; exact hdir), a17]; simp [hdir]
        · intro hdir; rw [e6 (by rw [a9]; exact hdir), a11]
      · rw [hstop] at b6
        obtain ⟨c1, c2, c3, c4, e1, e2, e3, e4, e5⟩ := b6
        refine ⟨c1, c2.trans a16, c3.trans a9, c4.trans aresp, by simp [e1], by omega, e3.trans a15, ?_, e5⟩
        rw [e4, a5, a4]; simp [exchanges]
      · rw [hstop] at b6
        obtain ⟨c1, c2, c3, e1, e2, e3, e4⟩ := b6
        refine ⟨c1, c2, c3, by simp [e1], by omega, e3, ?_⟩
        rw [e4, a5, a4, a16]; simp [exchanges]
    | fail e =>
      simp only at ho ⊢
      rw [ho.1]
      obtain ⟨r1, r2, r3, r4, r5, r6, r7⟩ := raiseBusError_spec (nextByte s) e s1
      rw [fteRun_idle _ _ r3]
      have hdir1 : s1.dir = s.dir := by rw [hc]
      refine ⟨[], hs.trans r7, r3, r2, r6.trans hdir1, by rw [raiseBusError_resp], rfl, by omega, r4, ?_, ?_, ?_⟩
      · rw [r1, htail, hc]; simp [exchanges]
      · intro hdir; rw [raiseBusError_rdata, hdir1, hdir]; simp only []; rw [hc]
      · intro hdir; rw [raiseBusError_rdata, hdir1, hdir]; simp only []; rw [hc, freeBytes_length]
    | hung =>
      simp only at ho ⊢
      obtain ⟨h1, _, _, rest, h4, h5⟩ := ho
      have hx1 : Exchanging s1 := by
        rcases hx with hx | ⟨hx, hlt⟩
        · exact .inl (by rw [hc]; exact hx)
        · exact .inr (by rw [hc]; exact ⟨hx, hlt⟩)
      have hfix := fteStep_hung s1 rest hx1 h4 h5
      rw [h1, fteRun_fixed _ _ hfix]
      refine ⟨[], hs, ?_, by rw [hc], by rw [hc], by rw [hc], rfl, by omega, by rw [hc], by rw [hc]; simp [exchanges],
        ⟨rest, h4⟩, hfix⟩
      rw [hc]
      exact placed_not_idle s hp
    | cut =>
      simp only at ho ⊢
      rw [ho.1, fteRun_idle _ _ rfl]
      refine ⟨[], hs.trans (by simp [SameOutside]), rfl, rfl, rfl, rfl, Nat.zero_le _, rfl, ?_⟩
      rw [hc]
      by_cases hsel : s.sel = .asserted <;> simp [hsel, exchanges]

theorem fteStart_placed (d : Dir) (b : Block) (o n : Half) (wd : List Byte) (s : State) :
    Placed (fteStart d b o n wd s) := .inl (by simp)

/-- What a whole frame gives, told by what stops it first among its `3 + n` exchanges and its release (R153, R154, R240,
R252, R266). -/
theorem runFrame_frameEnd (d : Dir) (b : Block) (o n : Half) (wd : List Byte) (s : State)
    (hw : d = .write → wd.length = n.toNat) :
    ∃ rs, FrameEnd (fteStart d b o n wd s) (runFrame d b o n wd s) rs (firstStop s.env (3 + n.toNat)) := by
  have h := fteRun_frameEnd (3 + n.toNat) (n.toNat + 4) (fteStart d b o n wd s) (fteStart_placed d b o n wd s)
    (by simpa [DataHeld] using hw) (by simp [remaining]) (by omega)
  simpa [runFrame] using h

end Sys2Proof.Machine
end

