-- ==== Sys2Proof/Laws/Frames.lean ====
section
/-! SUPPORT. What every frame has in common, whatever its direction and whatever fails (42_frame.md R151 to R154). -/

namespace Sys2Proof.Machine

theorem busAfter_append (l : BusLevel) (a b : List BusEvent) :
    busAfter l (a ++ b) = (busAfter l a).bind fun m => busAfter m b := by
  induction a generalizing l with
  | nil => rfl
  | cons e a ih =>
    simp only [List.cons_append, busAfter]
    cases busNext l e with
    | none => rfl
    | some m => exact ih m

theorem busAfter_exchanges (xs : List (Byte × Byte)) : busAfter .frameOpen (exchanges xs) = some .frameOpen := by
  induction xs with
  | nil => rfl
  | cons x xs ih =>
    simp only [exchanges, List.map_cons, busAfter, busNext]
    exact ih

/-- How an operation that drives the bus stands at its end, or where it has stopped: it has ended with a result, or a reset
has cut it, or an exchange of it does not return (R240, R252, R266). -/
def BusOutcome (t : State) : Prop :=
  (t.phase = .idle ∧ t.sel = .released ∧ t.res ≠ .none ∧ t.resp = .frame t.res t.rdata) ∨
  (t.phase = .idle ∧ t.sel = .released ∧ t.res = .none ∧ t.resp = .cut) ∨
  (t.phase ≠ .idle ∧ t.sel = .asserted ∧ t.res = .none ∧ fteStep t = t)

/-- What every frame has in common. -/
theorem runFrame_common (d : Dir) (b : Block) (o n : Half) (wd : List Byte) (s : State) (hw : d = .write → wd.length = n.toNat) :
    SameOutside s (runFrame d b o n wd s) ∧ BusOutcome (runFrame d b o n wd s) ∧
    ((runFrame d b o n wd s).res ≠ .none → (runFrame d b o n wd s).dir = d) ∧
    ∃ es, (runFrame d b o n wd s).trace = s.trace ++ es ∧
      busAfter .free es = some (selLevel (runFrame d b o n wd s).sel) := by
  obtain ⟨rs, h1, h2⟩ := runFrame_frameEnd d b o n wd s hw
  refine ⟨by simpa [SameOutside] using h1, ?_⟩
  rcases hs : firstStop s.env (3 + n.toNat) with _ | ⟨k, e | _ | _⟩ <;> rw [hs] at h2 <;> simp only [] at h2
  · obtain ⟨c1, c2, c3, c4, _, e2, e3, _⟩ := h2
    refine ⟨.inl ⟨c1, c2, by simp [e2], by rw [e2, c4]⟩, fun _ => c3,
      _, by rw [e3, fteStart_trace, List.append_assoc, List.append_assoc], ?_⟩
    simp only [List.singleton_append, busAfter, busNext, if_true, Option.bind_some]
    rw [busAfter_append, busAfter_exchanges, c2]; rfl
  · obtain ⟨c1, c2, c3, c4, _, _, e2, e3, _⟩ := h2
    refine ⟨.inl ⟨c1, c2, by simp [e2], by rw [e2, c4]⟩, fun _ => c3,
      _, by rw [e3, fteStart_trace, List.append_assoc, List.append_assoc], ?_⟩
    simp only [List.singleton_append, busAfter, busNext, if_true, Option.bind_some]
    rw [busAfter_append, busAfter_exchanges, c2]; rfl
  · obtain ⟨c1, c2, c3, c4, _, _, e2, e3, _, e5⟩ := h2
    simp only [fteStart_sel, fteStart_res] at c2 e2
    refine ⟨.inr (.inr ⟨c1, c2, e2, e5⟩), fun h => absurd e2 h,
      _, by rw [e3, fteStart_trace, List.append_assoc], ?_⟩
    simp only [List.singleton_append, busAfter, busNext, if_true, Option.bind_some]
    rw [busAfter_exchanges, c2]; rfl
  · obtain ⟨c1, c2, c3, _, _, e2, e3⟩ := h2
    simp only [fteStart_sel, if_true] at e3
    refine ⟨.inr (.inl ⟨c1, c2, e2, c3⟩), fun h => absurd e2 h,
      _, by rw [e3, fteStart_trace, List.append_assoc, List.append_assoc], ?_⟩
    simp only [List.singleton_append, busAfter, busNext, if_true, Option.bind_some]
    rw [busAfter_append, busAfter_exchanges, c2]; rfl

/-- A bus operation with a result has ended, and the result is on the port. -/
theorem BusOutcome.ended {t : State} (h : BusOutcome t) (hr : t.res ≠ .none) :
    t.phase = .idle ∧ t.sel = .released ∧ t.resp = .frame t.res t.rdata := by
  rcases h with ⟨h1, h2, _, h4⟩ | ⟨_, _, h3, _⟩ | ⟨_, _, h3, _⟩
  · exact ⟨h1, h2, h4⟩
  · exact absurd h3 hr
  · exact absurd h3 hr

/-- A write frame that has a result has an empty receive buffer. -/
theorem runFrame_write_rdata (b : Block) (o n : Half) (wd : List Byte) (s : State) (hw : wd.length = n.toNat)
    (hr : (runFrame .write b o n wd s).res ≠ .none) : (runFrame .write b o n wd s).rdata = [] := by
  obtain ⟨rs, h1, h2⟩ := runFrame_frameEnd .write b o n wd s (fun _ => hw)
  rcases hs : firstStop s.env (3 + n.toNat) with _ | ⟨k, e | _ | _⟩ <;> rw [hs] at h2 <;> simp only [] at h2
  · simpa using h2.2.2.2.2.2.2.2
  · simpa using h2.2.2.2.2.2.2.2.2.1
  · exact absurd h2.2.2.2.2.2.2.1 hr
  · exact absurd h2.2.2.2.2.2.1 hr

/-- A read frame that has a result leaves as many bytes as it was asked for, on success and after a bus error. -/
theorem runFrame_read_rdata (b : Block) (o n : Half) (s : State) (hr : (runFrame .read b o n [] s).res ≠ .none) :
    (runFrame .read b o n [] s).rdata.length = n.toNat := by
  obtain ⟨rs, h1, h2⟩ := runFrame_frameEnd .read b o n [] s (by simp)
  rcases hs : firstStop s.env (3 + n.toNat) with _ | ⟨k, e | _ | _⟩ <;> rw [hs] at h2 <;> simp only [] at h2
  · have h3 := h2.2.2.2.2.1
    have h4 := h2.2.2.2.2.2.2.2
    simp [headerLeft] at h4
    simp [remaining] at h3
    rw [h4]
    simp [h3]
  · simpa using h2.2.2.2.2.2.2.2.2.2
  · exact absurd h2.2.2.2.2.2.2.1 hr
  · exact absurd h2.2.2.2.2.2.1 hr

end Sys2Proof.Machine
end

