-- ==== Sys2Proof/Laws/Peer.lean ====
section
/-! SUPPORT. What a frame of the frame transport engine does to the reference peer: which bytes it stores, which it reads, and
that it leaves every other byte alone (20_memory.md R54, R63, 42_frame.md R157). -/

namespace Sys2Proof.Machine

/-- The peer still has a meaning and gives the open frame one (R64). -/
def Known (s : State) : Prop :=
  s.peer = .reference ∧ peerRefuses s (hdrDec Config.std s.hdrb) s.len.toNat = none

/-- The key of the first byte the open frame names. -/
def baseKey (s : State) : Nat := byteKey (hdrDec Config.std s.hdrb).bsb (hdrDec Config.std s.hdrb).off.toNat

/-- Whether the peer sees a frame keeps to the peer's sizes, the header and the count only. -/
theorem peerRefuses_congr (s t : State) (f : HdrFields) (n : Nat) (h1 : t.txLog2 = s.txLog2) (h2 : t.rxLog2 = s.rxLog2) :
    peerRefuses t f n = peerRefuses s f n := by
  unfold peerRefuses blockLimit
  rw [h1, h2]

theorem Known_congr (s t : State) (h : Known s) (h0 : t.peer = s.peer) (h1 : t.txLog2 = s.txLog2)
    (h2 : t.rxLog2 = s.rxLog2) (h3 : t.hdrb = s.hdrb) (h4 : t.len = s.len) : Known t := by
  refine ⟨h0.trans h.1, ?_⟩
  rw [h3, h4, peerRefuses_congr s t _ _ h1 h2]
  exact h.2

/-- The byte a known peer stores in one exchange: at a data exchange of a write only. -/
theorem peerSees_known (t : Byte) (s : State) (h : Known s) :
    (s.peerSees t).2.peer = .reference ∧
    (s.peerSees t).2.pm =
      (if s.phase = .data ∧ (hdrDec Config.std s.hdrb).dir = .write then
        Memory.set s.pm (baseKey s + s.idx.toNat) t else s.pm) ∧
    (s.phase = .data → (hdrDec Config.std s.hdrb).dir = .read →
      (s.peerSees t).1 = s.peerByte (baseKey s + s.idx.toNat)) := by
  have hk : byteKey (hdrDec Config.std s.hdrb).bsb ((hdrDec Config.std s.hdrb).off.toNat + s.idx.toNat) =
      baseKey s + s.idx.toNat := by simp only [baseKey, byteKey]; omega
  have hn : Known (s.drawn 1) := Known_congr s _ h rfl rfl rfl rfl rfl
  unfold State.peerSees
  cases hp : s.phase with
  | idle => simp [h.1]
  | hdr =>
    by_cases hi : s.idx = 2
    · simp only [hi, if_true]
      unfold State.peerJudges
      rw [if_pos hn.2]
      simp [h.1]
    · simp only [hi, if_false]
      simp [h.1]
  | data =>
    cases hd : (hdrDec Config.std s.hdrb).dir <;> simp only [State.peerData, h.1, hd, hk] <;> simp [h.1]

theorem reachedCount_le (v : List EnvEvent) : ∀ n, reachedCount v n ≤ n := by
  induction v with
  | nil => intro n; simp [reachedCount]
  | cons ev rest ih =>
    intro n
    cases ev <;> cases n <;> simp [reachedCount, ih]
    all_goals split <;> omega

/-- One exchange with a peer that keeps its meaning and stores `t` at `key` if `W`: it keeps it, and every byte its engine
does not touch is as before but the one it stores, if the byte arrives (R63, R157). -/
theorem xchgWith_known (peer : State → Byte × State) (hp : PeerOnly peer) (s : State) (W : Prop) [Decidable W]
    (key : Nat) (t : Byte) (hr : s.peer = .reference)
    (hk : ∀ m env, (peer { s with pm := m, env := env }).2.peer = .reference ∧
      (peer { s with pm := m, env := env }).2.pm = if W then Memory.set m key t else m) :
    (xchgWith peer s).2.peer = .reference ∧
    ∀ a, a ∉ pokedKeys s.env → Memory.get (xchgWith peer s).2.pm a =
      if W ∧ reachedCount s.env 1 = 1 ∧ a = key then some t else Memory.get s.pm a := by
  have hpm : s.peerMoves.pm = pokeAll s.env s.pm := by rw [State.peerMoves_pm, if_neg (by simp [hr])]
  have hsee : ∀ env, (peer (State.withEnv env s.peerMoves)).2.peer = .reference ∧
      ∀ a, a ∉ pokedKeys s.env → Memory.get (peer (State.withEnv env s.peerMoves)).2.pm a =
        if W ∧ a = key then some t else Memory.get s.pm a := by
    intro env
    have e : State.withEnv env s.peerMoves = { s with pm := pokeAll s.env s.pm, env := env } := by
      unfold State.withEnv State.peerMoves
      rw [if_neg (by simp [hr])]
    rw [e]
    obtain ⟨k1, k2⟩ := hk (pokeAll s.env s.pm) env
    refine ⟨k1, fun a ha => ?_⟩
    rw [k2]
    by_cases hw : W
    · rw [if_pos hw, Memory.get_set, pokeAll_get _ _ ha]
      simp [hw]
    · rw [if_neg hw, pokeAll_get _ _ ha, if_neg (fun hx => hw hx.1)]
  have hstay : ∀ a, a ∉ pokedKeys s.env → Memory.get s.peerMoves.pm a = Memory.get s.pm a := by
    intro a ha; rw [hpm, pokeAll_get _ _ ha]
  have harr : ∀ reached env, (arrives reached peer (State.withEnv env s.peerMoves)).peer = .reference ∧
      ∀ a, a ∉ pokedKeys s.env → Memory.get (arrives reached peer (State.withEnv env s.peerMoves)).pm a =
        if W ∧ reached = true ∧ a = key then some t else Memory.get s.pm a := by
    intro reached env
    cases reached with
    | true => simpa [arrives] using hsee env
    | false => simpa [arrives, hr] using hstay
  obtain ⟨reached, env, h1, h2, ⟨h3, _⟩ | ⟨_, h3⟩⟩ := xchgWith_cases peer s
  · rw [h3, h1]
    simpa using harr reached env
  · obtain ⟨g1, g2⟩ := harr reached env
    rw [h3, h1]
    refine ⟨g1, fun a ha => ?_⟩
    rw [State.resetTaken_pm, if_neg (by simp [g1]), pokeAll_get _ _ (by rw [arrives_env _ peer hp]; exact h2 a ha), g2 a ha]
    simp

/-- One exchange of the unit with a known peer (R63, R157). -/
theorem xchg_known (t : Byte) (s : State) (h : Known s) :
    (xchg t s).2.peer = .reference ∧
    ∀ a, a ∉ pokedKeys s.env → Memory.get (xchg t s).2.pm a =
      if (s.phase = .data ∧ (hdrDec Config.std s.hdrb).dir = .write) ∧ reachedCount s.env 1 = 1 ∧
          a = baseKey s + s.idx.toNat then some t else Memory.get s.pm a := by
  refine xchgWith_known _ (peerSees_peerOnly t) s _ _ t h.1 fun m env => ?_
  obtain ⟨k1, k2, _⟩ := peerSees_known t { s with pm := m, env := env } (Known_congr s _ h rfl rfl rfl rfl rfl)
  exact ⟨k1, k2⟩

/-- A byte of the peer after step END: END touches nothing of it but what the peer's engine does (R152, R266). -/
theorem fteEnd_known (s : State) (h : s.peer = .reference) :
    (fteEnd s).peer = .reference ∧ ∀ a, a ∉ pokedKeys s.env → Memory.get (fteEnd s).pm a = Memory.get s.pm a := by
  rcases fteEnd_cases s with ⟨_, e⟩ | ⟨_, rest, _, e⟩ <;> rw [e]
  · exact ⟨by simp [h], fun a ha => by simp [h, pokeAll_get _ _ ha]⟩
  · exact ⟨by simp [h], fun a ha => by simp [h, pokeAll_get _ _ ha]⟩

/-- How many data exchanges the open frame has behind it. -/
def dataDone (s : State) : Nat :=
  match s.phase with
  | .data => s.idx.toNat
  | .hdr => 0
  | .idle => 0

/-- Every byte of a known peer after a write frame has run to its end: the data bytes that reached it are stored at
ascending keys, every other byte its engine did not touch is as before (R54, R63, R157). -/
theorem fteRun_write_get (m : Nat) : ∀ (fuel : Nat) (s : State), Placed s → DataHeld s → remaining s = m → m < fuel →
    Known s → (hdrDec Config.std s.hdrb).dir = .write → s.dir = .write → ∀ a, a ∉ pokedKeys s.env →
    Memory.get (fteRun fuel s).pm a =
      (if baseKey s + dataDone s ≤ a ∧ a < baseKey s + dataDone s + (reachedCount s.env m - headerLeft s) then
        s.wdata[a - baseKey s]? else Memory.get s.pm a) ∧ (fteRun fuel s).peer = .reference := by
  induction m with
  | zero =>
    intro fuel s hp hd hr hf hk hw hdir a ha
    obtain ⟨k, rfl⟩ : ∃ k, fuel = k + 1 := ⟨fuel - 1, by omega⟩
    rw [fteRun_step _ _ (placed_not_idle s hp), fteStep_end s hp hr, fteRun_idle _ _ (fteEnd_phase s)]
    rw [reachedCount_zero, if_neg (by omega)]
    exact ⟨(fteEnd_known s hk.1).2 a ha, (fteEnd_known s hk.1).1⟩
  | succ m ih =>
    intro fuel s hp hd hr hf hk hw hdir a ha
    obtain ⟨k, rfl⟩ : ∃ k, fuel = k + 1 := ⟨fuel - 1, by omega⟩
    have hx := exchanging_of_remaining s hp (by omega)
    have hc := xchg_changes (nextByte s) s
    have hre := xchgWith_outcome _ (peerSees_peerOnly (nextByte s)) s m
    rw [show xchgWith (State.peerSees (nextByte s)) s = xchg (nextByte s) s from rfl] at hre
    obtain ⟨hq1, hq2⟩ := xchg_known (nextByte s) s hk
    have hq2a := hq2 a ha
    have hpk := xchgWith_pokedKeys _ (peerSees_peerOnly (nextByte s)) s a ha
    rw [show xchgWith (State.peerSees (nextByte s)) s = xchg (nextByte s) s from rfl] at hpk
    rw [fteRun_step _ _ (placed_not_idle s hp), fteStep_exchange s hx]
    have hle := reachedCount_le
    have hcur : s.phase = .data → s.wdata[s.idx.toNat]? = some (nextByte s) := by
      intro h
      have hlen := hd hdir
      rcases hx with hx | ⟨_, hx⟩
      · rw [h] at hx; cases hx
      · simp [nextByte, h, dataByte, hdir, List.getElem?_eq_getElem (by omega : s.idx.toNat < s.wdata.length)]
    have hlast : ∀ {x : Option Byte}, x = (if (s.phase = .data ∧ (hdrDec Config.std s.hdrb).dir = .write) ∧
        reachedCount s.env 1 = 1 ∧ a = baseKey s + s.idx.toNat then some (nextByte s) else Memory.get s.pm a) →
        x = if baseKey s + dataDone s ≤ a ∧ a < baseKey s + dataDone s + (reachedCount s.env 1 - headerLeft s) then
          s.wdata[a - baseKey s]? else Memory.get s.pm a := by
      intro x hx2
      rw [hx2]
      have h1 := hle s.env 1
      rcases hp with ⟨hp, hi⟩ | ⟨hp, hi⟩
      · have e2 : 1 ≤ headerLeft s := by
          rcases half_cases _ hi with h | h | h <;> simp [headerLeft, hp, h]
        rw [if_neg (by simp [hp]), if_neg (by omega)]
      · have e2 : headerLeft s = 0 := by simp [headerLeft, hp]
        have e4 : dataDone s = s.idx.toNat := by simp [dataDone, hp]
        rw [e2, e4]
        simp only [hp, hw, true_and]
        by_cases hr1 : reachedCount s.env 1 = 1
        · by_cases ha1 : a = baseKey s + s.idx.toNat
          · subst ha1
            rw [if_pos ⟨hr1, rfl⟩, if_pos (by omega), ← hcur hp]
            congr 1
            omega
          · rw [if_neg (by tauto), if_neg (by omega)]
        · rw [if_neg (by tauto), if_neg (by omega)]
    rcases hq : xchg (nextByte s) s with ⟨o, s1⟩
    rw [hq] at hc hre hq1 hq2a hpk
    cases o with
    | ok r =>
      simp only at hc hre hq1 hq2a hpk ⊢
      obtain ⟨a1, a2, a3, a4, a5, a6, a7, a8, a9, a10, a11, a12, a13, a14, a15, a16, aresp, a17, a18⟩ :=
        advance_spec r s s1 hp hd hx hc
      have hk' : Known (advance r s s1) :=
        Known_congr s _ hk (by rw [a8, hq1, hk.1]) a18.2.2.2.2.2.2.1 a18.2.2.2.2.2.2.2 a10 a11
      have hb : baseKey (advance r s s1) = baseKey s := by simp [baseKey, a10]
      have h := ih k (advance r s s1) a1 a2 (by omega) (by omega) hk' (by rw [a10]; exact hw) (by rw [a9]; exact hdir)
        a (by rw [a6]; exact hpk)
      rw [a6, a7, a14, hb] at h
      refine ⟨?_, h.2⟩
      rw [h.1, hre.2.2.2, hq2a]
      have hmle := hle s1.env m
      rcases hp with ⟨hp, hi⟩ | ⟨hp, hi⟩
      · have e1 : dataDone (advance r s s1) = 0 := by
          rcases half_cases _ hi with h | h | h <;> simp [dataDone, advance, hp, h]
        have e2 : headerLeft s = headerLeft (advance r s s1) + 1 := by
          rcases half_cases _ hi with h | h | h <;> simp [headerLeft, advance, hp, h]
        have e3 : dataDone s = 0 := by simp [dataDone, hp]
        rw [e1, e2, e3]
        simp only [hp, reduceCtorEq, false_and, if_false]
        have : reachedCount s1.env m + 1 - (headerLeft (advance r s s1) + 1) =
          reachedCount s1.env m - headerLeft (advance r s s1) := by omega
        rw [this]
      · have hlt : s.idx.toNat < s.len.toNat := by
          rcases hx with hx | ⟨_, hx⟩
          · rw [hp] at hx; cases hx
          · exact hx
        have e1 : dataDone (advance r s s1) = s.idx.toNat + 1 := by
          simp only [dataDone, advance, hp, hdir, State.place_phase, State.place_idx]
          exact half_succ _ _ hlt
        have e2 : headerLeft s = 0 := by simp [headerLeft, hp]
        have e3 : headerLeft (advance r s s1) = 0 := by simp [headerLeft, advance, hp, hdir]
        have e4 : dataDone s = s.idx.toNat := by simp [dataDone, hp]
        rw [e1, e2, e3, e4]
        simp only [hp, hw, hre.2.2.1, true_and]
        by_cases ha1 : a = baseKey s + s.idx.toNat
        · subst ha1
          rw [if_neg (by omega), if_pos rfl, if_pos (by omega)]
          rw [← hcur hp]
          congr 1
          omega
        · rw [if_neg ha1]
          by_cases ha2 : baseKey s + (s.idx.toNat + 1) ≤ a ∧
              a < baseKey s + (s.idx.toNat + 1) + (reachedCount s1.env m - 0)
          · rw [if_pos ha2, if_pos (by omega)]
          · rw [if_neg ha2, if_neg (by omega)]
    | fail e =>
      simp only at hc hre hq1 hq2a hpk ⊢
      rw [fteRun_idle _ _ (raiseBusError_spec _ _ _).2.2.1, raiseBusError_pm, raiseBusError_peer, hq1]
      refine ⟨?_, rfl⟩
      simp only [reduceCtorEq, if_false]
      rw [pokeAll_get _ _ hpk, hre.2.2]
      exact hlast hq2a
    | hung =>
      simp only at hc hre hq1 hq2a hpk ⊢
      obtain ⟨_, _, h3, rest, h4, h5⟩ := hre
      have hx1 : Exchanging s1 := by
        rcases hx with hx | ⟨hx, hlt⟩
        · exact .inl (by rw [hc]; exact hx)
        · exact .inr (by rw [hc]; exact ⟨hx, hlt⟩)
      rw [fteRun_fixed _ _ (fteStep_hung s1 rest hx1 h4 h5), h3]
      exact ⟨hlast hq2a, hq1⟩
    | cut =>
      simp only at hc hre hq1 hq2a hpk ⊢
      rw [fteRun_idle _ _ rfl, hre.2.2]
      exact ⟨hlast hq2a, hq1⟩

/-- A read frame leaves every byte of a known peer alone that the peer's engine does not touch (R63, R249). -/
theorem fteRun_read_get (m : Nat) : ∀ (fuel : Nat) (s : State), Placed s → DataHeld s → remaining s = m → m < fuel →
    Known s → (hdrDec Config.std s.hdrb).dir = .read → ∀ a, a ∉ pokedKeys s.env →
    Memory.get (fteRun fuel s).pm a = Memory.get s.pm a ∧ (fteRun fuel s).peer = .reference := by
  induction m with
  | zero =>
    intro fuel s hp hd hr hf hk hw a ha
    obtain ⟨k, rfl⟩ : ∃ k, fuel = k + 1 := ⟨fuel - 1, by omega⟩
    rw [fteRun_step _ _ (placed_not_idle s hp), fteStep_end s hp hr, fteRun_idle _ _ (fteEnd_phase s)]
    exact ⟨(fteEnd_known s hk.1).2 a ha, (fteEnd_known s hk.1).1⟩
  | succ m ih =>
    intro fuel s hp hd hr hf hk hw a ha
    obtain ⟨k, rfl⟩ : ∃ k, fuel = k + 1 := ⟨fuel - 1, by omega⟩
    have hx := exchanging_of_remaining s hp (by omega)
    have hc := xchg_changes (nextByte s) s
    obtain ⟨hq1, hq2⟩ := xchg_known (nextByte s) s hk
    have hq2a := hq2 a ha
    have hpk := xchgWith_pokedKeys _ (peerSees_peerOnly (nextByte s)) s a ha
    rw [show xchgWith (State.peerSees (nextByte s)) s = xchg (nextByte s) s from rfl] at hpk
    rw [fteRun_step _ _ (placed_not_idle s hp), fteStep_exchange s hx]
    rcases hq : xchg (nextByte s) s with ⟨o, s1⟩
    rw [hq] at hc hq1 hq2a hpk
    simp only [hw, reduceCtorEq, false_and, and_false, if_false] at hq2a
    cases o with
    | ok r =>
      simp only at hc hq1 hpk ⊢
      obtain ⟨a1, a2, a3, a4, a5, a6, a7, a8, a9, a10, a11, a12, a13, a14, a15, a16, aresp, a17, a18⟩ :=
        advance_spec r s s1 hp hd hx hc
      have hk' : Known (advance r s s1) :=
        Known_congr s _ hk (by rw [a8, hq1, hk.1]) a18.2.2.2.2.2.2.1 a18.2.2.2.2.2.2.2 a10 a11
      have h := ih k (advance r s s1) a1 a2 (by omega) (by omega) hk' (by rw [a10]; exact hw) a (by rw [a6]; exact hpk)
      rw [h.1, a7, hq2a]
      exact ⟨rfl, h.2⟩
    | fail e =>
      simp only at hc hq1 hpk ⊢
      rw [fteRun_idle _ _ (raiseBusError_spec _ _ _).2.2.1, raiseBusError_pm, raiseBusError_peer, hq1]
      simp only [reduceCtorEq, if_false]
      rw [pokeAll_get _ _ hpk, hq2a]
      exact ⟨rfl, trivial⟩
    | hung =>
      have ho := xchgWith_outcome _ (peerSees_peerOnly (nextByte s)) s m
      rw [show xchgWith (State.peerSees (nextByte s)) s = xchg (nextByte s) s from rfl, hq] at ho
      obtain ⟨_, _, _, rest, h4, h5⟩ := ho
      simp only at hc hq1 hpk ⊢
      have hx1 : Exchanging s1 := by
        rcases hx with hx | ⟨hx, hlt⟩
        · exact .inl (by rw [hc]; exact hx)
        · exact .inr (by rw [hc]; exact ⟨hx, hlt⟩)
      rw [fteRun_fixed _ _ (fteStep_hung s1 rest hx1 h4 h5)]
      exact ⟨hq2a, hq1⟩
    | cut =>
      simp only at hc hq1 hpk ⊢
      rw [fteRun_idle _ _ rfl]
      exact ⟨hq2a, hq1⟩

/-! ### A quiet environment -/

theorem peerMoves_quiet (s : State) (h : Quiet s.env) : s.peerMoves = s := by
  have h1 := dropPokes_quiet s.env h
  have h2 := pokeAll_quiet s.env s.pm h
  unfold State.peerMoves
  rw [h1, h2]
  simp

/-- In a quiet environment an exchange succeeds with the peer's answer (R12, R63). -/
theorem xchg_quiet (t : Byte) (s : State) (h : Quiet s.env) :
    xchg t s = (.ok (State.peerSees t (State.withEnv (s.env.drop 1) s)).1,
      (State.peerSees t (State.withEnv (s.env.drop 1) s)).2) := by
  unfold xchg xchgWith
  rw [peerMoves_quiet s h]
  rcases hd : s.env with _ | ⟨ev, rest⟩
  · have hs : State.withEnv ([].drop 1) s = s := by simp only [List.drop_nil]; rw [← hd]; rfl
    rw [hs]
  · have := h ev (by simp [hd])
    subst this
    rfl

theorem quiet_drop (v : List EnvEvent) (n : Nat) (h : Quiet v) : Quiet (v.drop n) :=
  fun ev he => h ev (List.mem_of_mem_drop he)

/-- What a frame does in a quiet environment with a known peer: it succeeds, a read returns the peer's bytes at ascending
keys and a write stores its data there (R54, R63, R153, R154). -/
def QuietEnd (s t : State) : Prop :=
  t.peer = .reference ∧ Quiet t.env ∧ t.res = .ok ∧
  (s.dir = .write → t.pm = Memory.setAll s.pm (baseKey s + dataDone s) (s.wdata.drop (dataDone s)) ∧ t.rdata = s.rdata) ∧
  (s.dir = .read → t.pm = s.pm ∧
    t.rdata = s.rdata ++ s.peerBytes (baseKey s + dataDone s) (s.len.toNat - dataDone s))

theorem fteEnd_quiet (s : State) (h : Quiet s.env) :
    fteEnd s = State.returns (.frame .ok s.rdata) (State.close .ok s.release) := by
  rcases fteEnd_cases s with ⟨_, e⟩ | ⟨_, rest, e, _⟩
  · exact e
  · rw [dropPokes_quiet _ h] at e
    have := h (.reset .step) (by rw [e]; simp)
    cases this

theorem peerBytes_congr (s t : State) (h : t.pm = s.pm) (k n : Nat) : t.peerBytes k n = s.peerBytes k n := by
  unfold State.peerBytes State.peerByte
  rw [h]

theorem peerBytes_cons (s : State) (k n : Nat) :
    s.peerBytes k (n + 1) = s.peerByte k :: s.peerBytes (k + 1) n := by
  simp only [State.peerBytes, List.range_succ_eq_map, List.map_cons, List.map_map, Nat.add_zero, List.cons.injEq,
    true_and]
  apply List.map_congr_left
  intro j _
  simp only [Function.comp]
  congr 1
  omega

theorem fteRun_quiet (m : Nat) : ∀ (fuel : Nat) (s : State), Placed s → DataHeld s → remaining s = m → m < fuel →
    Known s → (hdrDec Config.std s.hdrb).dir = s.dir → Quiet s.env → QuietEnd s (fteRun fuel s) := by
  induction m with
  | zero =>
    intro fuel s hp hd hr hf hk hw hv
    obtain ⟨k, rfl⟩ : ∃ k, fuel = k + 1 := ⟨fuel - 1, by omega⟩
    rw [fteRun_step _ _ (placed_not_idle s hp), fteStep_end s hp hr, fteRun_idle _ _ (fteEnd_phase s), fteEnd_quiet s hv]
    have h0 : s.phase = .data ∧ dataDone s = s.idx.toNat ∧ s.len.toNat - s.idx.toNat = 0 := by
      rcases hp with ⟨hp, hi⟩ | ⟨hp, hi⟩
      · simp only [remaining, hp] at hr; omega
      · exact ⟨hp, by simp [dataDone, hp], by simpa [remaining, hp] using hr⟩
    refine ⟨by simp [hk.1], ?_, by simp, fun hdir => ?_, fun hdir => ?_⟩
    · simp only [State.returns_env, State.close_env, State.release_env]
      rw [dropPokes_quiet _ hv]
      exact hv
    · have := hd hdir
      rw [h0.2.1, List.drop_eq_nil_of_le (by omega)]
      simp [hk.1, pokeAll_quiet _ _ hv, Memory.setAll]
    · rw [h0.2.1, h0.2.2]
      simp [hk.1, pokeAll_quiet _ _ hv, State.peerBytes]
  | succ m ih =>
    intro fuel s hp hd hr hf hk hw hv
    obtain ⟨k, rfl⟩ : ∃ k, fuel = k + 1 := ⟨fuel - 1, by omega⟩
    have hx := exchanging_of_remaining s hp (by omega)
    have hc := xchg_changes (nextByte s) s
    rw [fteRun_step _ _ (placed_not_idle s hp), fteStep_exchange s hx]
    rw [xchg_quiet _ _ hv] at hc ⊢
    have hk1 : Known (State.withEnv (s.env.drop 1) s) := Known_congr s _ hk rfl rfl rfl rfl rfl
    obtain ⟨hs1, hs2, hs3⟩ := peerSees_known (nextByte s) _ hk1
    generalize hs : State.peerSees (nextByte s) (State.withEnv (s.env.drop 1) s) = q at *
    obtain ⟨r, s1⟩ := q
    have henv : s1.env = s.env.drop 1 := by
      have := peerSees_env (nextByte s) (State.withEnv (s.env.drop 1) s)
      rw [hs] at this
      exact this
    simp only at hc hs1 hs2 hs3 ⊢
    obtain ⟨a1, a2, a3, a4, a5, a6, a7, a8, a9, a10, a11, a12, a13, a14, a15, a16, aresp, a17, a18⟩ :=
      advance_spec r s s1 hp hd hx hc
    have hk' : Known (advance r s s1) :=
      Known_congr s _ hk (by rw [a8, hs1, hk.1]) a18.2.2.2.2.2.2.1 a18.2.2.2.2.2.2.2 a10 a11
    obtain ⟨h1, h2, h3, h4, h5⟩ := ih k (advance r s s1) a1 a2 (by omega) (by omega) hk' (by rw [a10, a9]; exact hw)
      (by rw [a6, henv]; exact quiet_drop _ _ hv)
    have hb : baseKey (advance r s s1) = baseKey s := by simp [baseKey, a10]
    have hb1 : baseKey (State.withEnv (s.env.drop 1) s) = baseKey s := rfl
    rw [a7, a9, a14, hb] at h4
    rw [a9, a11, hb] at h5
    simp only [State.withEnv_phase, State.withEnv_hdrb, State.withEnv_pm, State.withEnv_idx, hw, hb1] at hs2 hs3
    refine ⟨h1, h2, h3, fun hdir => ?_, fun hdir => ?_⟩
    · obtain ⟨b1, b2⟩ := h4 hdir
      rw [b2, a17, if_neg (by simp [hdir])]
      refine ⟨?_, rfl⟩
      rw [b1, hs2]
      rcases hp with ⟨hp, hi⟩ | ⟨hp, hi⟩
      · have e1 : dataDone (advance r s s1) = dataDone s := by
          rcases half_cases _ hi with h | h | h <;> simp [dataDone, advance, hp, h]
        rw [if_neg (by simp [hp]), e1]
      · have hlt : s.idx.toNat < s.len.toNat := by
          rcases hx with hx | ⟨_, hx⟩
          · rw [hp] at hx; cases hx
          · exact hx
        have hlen := hd hdir
        have e1 : dataDone (advance r s s1) = s.idx.toNat + 1 := by
          simp only [dataDone, advance, hp, hdir, State.place_phase, State.place_idx]
          exact half_succ _ _ hlt
        have e2 : dataDone s = s.idx.toNat := by simp [dataDone, hp]
        rw [if_pos ⟨hp, hdir⟩, e1, e2, List.drop_eq_getElem_cons (by omega : s.idx.toNat < s.wdata.length), Memory.setAll]
        have e3 : nextByte s = s.wdata[s.idx.toNat]'(by omega) := by
          simp [nextByte, hp, dataByte, hdir, List.getElem?_eq_getElem (by omega : s.idx.toNat < s.wdata.length)]
        rw [e3, Nat.add_assoc]
    · obtain ⟨b1, b2⟩ := h5 hdir
      rw [if_neg (by simp [hdir])] at hs2
      rw [b1, b2, a7, hs2]
      refine ⟨rfl, ?_⟩
      rw [peerBytes_congr s (advance r s s1) (by rw [a7, hs2]), a17]
      rcases hp with ⟨hp, hi⟩ | ⟨hp, hi⟩
      · have e1 : dataDone (advance r s s1) = dataDone s := by
          rcases half_cases _ hi with h | h | h <;> simp [dataDone, advance, hp, h]
        rw [if_neg (by simp [hp]), e1]
      · have hlt : s.idx.toNat < s.len.toNat := by
          rcases hx with hx | ⟨_, hx⟩
          · rw [hp] at hx; cases hx
          · exact hx
        have e1 : dataDone (advance r s s1) = s.idx.toNat + 1 := by
          simp only [dataDone, advance, hp, hdir, State.receive_phase, State.receive_idx, State.place_phase,
            State.place_idx]
          exact half_succ _ _ hlt
        have e2 : dataDone s = s.idx.toNat := by simp [dataDone, hp]
        have e3 : r = s.peerByte (baseKey s + s.idx.toNat) := hs3 hp hdir
        rw [if_pos ⟨hp, hdir⟩, e1, e2, List.append_assoc, e3]
        rw [show s.len.toNat - s.idx.toNat = s.len.toNat - (s.idx.toNat + 1) + 1 by omega, peerBytes_cons]
        rw [List.singleton_append, Nat.add_assoc]

/-- A whole frame in a quiet environment, the peer giving it a meaning (R153, R154, R63). -/
theorem runFrame_quiet (d : Dir) (b : Block) (o n : Half) (wd : List Byte) (s : State) (hw : d = .write → wd.length = n.toNat)
    (hr : s.peer = .reference) (hk : peerRefuses s (wireHeader b d o) n.toNat = none) (hv : Quiet s.env) :
    QuietEnd (fteStart d b o n wd s) (runFrame d b o n wd s) := by
  have hk' : Known (fteStart d b o n wd s) := by
    refine ⟨hr, ?_⟩
    simp only [fteStart_hdrb, fteStart_len, hdrDec_hdrEnc]
    rw [peerRefuses_congr s (fteStart d b o n wd s) _ _ rfl rfl]
    exact hk
  exact fteRun_quiet (3 + n.toNat) (n.toNat + 4) (fteStart d b o n wd s) (fteStart_placed d b o n wd s)
    (by simpa [DataHeld] using hw) (by simp [remaining]) (by omega) hk' (by simp [hdrDec_hdrEnc, wireHeader]) hv

/-- The reference peer gives a variable-length frame a meaning exactly when its block-select is assigned and it stays
inside the block (R64). -/
theorem peerRefuses_none (s : State) (b : Block) (d : Dir) (o : Half) (n : Nat) :
    peerRefuses s (wireHeader b d o) n = none ↔ blockAssigned b = true ∧ o.toNat + n ≤ blockLimit s b := by
  have hl : blockLimit s b ≤ 65536 := by
    unfold blockLimit
    split
    · exact le_trans (bufSize_le _) (by decide)
    · exact le_trans (bufSize_le _) (by decide)
    · exact le_refl _
    · exact le_refl _
  unfold peerRefuses
  simp only [wireHeader, ne_eq, not_true_eq_false, if_false]
  by_cases ha : blockAssigned b = true
  · simp only [ha, Bool.true_eq_false, if_false, true_and]
    by_cases h1 : 65536 < o.toNat + n
    · simp only [h1, if_true]; simp; omega
    · by_cases h2 : blockLimit s b < o.toNat + n
      · simp only [h1, h2, if_true, if_false]; simp; omega
      · simp only [h1, h2, if_false]; simp; omega
  · simp [ha]

theorem fteStart_known (d : Dir) (b : Block) (o n : Half) (wd : List Byte) (s : State) (h : PeerTakes s b o n.toNat) :
    Known (fteStart d b o n wd s) := by
  refine ⟨h.1, ?_⟩
  simp only [fteStart_hdrb, fteStart_len, hdrDec_hdrEnc]
  rw [peerRefuses_congr s (fteStart d b o n wd s) _ _ rfl rfl]
  exact (peerRefuses_none _ _ _ _ _).2 h.2

theorem fteStart_baseKey (d : Dir) (b : Block) (o n : Half) (wd : List Byte) (s : State) :
    baseKey (fteStart d b o n wd s) = byteKey b o.toNat := by
  simp [baseKey, hdrDec_hdrEnc, wireHeader]

/-- A write frame on a quiet bus (R153, R63). -/
theorem runFrame_write_quiet (b : Block) (o n : Half) (wd : List Byte) (s : State) (hw : wd.length = n.toNat)
    (hk : PeerTakes s b o n.toNat) (hv : Quiet s.env) :
    (runFrame .write b o n wd s).peer = .reference ∧ Quiet (runFrame .write b o n wd s).env ∧
    (runFrame .write b o n wd s).res = .ok ∧
    (runFrame .write b o n wd s).pm = Memory.setAll s.pm (byteKey b o.toNat) wd := by
  obtain ⟨h1, h2, h3, h4, _⟩ :=
    runFrame_quiet .write b o n wd s (fun _ => hw) hk.1 ((peerRefuses_none _ _ _ _ _).2 hk.2) hv
  have h4 := (h4 (by simp)).1
  rw [fteStart_baseKey] at h4
  exact ⟨h1, h2, h3, by simpa [dataDone] using h4⟩

/-- A read frame on a quiet bus (R154, R63). -/
theorem runFrame_read_quiet (b : Block) (o n : Half) (s : State) (hk : PeerTakes s b o n.toNat) (hv : Quiet s.env) :
    (runFrame .read b o n [] s).peer = .reference ∧ Quiet (runFrame .read b o n [] s).env ∧
    (runFrame .read b o n [] s).res = .ok ∧ (runFrame .read b o n [] s).pm = s.pm ∧
    (runFrame .read b o n [] s).rdata = s.peerBytes (byteKey b o.toNat) n.toNat := by
  obtain ⟨h1, h2, h3, _, h5⟩ :=
    runFrame_quiet .read b o n [] s (by simp) hk.1 ((peerRefuses_none _ _ _ _ _).2 hk.2) hv
  obtain ⟨h6, h7⟩ := h5 (by simp)
  rw [fteStart_baseKey] at h7
  exact ⟨h1, h2, h3, by simpa using h6, by simpa [dataDone, State.peerBytes, State.peerByte] using h7⟩

end Sys2Proof.Machine
end

