-- ==== Sys2Proof/Laws/PerInstr.lean ====
section
/-! SUPPORT. One family of laws over all operations: the encoding of each carries the fixed bits of its row of
spec/opcode_table.json (30_encoding.md R89, R92). -/

namespace Sys2Proof.Laws.RowBits

/-- The byte of a packet that carries every fixed bit of a row: the command byte, or the control byte `H[7:0]`. -/
def fixedByte : Packet → Option Byte
  | .cmd opsel _ => some (opsel.setWidth 8)
  | .wire [_, _, h2] => some h2
  | .wire _ => none

/-- Mask and match of the row of each operation, copied from the low byte of the table's columns. -/
def row : Instr → Byte × Byte
  | .bsbCommon => (0x1F, 0x00)
  | .bsbSreg _ => (0x1F, 0x01)
  | .bsbStx _ => (0x1F, 0x02)
  | .bsbSrx _ => (0x1F, 0x03)
  | .bsbDec _ => (0x1F, 0x04)
  | .roff _ => (0x1F, 0x05)
  | .raddr _ _ => (0x1F, 0x06)
  | .ctlEnc _ _ _ => (0x1F, 0x08)
  | .ctlDec _ => (0x1F, 0x09)
  | .hdrEnc _ _ _ => (0x1F, 0x0A)
  | .hdrDec _ => (0x1F, 0x0B)
  | .frameRd _ _ _ => (0x1F, 0x10)
  | .frameWr _ _ _ _ => (0x1F, 0x11)
  | .frameParse _ => (0x1F, 0x12)
  | .cpWrap _ _ => (0x1F, 0x18)
  | .cpAdv _ _ => (0x1F, 0x19)
  | .cpUnread _ _ => (0x1F, 0x1A)
  | .cpFree _ _ _ => (0x1F, 0x1B)
  | .cpSplit _ _ _ => (0x1F, 0x1C)
  | .cbRd _ _ _ _ => (0x1F, 0x1D)
  | .cbWr _ _ _ _ _ => (0x1F, 0x1E)
  | .wRdCommon _ => (0xFF, 0x00)
  | .wWrCommon _ => (0xFF, 0x04)
  | .wRdSreg _ _ => (0x1F, 0x08)
  | .wWrSreg _ _ => (0x1F, 0x0C)
  | .wRdStx _ _ => (0x1F, 0x10)
  | .wWrStx _ _ => (0x1F, 0x14)
  | .wRdSrx _ _ => (0x1F, 0x18)
  | .wWrSrx _ _ => (0x1F, 0x1C)
  | .wRsvBsb _ _ _ => (0x1B, 0x00)
  | .wRsvOm1 _ _ _ => (0x03, 0x01)
  | .wRsvOm2 _ _ _ => (0x03, 0x02)
  | .wRsvOm3 _ _ _ => (0x03, 0x03)

/-- Every well-formed operation is encoded with its row's fixed bits. -/
def Statement (i : Instr) : Prop :=
  i.wellFormed = true → (fixedByte (encode i)).map (fun x => x &&& (row i).1) = some (row i).2

/-- The control byte alone decides the fixed bits of a wire class. -/
theorem fixedByte_wireBytes (off : Half) (b : Block) (d : Dir) (om : BitVec 2) :
    fixedByte (wireBytes off b d om) = some (Machine.ctlEnc Config.std b d om) := rfl

theorem bsbCommon : Statement .bsbCommon := fun _ => by
  simp [encode, fixedByte, row]

theorem bsbSreg (x0 : Sock) : Statement (.bsbSreg x0) := fun _ => by
  simp [encode, fixedByte, row]

theorem bsbStx (x0 : Sock) : Statement (.bsbStx x0) := fun _ => by
  simp [encode, fixedByte, row]

theorem bsbSrx (x0 : Sock) : Statement (.bsbSrx x0) := fun _ => by
  simp [encode, fixedByte, row]

theorem bsbDec (x0 : Block) : Statement (.bsbDec x0) := fun _ => by
  simp [encode, fixedByte, row]

theorem roff (x0 : BitVec 4) : Statement (.roff x0) := fun _ => by
  simp [encode, fixedByte, row]

theorem raddr (x0 : Sock) (x1 : BitVec 4) : Statement (.raddr x0 x1) := fun _ => by
  simp [encode, fixedByte, row]

theorem ctlEnc (x0 : Block) (x1 : Dir) (x2 : BitVec 2) : Statement (.ctlEnc x0 x1 x2) := fun _ => by
  simp [encode, fixedByte, row]

theorem ctlDec (x0 : Byte) : Statement (.ctlDec x0) := fun _ => by
  simp [encode, fixedByte, row]

theorem hdrEnc (x0 : Half) (x1 : Block) (x2 : Dir) : Statement (.hdrEnc x0 x1 x2) := fun _ => by
  simp [encode, fixedByte, row]

theorem hdrDec (x0 : Header) : Statement (.hdrDec x0) := fun _ => by
  simp [encode, fixedByte, row]

theorem frameRd (x0 : Block) (x1 : Half) (x2 : Half) : Statement (.frameRd x0 x1 x2) := fun _ => by
  simp [encode, fixedByte, row]

theorem frameWr (x0 : Block) (x1 : Half) (x2 : Half) (x3 : List Byte) : Statement (.frameWr x0 x1 x2 x3) := fun _ => by
  simp [encode, fixedByte, row]

theorem frameParse (x0 : List (Byte × Byte)) : Statement (.frameParse x0) := fun _ => by
  simp [encode, fixedByte, row]

theorem cpWrap (x0 : Half) (x1 : BitVec 4) : Statement (.cpWrap x0 x1) := fun _ => by
  simp [encode, fixedByte, row]

theorem cpAdv (x0 : Half) (x1 : Half) : Statement (.cpAdv x0 x1) := fun _ => by
  simp [encode, fixedByte, row]

theorem cpUnread (x0 : Half) (x1 : Half) : Statement (.cpUnread x0 x1) := fun _ => by
  simp [encode, fixedByte, row]

theorem cpFree (x0 : BitVec 4) (x1 : Half) (x2 : Half) : Statement (.cpFree x0 x1 x2) := fun _ => by
  simp [encode, fixedByte, row]

theorem cpSplit (x0 : Half) (x1 : Half) (x2 : BitVec 4) : Statement (.cpSplit x0 x1 x2) := fun _ => by
  simp [encode, fixedByte, row]

theorem cbRd (x0 : Block) (x1 : Half) (x2 : Half) (x3 : BitVec 4) : Statement (.cbRd x0 x1 x2 x3) := fun _ => by
  simp [encode, fixedByte, row]

theorem cbWr (x0 : Block) (x1 : Half) (x2 : Half) (x3 : BitVec 4) (x4 : List Byte) : Statement (.cbWr x0 x1 x2 x3 x4) := fun _ => by
  simp [encode, fixedByte, row]

theorem wRdCommon (x0 : Half) : Statement (.wRdCommon x0) := by
  simp only [Statement, encode, fixedByte_wireBytes, row, Option.map_some]
  refine fun h => ?_
  clear h
  decide

theorem wWrCommon (x0 : Half) : Statement (.wWrCommon x0) := by
  simp only [Statement, encode, fixedByte_wireBytes, row, Option.map_some]
  refine fun h => ?_
  clear h
  decide

theorem wRdSreg (x0 : Sock) (x1 : Half) : Statement (.wRdSreg x0 x1) := by
  simp only [Statement, encode, fixedByte_wireBytes, row, Option.map_some]
  refine fun h => ?_
  clear h
  revert x0
  decide

theorem wWrSreg (x0 : Sock) (x1 : Half) : Statement (.wWrSreg x0 x1) := by
  simp only [Statement, encode, fixedByte_wireBytes, row, Option.map_some]
  refine fun h => ?_
  clear h
  revert x0
  decide

theorem wRdStx (x0 : Sock) (x1 : Half) : Statement (.wRdStx x0 x1) := by
  simp only [Statement, encode, fixedByte_wireBytes, row, Option.map_some]
  refine fun h => ?_
  clear h
  revert x0
  decide

theorem wWrStx (x0 : Sock) (x1 : Half) : Statement (.wWrStx x0 x1) := by
  simp only [Statement, encode, fixedByte_wireBytes, row, Option.map_some]
  refine fun h => ?_
  clear h
  revert x0
  decide

theorem wRdSrx (x0 : Sock) (x1 : Half) : Statement (.wRdSrx x0 x1) := by
  simp only [Statement, encode, fixedByte_wireBytes, row, Option.map_some]
  refine fun h => ?_
  clear h
  revert x0
  decide

theorem wWrSrx (x0 : Sock) (x1 : Half) : Statement (.wWrSrx x0 x1) := by
  simp only [Statement, encode, fixedByte_wireBytes, row, Option.map_some]
  refine fun h => ?_
  clear h
  revert x0
  decide

theorem wRsvBsb (x0 : Sock) (x1 : Dir) (x2 : Half) : Statement (.wRsvBsb x0 x1 x2) := by
  simp only [Statement, encode, fixedByte_wireBytes, row, Option.map_some]
  refine fun h => ?_
  clear h
  cases x1 <;> revert x0 <;> decide

theorem wRsvOm1 (x0 : Block) (x1 : Dir) (x2 : Half) : Statement (.wRsvOm1 x0 x1 x2) := by
  simp only [Statement, encode, fixedByte_wireBytes, row, Option.map_some]
  refine fun h => ?_
  clear h
  cases x1 <;> revert x0 <;> decide

theorem wRsvOm2 (x0 : Block) (x1 : Dir) (x2 : Half) : Statement (.wRsvOm2 x0 x1 x2) := by
  simp only [Statement, encode, fixedByte_wireBytes, row, Option.map_some]
  refine fun h => ?_
  clear h
  cases x1 <;> revert x0 <;> decide

theorem wRsvOm3 (x0 : Block) (x1 : Dir) (x2 : Half) : Statement (.wRsvOm3 x0 x1 x2) := by
  simp only [Statement, encode, fixedByte_wireBytes, row, Option.map_some]
  refine fun h => ?_
  clear h
  cases x1 <;> revert x0 <;> decide

end Sys2Proof.Laws.RowBits
end

