-- ==== Sys2Proof/Laws/Transfer.lean ====
section
/-! SUPPORT. What a buffer transfer is made of (43_circular.md R176, R177). -/

namespace Sys2Proof.Machine

theorem bufferLost_write (l : Half) (r : Res) (s : State) (h : s.dir = .write) : bufferLost l r s = s := by
  simp [bufferLost, h]

theorem bufferLost_read (l : Half) (r : Res) (s : State) (h : s.dir = .read) :
    bufferLost l r s = { s with
      rdata := freeBytes s.draws l.toNat, resp := .frame r (freeBytes s.draws l.toNat), draws := s.draws + l.toNat } := by
  unfold bufferLost
  split
  · simp_all
  · rfl

@[simp] theorem cutsBetween_quiet (env : List EnvEvent) (h : Quiet env) : cutsBetween env = false := by
  unfold cutsBetween
  rw [dropPokes_quiet _ h]
  cases env with
  | nil => rfl
  | cons ev rest => rw [h ev (by simp)]

/-- A reset between the two frames leaves the unit as after any reset of an idle unit, and no bus event. -/
theorem cutBetween_common (s t : State) (h : SameOutside s t) (hs : t.sel = .released) :
    SameOutside s t.cutBetween ∧ BusOutcome t.cutBetween ∧ t.cutBetween.trace = t.trace ∧
    t.cutBetween.sel = t.sel := by
  refine ⟨h.trans (by simp [SameOutside, State.cutBetween]), .inr (.inl ⟨rfl, rfl, rfl, rfl⟩), ?_, ?_⟩ <;>
    simp [State.cutBetween, hs] <;> rfl

/-- A reset between the two frames leaves every byte of the peer alone that its engine leaves alone (R266). -/
theorem cutBetween_get (t : State) (a : Nat) (h : a ∉ pokedKeys t.env) :
    Memory.get t.cutBetween.pm a = Memory.get t.pm a := by
  show Memory.get t.peerMoves.pm a = _
  rw [State.peerMoves_pm]
  split
  · rfl
  · exact pokeAll_get _ _ h _

/-- A write transfer: the one frame, or the first if it failed, or the second run after it, or the reset between. -/
theorem splitTransfer_write (b : Block) (l : Half) (c : Split) (wd : List Byte) (s : State)
    (hw : (wd.take c.l0.toNat).length = c.l0.toNat) (hw2 : c.two = true → (wd.drop c.l0.toNat).length = c.l1.toNat) :
    splitTransfer .write b l c wd s =
      if c.two = true ∧ (runFrame .write b c.o0 c.l0 (wd.take c.l0.toNat) s).res = .ok then
        if cutsBetween (runFrame .write b c.o0 c.l0 (wd.take c.l0.toNat) s).env = true then
          (runFrame .write b c.o0 c.l0 (wd.take c.l0.toNat) s).cutBetween
        else runFrame .write b 0 c.l1 (wd.drop c.l0.toNat) (runFrame .write b c.o0 c.l0 (wd.take c.l0.toNat) s)
      else runFrame .write b c.o0 c.l0 (wd.take c.l0.toNat) s := by
  have h1 := runFrame_common .write b c.o0 c.l0 (wd.take c.l0.toNat) s (fun _ => hw)
  have hr := runFrame_write_rdata b c.o0 c.l0 (wd.take c.l0.toNat) s hw
  unfold splitTransfer
  simp only [secondFrame]
  generalize runFrame .write b c.o0 c.l0 (wd.take c.l0.toNat) s = first at *
  cases h2 : c.two
  · simp
  · have g1 := runFrame_common .write b 0 c.l1 (wd.drop c.l0.toNat) first (fun _ => hw2 h2)
    have gr := runFrame_write_rdata b 0 c.l1 (wd.drop c.l0.toNat) first (hw2 h2)
    generalize runFrame .write b 0 c.l1 (wd.drop c.l0.toNat) first = second at *
    cases h3 : first.res with
    | ok =>
      simp only [if_true, true_and]
      split
      · rfl
      unfold joinFrames
      cases h4 : second.res with
      | ok =>
        have e1 := hr (by rw [h3]; decide)
        have e2 := gr (by rw [h4]; decide)
        have e3 := (g1.2.1.ended (by rw [h4]; decide)).2.2
        rw [e2, h4] at e3
        rw [e1, e2]
        cases second
        simp only at e2 e3
        subst e2 e3
        rfl
      | none => rfl
      | errBus e => exact bufferLost_write _ _ _ (g1.2.2.1 (by rw [h4]; simp))
    | none => simp
    | errBus e => simp [bufferLost_write _ _ _ (h1.2.2.1 (by rw [h3]; simp))]

/-- The buffer of a transfer that has failed is lost; everything else stands. -/
theorem bufferLost_common (l : Half) (e : BusErr) (s t : State) (hs : SameOutside s t) (hb : BusOutcome t)
    (hr : t.res = .errBus e) :
    SameOutside s (bufferLost l (.errBus e) t) ∧ BusOutcome (bufferLost l (.errBus e) t) ∧
    (bufferLost l (.errBus e) t).trace = t.trace ∧ (bufferLost l (.errBus e) t).sel = t.sel := by
  cases hd : t.dir with
  | write =>
    rw [bufferLost_write _ _ _ hd]
    exact ⟨hs, hb, rfl, rfl⟩
  | read =>
    obtain ⟨h1, h2, _⟩ := hb.ended (by rw [hr]; simp)
    rw [bufferLost_read _ _ _ hd]
    exact ⟨hs, .inl ⟨h1, h2, by simp [hr], by simp [hr]⟩, rfl, rfl⟩

/-- What every buffer transfer has in common, whatever its direction and whatever stops it (R176, R177, R66). -/
theorem splitTransfer_common (d : Dir) (b : Block) (l : Half) (c : Split) (wd : List Byte) (s : State)
    (hw : d = .write → (wd.take c.l0.toNat).length = c.l0.toNat)
    (hw2 : d = .write → c.two = true → (wd.drop c.l0.toNat).length = c.l1.toNat) :
    SameOutside s (splitTransfer d b l c wd s) ∧ BusOutcome (splitTransfer d b l c wd s) ∧
    ∃ es, (splitTransfer d b l c wd s).trace = s.trace ++ es ∧
      busAfter .free es = some (selLevel (splitTransfer d b l c wd s).sel) := by
  obtain ⟨a1, a2, _, es, a4, a5⟩ := runFrame_common d b c.o0 c.l0 (wd.take c.l0.toNat) s hw
  unfold splitTransfer
  simp only [secondFrame]
  generalize runFrame d b c.o0 c.l0 (wd.take c.l0.toNat) s = first at *
  cases h2 : c.two with
  | false => exact ⟨a1, a2, es, a4, a5⟩
  | true =>
    simp only [if_true]
    cases h3 : first.res with
    | none => exact ⟨a1, a2, es, a4, a5⟩
    | errBus e =>
      obtain ⟨b1, b2, b3, b4⟩ := bufferLost_common l e s first a1 a2 h3
      exact ⟨b1, b2, es, by rw [b3, a4], by rw [b4, a5]⟩
    | ok =>
      obtain ⟨_, hsel, _⟩ := a2.ended (by rw [h3]; simp)
      simp only []
      split
      · obtain ⟨b1, b2, b3, b4⟩ := cutBetween_common s first a1 hsel
        exact ⟨b1, b2, es, by rw [b3, a4], by rw [b4, a5]⟩
      obtain ⟨c1, c2, _, es2, c4, c5⟩ := runFrame_common d b 0 c.l1 (wd.drop c.l0.toNat) first (fun h => hw2 h h2)
      rw [hsel] at a5
      have htr : ∀ t : State, t.trace = (runFrame d b 0 c.l1 (wd.drop c.l0.toNat) first).trace →
          t.sel = (runFrame d b 0 c.l1 (wd.drop c.l0.toNat) first).sel →
          ∃ es, t.trace = s.trace ++ es ∧ busAfter .free es = some (selLevel t.sel) := by
        intro t h h'
        refine ⟨es ++ es2, by rw [h, c4, a4, List.append_assoc], ?_⟩
        rw [busAfter_append, a5, h']
        exact c5
      generalize runFrame d b 0 c.l1 (wd.drop c.l0.toNat) first = second at *
      simp only [joinFrames]
      cases h4 : second.res with
      | none => exact ⟨a1.trans c1, c2, htr _ rfl rfl⟩
      | errBus e =>
        obtain ⟨b1, b2, b3, b4⟩ := bufferLost_common l e s second (a1.trans c1) c2 h4
        exact ⟨b1, b2, htr _ b3 b4⟩
      | ok =>
        obtain ⟨d1, d2, _⟩ := c2.ended (by rw [h4]; simp)
        exact ⟨a1.trans c1, .inl ⟨d1, d2, by simp [h4], by simp [h4]⟩, htr _ rfl rfl⟩

/-- The data of a write transfer, cut as the splitter says (R178). -/
theorem split_lengths (p l : Half) (sz : BitVec 4) (wd : List Byte) (hw : wd.length = l.toNat) :
    (wd.take (cpSplit p l sz).l0.toNat).length = (cpSplit p l sz).l0.toNat ∧
    ((cpSplit p l sz).two = true → (wd.drop (cpSplit p l sz).l0.toNat).length = (cpSplit p l sz).l1.toNat) ∧
    ((cpSplit p l sz).two = false → wd.take (cpSplit p l sz).l0.toNat = wd ∧ (cpSplit p l sz).l0 = l) := by
  obtain ⟨h1, h2, h3⟩ := cpSplit_spec p l sz
  have h4 := cpWrap_lt p sz
  rcases h3 with ⟨a, b, c, d⟩ | ⟨a, b, c⟩
  · refine ⟨?_, fun _ => ?_, by simp [a]⟩
    · rw [List.length_take, hw]; omega
    · rw [List.length_drop, hw]; omega
  · refine ⟨by rw [List.length_take, hw, c]; omega, by simp [a], fun _ => ⟨?_, c⟩⟩
    rw [c, ← hw, List.take_length]

theorem peerTakes_sub (s : State) (b : Block) (sz : BitVec 4) (o : Half) (n : Nat) (h : PeerTakes s b 0 (2 ^ sz.toNat))
    (hn : o.toNat + n ≤ 2 ^ sz.toNat) : PeerTakes s b o n := by
  refine ⟨h.1, h.2.1, ?_⟩
  have := h.2.2
  simp only [BitVec.ofNat_eq_ofNat, BitVec.toNat_ofNat, Nat.zero_mod, Nat.zero_add] at this
  omega

theorem peerTakes_congr (s t : State) (b : Block) (o : Half) (n : Nat) (h : PeerTakes s b o n) (hp : t.peer = .reference)
    (h1 : t.txLog2 = s.txLog2) (h2 : t.rxLog2 = s.rxLog2) : PeerTakes t b o n := by
  refine ⟨hp, h.2.1, ?_⟩
  have := h.2.2
  unfold blockLimit at *
  rw [h1, h2]
  exact this

/-- A write transfer on a quiet bus: both chunks are stored. -/
theorem splitTransfer_write_quiet (b : Block) (p l : Half) (sz : BitVec 4) (wd : List Byte) (s : State)
    (hv : Quiet s.env) (hw : wd.length = l.toNat) (hl : l.toNat ≤ 2 ^ sz.toNat)
    (hk : PeerTakes s b 0 (2 ^ sz.toNat)) :
    (splitTransfer .write b l (cpSplit p l sz) wd s).peer = .reference ∧
    Quiet (splitTransfer .write b l (cpSplit p l sz) wd s).env ∧
    (splitTransfer .write b l (cpSplit p l sz) wd s).res = .ok ∧
    (splitTransfer .write b l (cpSplit p l sz) wd s).pm =
      (let m := Memory.setAll s.pm (byteKey b (cpWrap p sz).toNat) (wd.take (cpSplit p l sz).l0.toNat)
       if (cpSplit p l sz).two = true then Memory.setAll m (byteKey b 0) (wd.drop (cpSplit p l sz).l0.toNat) else m) := by
  obtain ⟨l1, l2, l3⟩ := split_lengths p l sz wd hw
  obtain ⟨h1, h2, h3⟩ := cpSplit_spec p l sz
  have h4 := cpWrap_lt p sz
  simp only [bufSize] at h3 h4
  rw [splitTransfer_write _ _ _ _ _ l1 l2]
  have hk1 : PeerTakes s b (cpSplit p l sz).o0 (cpSplit p l sz).l0.toNat := by
    apply peerTakes_sub s b sz _ _ hk
    rw [h1]
    rcases h3 with h | h
    · omega
    · rw [h.2.2]; omega
  obtain ⟨a1, a2, a3, a4⟩ := runFrame_write_quiet b (cpSplit p l sz).o0 (cpSplit p l sz).l0 _ s l1 hk1 hv
  have hs := (runFrame_common .write b (cpSplit p l sz).o0 (cpSplit p l sz).l0 (wd.take (cpSplit p l sz).l0.toNat) s (fun _ => l1)).1
  generalize runFrame .write b (cpSplit p l sz).o0 (cpSplit p l sz).l0 (wd.take (cpSplit p l sz).l0.toNat) s = t at *
  rw [h1] at a4
  cases h2 : (cpSplit p l sz).two
  · simp only [Bool.false_eq_true, false_and, if_false]
    exact ⟨a1, a2, a3, a4⟩
  · simp only [true_and, a3, if_true, cutsBetween_quiet _ a2, Bool.false_eq_true, if_false]
    have hk2 : PeerTakes t b 0 (cpSplit p l sz).l1.toNat := by
      apply peerTakes_congr s t _ _ _ _ a1 hs.2.2.2.2.2.2.1 hs.2.2.2.2.2.2.2
      apply peerTakes_sub s b sz _ _ hk
      rcases h3 with h | h
      · simp only [BitVec.ofNat_eq_ofNat, BitVec.toNat_ofNat, Nat.zero_mod]; omega
      · rw [h2] at h; simp at h
    obtain ⟨b1, b2, b3, b4⟩ := runFrame_write_quiet b 0 (cpSplit p l sz).l1 _ t (l2 h2) hk2 a2
    refine ⟨b1, b2, b3, ?_⟩
    rw [b4, a4]
    simp

/-- A position of the circular buffer, without the modulo (R174). -/
theorem mod_split (p j S : Nat) (hj : j ≤ S) (hS : 0 < S) :
    (p + j) % S = if p % S + j < S then p % S + j else p % S + j - S := by
  have h1 := Nat.mod_lt p hS
  rw [← Nat.mod_add_mod]
  generalize p % S = q at *
  split
  · rename_i h2; exact Nat.mod_eq_of_lt h2
  · rw [Nat.mod_eq_sub_mod (by omega), Nat.mod_eq_of_lt (by omega)]

/-- The byte at any key after both chunks of a write transfer have been stored (R178). -/
theorem splitStored_get (b : Block) (p l : Half) (sz : BitVec 4) (wd : List Byte) (m : List Host.Cell)
    (hw : wd.length = l.toNat) (hl : l.toNat ≤ 2 ^ sz.toNat) (a : Nat) :
    Memory.get (let m1 := Memory.setAll m (byteKey b (cpWrap p sz).toNat) (wd.take (cpSplit p l sz).l0.toNat)
       if (cpSplit p l sz).two = true then Memory.setAll m1 (byteKey b 0) (wd.drop (cpSplit p l sz).l0.toNat) else m1) a =
    if byteKey b (cpWrap p sz).toNat ≤ a ∧ a < byteKey b (cpWrap p sz).toNat + (cpSplit p l sz).l0.toNat then
      wd[a - byteKey b (cpWrap p sz).toNat]?
    else if (cpSplit p l sz).two = true ∧ byteKey b 0 ≤ a ∧ a < byteKey b 0 + (cpSplit p l sz).l1.toNat then
      wd[a - byteKey b 0 + (cpSplit p l sz).l0.toNat]?
    else Memory.get m a := by
  obtain ⟨h1, h2, h3⟩ := cpSplit_spec p l sz
  have h4 := cpWrap_lt p sz
  obtain ⟨l1, l2, l3⟩ := split_lengths p l sz wd hw
  simp only [bufSize] at h3 h4
  simp only [byteKey] at *
  cases ht : (cpSplit p l sz).two
  · simp only [Bool.false_eq_true, if_false, false_and]
    rw [Memory.get_setAll, l1]
    split
    · rename_i h; rw [List.getElem?_take, if_pos (by omega)]
    · rfl
  · simp only [if_true, true_and]
    rw [Memory.get_setAll, Memory.get_setAll, l1, l2 ht]
    rcases h3 with h | h
    · split
      · rename_i hx
        rw [if_neg (by omega)]
        rw [List.getElem?_drop]; congr 1; omega
      · split
        · rename_i hx; rw [List.getElem?_take, if_pos (by omega)]
        · rfl
    · rw [ht] at h; simp at h

/-- A read transfer on a quiet bus. -/
theorem splitTransfer_read_quiet (b : Block) (p l : Half) (sz : BitVec 4) (s : State)
    (hv : Quiet s.env) (hl : l.toNat ≤ 2 ^ sz.toNat) (hk : PeerTakes s b 0 (2 ^ sz.toNat)) :
    (splitTransfer .read b l (cpSplit p l sz) [] s).peer = .reference ∧
    Quiet (splitTransfer .read b l (cpSplit p l sz) [] s).env ∧
    (splitTransfer .read b l (cpSplit p l sz) [] s).res = .ok ∧
    (splitTransfer .read b l (cpSplit p l sz) [] s).pm = s.pm ∧
    (splitTransfer .read b l (cpSplit p l sz) [] s).rdata =
      (List.range l.toNat).map fun j => s.peerByte (byteKey b ((p.toNat + j) % 2 ^ sz.toNat)) := by
  obtain ⟨h1, h2, h3⟩ := cpSplit_spec p l sz
  have h4 := cpWrap_lt p sz
  have h5 := bufSize_pos sz
  have e : 2 ^ sz.toNat = bufSize sz := rfl
  have hl' : l.toNat ≤ bufSize sz := hl
  have hm := fun j (hj : j < l.toNat) => mod_split p.toNat j (bufSize sz) (by omega) h5
  rw [← cpWrap_toNat] at hm
  have hk1 : PeerTakes s b (cpSplit p l sz).o0 (cpSplit p l sz).l0.toNat := by
    apply peerTakes_sub s b sz _ _ hk
    rw [h1, e]
    rcases h3 with h | h
    · omega
    · rw [h.2.2]; omega
  obtain ⟨a1, a2, a3, a4, a5⟩ := runFrame_read_quiet b (cpSplit p l sz).o0 (cpSplit p l sz).l0 s hk1 hv
  have hs := (runFrame_common .read b (cpSplit p l sz).o0 (cpSplit p l sz).l0 [] s (by simp)).1
  unfold splitTransfer
  simp only [secondFrame, List.take_nil, List.drop_nil]
  generalize runFrame .read b (cpSplit p l sz).o0 (cpSplit p l sz).l0 [] s = t at *
  rcases h3 with h | h
  · rw [h.1]
    simp only [if_true, a3]
    have hk2 : PeerTakes t b 0 (cpSplit p l sz).l1.toNat := by
      apply peerTakes_congr s t _ _ _ _ a1 hs.2.2.2.2.2.2.1 hs.2.2.2.2.2.2.2
      apply peerTakes_sub s b sz _ _ hk
      rw [e]; simp; omega
    obtain ⟨b1, b2, b3, b4, b5⟩ := runFrame_read_quiet b 0 (cpSplit p l sz).l1 t hk2 a2
    generalize runFrame .read b 0 (cpSplit p l sz).l1 [] t = u at *
    simp only [cutsBetween_quiet _ a2, Bool.false_eq_true, if_false, joinFrames, b3]
    refine ⟨by simpa using b1, by simpa using b2, by simpa using b3, by simpa using b4.trans a4, ?_⟩
    simp only [State.returns_rdata, State.holds_rdata]
    rw [a5, b5, peerBytes_congr s t a4, h1]
    apply List.ext_getElem
    · simp [State.peerBytes]; omega
    · intro j hj1 hj2
      simp only [List.length_map, List.length_range] at hj2
      rw [List.getElem_append]
      simp only [State.peerBytes, List.getElem_map, List.getElem_range, List.length_map, List.length_range]
      rw [e, hm j hj2]
      split
      · rw [if_pos (by omega)]; exact congrArg s.peerByte (by simp only [byteKey]; omega)
      · rw [if_neg (by omega)]; exact congrArg s.peerByte (by simp only [byteKey, BitVec.ofNat_eq_ofNat, BitVec.toNat_ofNat, Nat.zero_mod]; omega)
  · rw [h.1]
    simp only [Bool.false_eq_true, if_false]
    refine ⟨a1, a2, a3, a4, ?_⟩
    rw [a5, h1, h.2.2]
    apply List.map_congr_left
    intro j hj
    simp only [List.mem_range] at hj
    rw [e, hm j hj, if_pos (by omega)]
    exact congrArg s.peerByte (by simp only [byteKey]; omega)

end Sys2Proof.Machine
end

