-- ==== Sys2Proof/Laws/Steps.lean ====
section
/-! SUPPORT. What one step of the machine can do: one equation per case of `move`, and what the operations do to the invariant
and to the bus trace. -/

namespace Sys2Proof.Machine

/-! ### The cases of a step -/

/-- A reset item takes effect at once (R266). -/
theorem step_reset (s : State) (rest : List HostItem) (h : s.program = .reset :: rest) :
    step s = .next (resetMove (State.goesOn rest s)) := by
  simp only [step, move, h]

/-- Inside a frame the engine moves (R17 (b)). -/
theorem step_frame (s : State) (hn : NoReset s) (hp : s.phase ≠ .idle) : step s = .next (fteStep s) := by
  unfold step move
  split
  · rename_i rest heq; exact absurd heq (hn rest)
  · cases h : s.phase <;> simp_all

/-- Between operations the one whose turn it is moves (R261). -/
theorem step_idle (s : State) (hn : NoReset s) (hp : s.phase = .idle) : step s = busMove s.due := by
  unfold step move
  split
  · rename_i rest heq; exact absurd heq (hn rest)
  · simp only [hp]

/-- A host in a sequence issues the operation of its position (R17 (a)). -/
theorem step_task (s : State) (k : HostTask) (h : HasBus s k) : step s = taskMove k s.due := by
  rw [step_idle s h.2.1 h.1, busMove, h.2.2]

/-- The host takes the next item of its program (R17 (a)). -/
theorem step_host (s : State) (h : HostFree s) (hn : NoReset s) : step s = hostMove s.due := by
  rw [step_idle s hn h.1, busMove, h.2]

/-- Everything a step can do. -/
theorem step_cases (s : State) :
    (∃ rest, s.program = .reset :: rest ∧ step s = .next (resetMove (State.goesOn rest s))) ∨
    (s.phase ≠ .idle ∧ step s = .next (fteStep s)) ∨
    (s.phase = .idle ∧ ∃ k, s.due.task = some k ∧ step s = taskMove k s.due) ∨
    (s.phase = .idle ∧ s.due.task = none ∧ step s = hostMove s.due) := by
  by_cases hr : ∃ rest, s.program = .reset :: rest
  · obtain ⟨rest, h⟩ := hr
    exact .inl ⟨rest, h, step_reset s rest h⟩
  have hn : NoReset s := fun rest h => hr ⟨rest, h⟩
  by_cases hp : s.phase = .idle
  · cases ht : s.due.task with
    | some k => exact .inr (.inr (.inl ⟨hp, k, rfl, step_task s k ⟨hp, hn, ht⟩⟩))
    | none => exact .inr (.inr (.inr ⟨hp, rfl, step_host s ⟨hp, ht⟩ hn⟩))
  · exact .inr (.inl ⟨hp, step_frame s hn hp⟩)

/-- Everything the host can do on its own (R17 (a)). -/
theorem hostMove_cases (s : State) :
    (∃ p rest, s.program = .op p :: rest ∧ hostMove s = packetMove p (State.goesOn rest s)) ∨
    (∃ c rest, s.program = .call c :: rest ∧ hostMove s = .next (callMove c rest s)) ∨
    (∃ rest, s.program = .reset :: rest ∧ hostMove s = .next (fuReset (State.goesOn rest s))) ∨
    (s.program = [] ∧ hostMove s = .next (restMove s)) := by
  rcases h : s.program with _ | ⟨p | c | _, rest⟩
  · exact .inr (.inr (.inr ⟨rfl, by rw [hostMove, h]⟩))
  · exact .inl ⟨p, rest, rfl, by rw [hostMove, h]⟩
  · exact .inr (.inl ⟨c, rest, rfl, by rw [hostMove, h]⟩)
  · exact .inr (.inr (.inl ⟨rest, rfl, by rw [hostMove, h]⟩))

/-! ### Whose sequence it is -/

/-- A sequence stays on its socket (R261). -/
theorem taskReturn_sock (cfg : Config) (k k' : HostTask) (rdata : List Byte) (h : taskReturn cfg k rdata = .go k') :
    k'.sock = k.sock := by
  cases k <;> simp only [taskReturn, sizeTaken] at h
  case socket => cases h
  case sizeFirst u => cases h; rfl
  case sizeSecond u s0 =>
    split at h
    · cases u with
      | get i => cases h
      | recv j =>
        simp only [] at h
        split at h <;> cases h
        rfl
    · cases h; rfl
  case sendCommand j =>
    cases hm : j.retryMax <;> rw [hm] at h <;> cases h
    rfl
  case sendPoll j left =>
    split at h
    · cases h; rfl
    · cases hm : left - 1 <;> rw [hm] at h <;> cases h
      rfl
  all_goals (cases h; try rfl)

/-- Giving the bus to another changes nothing but who stands in which sequence (R261). -/
theorem givesBus_changes (t : Turn) (s : State) :
    State.givesBus t s = { s with task := (State.givesBus t s).task, parked := (State.givesBus t s).parked } := by
  cases t with
  | program => rfl
  | user i =>
    simp only [State.givesBus, State.resumes]
    split <;> rfl

/-- With no turn set the bus stays where it is. -/
theorem due_nil (s : State) (h : s.turns = []) : s.due = s := by rw [State.due, h]

/-- Whose turn it is changes nothing but who stands in which sequence (R261). -/
theorem due_changes (s : State) :
    s.due = { s with task := s.due.task, parked := s.due.parked, turns := s.due.turns } := by
  unfold State.due
  split
  · rfl
  · rw [givesBus_changes]
    rfl

@[simp] theorem State.due_sel (s : State) : s.due.sel = s.sel := by rw [due_changes]

@[simp] theorem State.due_phase (s : State) : s.due.phase = s.phase := by rw [due_changes]

@[simp] theorem State.due_idx (s : State) : s.due.idx = s.idx := by rw [due_changes]

@[simp] theorem State.due_dir (s : State) : s.due.dir = s.dir := by rw [due_changes]

@[simp] theorem State.due_bsb (s : State) : s.due.bsb = s.bsb := by rw [due_changes]

@[simp] theorem State.due_off (s : State) : s.due.off = s.off := by rw [due_changes]

@[simp] theorem State.due_len (s : State) : s.due.len = s.len := by rw [due_changes]

@[simp] theorem State.due_hdrb (s : State) : s.due.hdrb = s.hdrb := by rw [due_changes]

@[simp] theorem State.due_res (s : State) : s.due.res = s.res := by rw [due_changes]

@[simp] theorem State.due_wdata (s : State) : s.due.wdata = s.wdata := by rw [due_changes]

@[simp] theorem State.due_rdata (s : State) : s.due.rdata = s.rdata := by rw [due_changes]

@[simp] theorem State.due_resp (s : State) : s.due.resp = s.resp := by rw [due_changes]

@[simp] theorem State.due_trace (s : State) : s.due.trace = s.trace := by rw [due_changes]

@[simp] theorem State.due_pm (s : State) : s.due.pm = s.pm := by rw [due_changes]

@[simp] theorem State.due_peer (s : State) : s.due.peer = s.peer := by rw [due_changes]

@[simp] theorem State.due_txLog2 (s : State) : s.due.txLog2 = s.txLog2 := by rw [due_changes]

@[simp] theorem State.due_rxLog2 (s : State) : s.due.rxLog2 = s.rxLog2 := by rw [due_changes]

@[simp] theorem State.due_wire (s : State) : s.due.wire = s.wire := by rw [due_changes]

@[simp] theorem State.due_env (s : State) : s.due.env = s.env := by rw [due_changes]

@[simp] theorem State.due_draws (s : State) : s.due.draws = s.draws := by rw [due_changes]

@[simp] theorem State.due_program (s : State) : s.due.program = s.program := by rw [due_changes]

@[simp] theorem State.due_results (s : State) : s.due.results = s.results := by rw [due_changes]

/-- Waiting for the bus keeps the sockets of the sequences apart (R261). -/
theorem parks_hostInv (s : State) (h : s.HostInv) : s.parks.HostInv := by
  simp only [State.HostInv, State.parks_task, State.parks_parked, Option.toList_none, List.nil_append, List.map_append] at h ⊢
  exact (List.perm_append_comm.nodup_iff).1 h

theorem resumes_hostInv (i : Sock) (s : State) (h : s.HostInv) : (s.resumes i).HostInv := by
  unfold State.resumes
  split
  · exact h
  · rename_i k hk
    have hi : k.sock = i := by simpa using List.find?_some hk
    have hm := List.mem_of_find?_eq_some hk
    simp only [State.HostInv, List.map_append] at h ⊢
    obtain ⟨h1, h2, h3⟩ := List.nodup_append.1 h
    have hsub : List.Sublist ((s.parked.filter (fun k : HostTask => k.sock != i)).map HostTask.sock) (s.parked.map HostTask.sock) :=
      (List.filter_sublist (p := fun k : HostTask => k.sock != i)).map _
    refine List.nodup_append.2 ⟨by simp, List.nodup_append.2 ⟨h2.sublist hsub, h1, fun a ha b hb e => ?_⟩,
      fun a ha b hb e => ?_⟩
    · exact h3 b hb a (hsub.subset ha) e.symm
    · simp only [Option.toList_some, List.map_cons, List.map_nil, List.mem_singleton] at ha
      subst ha
      rcases List.mem_append.1 hb with hb | hb
      · obtain ⟨q, hq, rfl⟩ := List.mem_map.1 hb
        have := (List.mem_filter.1 hq).2
        simp only [bne_iff_ne, ne_eq] at this
        exact this (e.symm.trans hi)
      · exact h3 b hb k.sock (List.mem_map.2 ⟨k, hm, rfl⟩) e.symm

theorem due_hostInv (s : State) (h : s.HostInv) : s.due.HostInv := by
  unfold State.due
  split
  · exact h
  · rename_i t rest _
    have h' : (State.turnTaken rest s).HostInv := h
    cases t with
    | program => exact parks_hostInv _ h'
    | user i => exact resumes_hostInv i _ h'

theorem callStart_sock (c : Call) : (callStart c).sock = c.sock := by cases c <;> rfl

theorem callMove_hostInv (c : Call) (rest : List HostItem) (s : State) (h : s.HostInv) (ht : s.task = none) :
    (callMove c rest s).HostInv := by
  unfold callMove
  split
  · exact resumes_hostInv _ _ h
  · rename_i hn
    simp only [State.HostInv, ht, Option.toList_none, List.nil_append] at h
    simp only [State.HostInv, State.stands_task, State.stands_parked, State.goesOn_parked, Option.toList_some,
      List.singleton_append, List.map_cons, List.nodup_cons, callStart_sock]
    refine ⟨fun hm => hn ?_, h⟩
    obtain ⟨q, hq, e⟩ := List.mem_map.1 hm
    exact List.any_eq_true.2 ⟨q, hq, by simp [e]⟩

/-! ### One step of the engine -/

/-- The peer after a byte that reaches it in an open frame. -/
theorem peerSees_peerInv (t : Byte) (s : State) (hw : Memory.wf s.pm) (hl : s.peer = .lost → s.pm = [])
    (hd : s.phase = .data → s.peer = .reference → peerRefuses s (hdrDec Config.std s.hdrb) s.len.toNat = none)
    (hx : s.phase = .data → s.idx.toNat < s.len.toNat) :
    Memory.wf (s.peerSees t).2.pm ∧ ((s.peerSees t).2.peer = .lost → (s.peerSees t).2.pm = []) ∧
    (s.phase = .data ∨ s.idx = 2 ∧ s.phase = .hdr → (s.peerSees t).2.peer = .reference →
      peerRefuses s (hdrDec Config.std s.hdrb) s.len.toNat = none) := by
  unfold State.peerSees
  cases hp : s.phase with
  | idle => exact ⟨hw, hl, by simp⟩
  | hdr =>
    by_cases hi : s.idx = 2
    · simp only [hi, if_true]
      have e : peerRefuses (s.drawn 1) (hdrDec Config.std (s.drawn 1).hdrb) (s.drawn 1).len.toNat =
          peerRefuses s (hdrDec Config.std s.hdrb) s.len.toNat := peerRefuses_congr s _ _ _ rfl rfl
      unfold State.peerJudges
      rw [e]
      split
      · rename_i h
        exact ⟨hw, hl, fun _ _ => h⟩
      · exact ⟨Memory.wf_nil, fun _ => rfl, fun _ h => by cases h⟩
    · simp only [hi, if_false]
      exact ⟨hw, hl, by simp⟩
  | data =>
    simp only [State.peerData]
    cases hpe : s.peer with
    | lost => exact ⟨hw, fun _ => hl hpe, fun _ h => by rw [show (s.drawn 1).peer = s.peer from rfl, hpe] at h; cases h⟩
    | reference =>
      have h1 := hd hp hpe
      cases hdir : (hdrDec Config.std s.hdrb).dir with
      | read => exact ⟨hw, hl, fun _ _ => h1⟩
      | write =>
        refine ⟨Memory.wf_set _ _ _ hw (byteKey_lt _ _ ?_), fun h => ?_, fun _ _ => h1⟩
        · have h2 := hx hp
          unfold peerRefuses at h1
          split at h1
          · cases h1
          · split at h1
            · cases h1
            · split at h1
              · cases h1
              · omega
        · have : (State.store (byteKey (hdrDec Config.std s.hdrb).bsb ((hdrDec Config.std s.hdrb).off.toNat + s.idx.toNat)) t
              (s.drawn 1)).peer = s.peer := rfl
          rw [this, hpe] at h; cases h

/-- The peer after its engine has moved. -/
theorem peerMoves_peerInv (s : State) (h : s.PeerInv) (env : List EnvEvent) :
    (State.withEnv env s.peerMoves).PeerInv := by
  obtain ⟨h1, h2, h3⟩ := h
  refine ⟨?_, fun hl => ?_, fun hp hr => ?_⟩
  · show Memory.wf (if s.peer = .lost then s.pm else pokeAll s.env s.pm)
    split
    · exact h1
    · exact pokeAll_wf _ _ h1
  · have hl : s.peer = .lost := hl
    show (if s.peer = .lost then s.pm else pokeAll s.env s.pm) = []
    rw [if_pos hl]
    exact h2 hl
  · rw [peerRefuses_congr s (State.withEnv env s.peerMoves) _ _ rfl rfl]
    exact h3 hp hr

/-- The peer after an exchange of an open frame. -/
theorem xchg_peerInv (t : Byte) (s : State) (h : s.PeerInv) (hx : s.phase = .data → s.idx.toNat < s.len.toNat) :
    Memory.wf (xchg t s).2.pm ∧ ((xchg t s).2.peer = .lost → (xchg t s).2.pm = []) ∧
    (s.phase = .data → (xchg t s).2.peer = .reference →
      peerRefuses s (hdrDec Config.std s.hdrb) s.len.toNat = none) ∧
    ∀ r, (xchg t s).1 = .ok r → s.idx = 2 ∧ s.phase = .hdr → (xchg t s).2.peer = .reference →
      peerRefuses s (hdrDec Config.std s.hdrb) s.len.toNat = none := by
  have see : ∀ env, Memory.wf (State.peerSees t (State.withEnv env s.peerMoves)).2.pm ∧
      ((State.peerSees t (State.withEnv env s.peerMoves)).2.peer = .lost →
        (State.peerSees t (State.withEnv env s.peerMoves)).2.pm = []) ∧
      (s.phase = .data ∨ s.idx = 2 ∧ s.phase = .hdr →
        (State.peerSees t (State.withEnv env s.peerMoves)).2.peer = .reference →
        peerRefuses s (hdrDec Config.std s.hdrb) s.len.toNat = none) := by
    intro env
    obtain ⟨h1, h2, h3⟩ := peerMoves_peerInv s h env
    obtain ⟨a1, a2, a3⟩ := peerSees_peerInv t (State.withEnv env s.peerMoves) h1 h2 h3 hx
    rw [peerRefuses_congr s (State.withEnv env s.peerMoves) _ _ rfl rfl] at a3
    exact ⟨a1, a2, a3⟩
  have arr : ∀ reached env, Memory.wf (arrives reached (State.peerSees t) (State.withEnv env s.peerMoves)).pm ∧
      ((arrives reached (State.peerSees t) (State.withEnv env s.peerMoves)).peer = .lost →
        (arrives reached (State.peerSees t) (State.withEnv env s.peerMoves)).pm = []) ∧
      (s.phase = .data → (arrives reached (State.peerSees t) (State.withEnv env s.peerMoves)).peer = .reference →
        peerRefuses s (hdrDec Config.std s.hdrb) s.len.toNat = none) := by
    intro reached env
    cases reached with
    | true =>
      obtain ⟨a1, a2, a3⟩ := see env
      exact ⟨a1, a2, fun hp => a3 (.inl hp)⟩
    | false =>
      obtain ⟨h1, h2, _⟩ := peerMoves_peerInv s h env
      exact ⟨h1, h2, fun hp hr => h.2.2 hp hr⟩
  unfold xchg
  obtain ⟨reached, env, _, _, ⟨h3, h4⟩ | ⟨h4, h3⟩⟩ := xchgWith_cases (State.peerSees t) s <;> rw [h3]
  · obtain ⟨a1, a2, a3⟩ := arr reached env
    refine ⟨a1, a2, a3, fun r hr hp => ?_⟩
    cases h4 r hr
    exact (see env).2.2 (.inr hp)
  · obtain ⟨a1, a2, a3⟩ := arr reached env
    refine ⟨?_, fun hl => ?_, a3, fun r hr => by rw [h4] at hr; cases hr⟩
    · rw [State.resetTaken_pm]
      split
      · exact a1
      · exact pokeAll_wf _ _ a1
    · rw [State.resetTaken_peer] at hl
      rw [State.resetTaken_pm, if_pos hl]
      exact a2 hl

/-- An idle engine with bus-select released meets the invariant if the peer and the host do. -/
theorem idle_inv (s : State) (h1 : s.phase = .idle) (h2 : s.sel = .released) (h3 : Memory.wf s.pm)
    (h4 : s.peer = .lost → s.pm = []) (h5 : s.HostInv) : s.Inv :=
  ⟨⟨by simp [h1, h2], by simp [h1], by simp [h1], by simp [h1]⟩, ⟨h3, h4, by simp [h1]⟩, h5⟩

end Sys2Proof.Machine
end

