-- ==== Sys2Proof/Laws/Sequences.lean ====
section
/-! SUPPORT. What one position of a host sequence does on a quiet bus with the reference peer (44_socket_ops.md R195,
45_udp.md R221, R225): one lemma per kind of operation issued. -/

namespace Sys2Proof.Machine

/-- The copied length is a count: the declared length has 16 bits (R225, R227). -/
theorem copyLen_lt (j : RecvJob) (h : InlineHeader) : copyLen j h < 65536 :=
  Nat.lt_of_le_of_lt (Nat.min_le_right _ _) h.declared.isLt

/-- At its payload position udp_receive reads the payload behind the inline header (R225 step 4). -/
theorem taskIssue_recvPayload (j : RecvJob) (p : Half) (h : InlineHeader) :
    taskIssue Config.std (.recvPayload j p h) =
      .ok (.cbRd (blockOf j.sock .srx) (cpAdv p 8) (BitVec.ofNat 16 (copyLen j h)) j.szlog2) := by
  simp [taskIssue, copyLen_lt]

/-- The host stands at position `k` of a sequence, the engine idle, the bus quiet, the reference peer holding `pm`; `s0` is
where the sequence came from. -/
structure Stands (s0 : State) (k : HostTask) (pm : List Host.Cell) (s : State) : Prop where
  phase : s.phase = .idle
  task : s.task = some k
  program : s.program = s0.program
  parked : s.parked = s0.parked
  turns : s.turns = []
  results : s.results = s0.results
  peer : s.peer = .reference
  quiet : Quiet s.env
  pm : s.pm = pm
  txLog2 : s.txLog2 = s0.txLog2
  rxLog2 : s.rxLog2 = s0.rxLog2

/-- The sequence has ended with the result `r`. -/
structure Ended (s0 : State) (r : HostResult) (pm : List Host.Cell) (s : State) : Prop where
  phase : s.phase = .idle
  task : s.task = none
  program : s.program = s0.program
  parked : s.parked = s0.parked
  turns : s.turns = []
  results : s.results = s0.results ++ [r]
  peer : s.peer = .reference
  quiet : Quiet s.env
  pm : s.pm = pm

/-- What holds of the state when an operation of the sequence has succeeded. -/
def After (s0 : State) (x : HostNext) (pm : List Host.Cell) (s : State) : Prop :=
  match x with
  | .go k => Stands s0 k pm s
  | .finish r => Ended s0 r pm s

/-- One position whose operation succeeds: the machine's step takes the host on (R208). -/
theorem stands_step {s0 s t : State} {k : HostTask} {pm : List Host.Cell} {i : Instr} (h : Stands s0 k pm s)
    (hn : NoReset s0) (hi : taskIssue Config.std k = .ok i) (he : exec i s = .next t) (h1 : BusOutcome t)
    (h2 : SameOutside s t) (h3 : t.res = .ok) (h5 : t.peer = .reference)
    (h6 : Quiet t.env) (pm' : List Host.Cell) (h7 : t.pm = pm') (x : HostNext)
    (hx : taskReturn Config.std k t.rdata = x) :
    ∃ u, step s = .next u ∧ After s0 x pm' u ∧ u.trace = t.trace := by
  obtain ⟨a1, a2, a3, a4, a5, a6, a7, a8⟩ := h2
  have hn' : NoReset s := by intro rest; rw [h.program]; exact hn rest
  obtain ⟨hp, _, hr⟩ := h1.ended (by rw [h3]; simp)
  rw [h3] at hr
  refine ⟨taskAfter k t, ?_, ?_, ?_⟩
  · rw [step_task s k ⟨h.phase, hn', by rw [due_nil s h.turns]; exact h.task⟩, due_nil s h.turns, taskMove, hi]
    simp only [he]
  · simp only [taskAfter, hp, hr, hx]
    cases x with
    | go k' =>
      exact ⟨hp, rfl, a1.trans h.program, a3.trans h.parked, a4.trans h.turns, a5.trans h.results, h5, h6, h7,
        a7.trans h.txLog2, a8.trans h.rxLog2⟩
    | finish r =>
      refine ⟨hp, rfl, a1.trans h.program, a3.trans h.parked, a4.trans h.turns, ?_, h5, h6, h7⟩
      show t.results ++ [r] = _
      rw [a5, h.results]
  · simp only [taskAfter, hp, hr, hx]
    cases x <;> rfl

theorem peerTakes_sreg (s : State) (i : Sock) (o : Half) (n : Nat) (h : s.peer = .reference) (ho : o.toNat + n ≤ 65536) :
    PeerTakes s (blockOf i .sreg) o n := by
  refine ⟨h, blockAssigned_blockOf _ _ (.inl (by decide)), ?_⟩
  simp only [blockLimit, blockRegion_blockOf]
  exact ho

/-- A position that writes a register (R195). -/
theorem stands_write {s0 s : State} {k : HostTask} {pm : List Host.Cell} {i : Sock} {r : RegName} {bytes : List Byte}
    (h : Stands s0 k pm s) (hn : NoReset s0) (hi : taskIssue Config.std k = .ok (regWrite Config.std i r bytes))
    (hl : (Config.std.roff r).toNat + bytes.length ≤ 65536) (hl' : bytes.length < 65536) (x : HostNext)
    (hx : ∀ rdata, taskReturn Config.std k rdata = x) :
    ∃ u, step s = .next u ∧
      After s0 x (Memory.setAll pm (byteKey (blockOf i .sreg) (Config.std.roff r).toNat) bytes) u := by
  have hlen : bytes.length = (BitVec.ofNat 16 bytes.length).toNat := by rw [BitVec.toNat_ofNat]; omega
  have hk : PeerTakes s (blockOf i .sreg) (Config.std.roff r) (BitVec.ofNat 16 bytes.length).toNat :=
    peerTakes_sreg s i _ _ h.peer (by omega)
  obtain ⟨b1, b2, b3, b4⟩ := runFrame_write_quiet _ _ _ bytes s hlen hk h.quiet
  obtain ⟨c1, c2, _⟩ :=
    runFrame_common .write (blockOf i .sreg) (Config.std.roff r) (BitVec.ofNat 16 bytes.length) bytes s (fun _ => hlen)
  rw [h.pm] at b4
  obtain ⟨u, h1, h2, _⟩ := stands_step h hn hi (exec_frameWr _ _ _ bytes s h.phase) c2 c1 b3 b1 b2 _ b4 x (hx _)
  exact ⟨u, h1, h2⟩

/-- The bytes of a register in a memory. -/
def regBytes (pm : List Host.Cell) (i : Sock) (r : RegName) : List Byte :=
  (List.range (regWidth r)).map fun k =>
    (Memory.get pm (byteKey (blockOf i .sreg) ((Config.std.roff r).toNat + k))).getD
      (Config.peerInit (byteKey (blockOf i .sreg) ((Config.std.roff r).toNat + k)))

theorem sockReg_regBytes (s : State) (i : Sock) (r : RegName) : s.sockReg i r = regBytes s.pm i r := rfl

theorem peerBytes_regBytes (s : State) (i : Sock) (r : RegName) :
    s.peerBytes (byteKey (blockOf i .sreg) (Config.std.roff r).toNat) (regWidth r) = regBytes s.pm i r := by
  simp only [State.peerBytes, regBytes, State.peerByte, byteKey, Nat.add_assoc]

theorem regWidth_ofNat (r : RegName) : (BitVec.ofNat 16 (regWidth r)).toNat = regWidth r := by cases r <;> rfl

theorem roff_room (r : RegName) : (Config.std.roff r).toNat + regWidth r ≤ 65536 := by cases r <;> decide

/-- A position that reads a register (R195). -/
theorem stands_read {s0 s : State} {k : HostTask} {pm : List Host.Cell} {i : Sock} {r : RegName} (h : Stands s0 k pm s)
    (hn : NoReset s0) (hi : taskIssue Config.std k = .ok (regRead Config.std i r)) :
    ∃ u, step s = .next u ∧ After s0 (taskReturn Config.std k (regBytes pm i r)) pm u := by
  have hk : PeerTakes s (blockOf i .sreg) (Config.std.roff r) (BitVec.ofNat 16 (regWidth r)).toNat :=
    peerTakes_sreg s i _ _ h.peer (by rw [regWidth_ofNat]; exact roff_room r)
  obtain ⟨b1, b2, b3, b4, b5⟩ := runFrame_read_quiet _ _ _ s hk h.quiet
  obtain ⟨c1, c2, _⟩ :=
    runFrame_common .read (blockOf i .sreg) (Config.std.roff r) (BitVec.ofNat 16 (regWidth r)) [] s (by simp)
  rw [regWidth_ofNat, peerBytes_regBytes, h.pm] at b5
  rw [h.pm] at b4
  obtain ⟨u, h1, h2, _⟩ :=
    stands_step h hn hi (exec_frameRd _ _ _ s h.phase) c2 c1 b3 b1 b2 _ b4 _ (congrArg (taskReturn Config.std k) b5)
  exact ⟨u, h1, h2⟩

/-- The peer takes a whole buffer of the size in force (R64, R269). -/
theorem peerTakes_buffer (s : State) (i : Sock) (r : Region) (sz : BitVec 4) (h : s.peer = .reference)
    (hr : r ≠ .common) (hl : 2 ^ sz.toNat ≤ blockLimit s (blockOf i r)) :
    PeerTakes s (blockOf i r) 0 (2 ^ sz.toNat) := by
  refine ⟨h, blockAssigned_blockOf _ _ (.inl hr), ?_⟩
  simpa using hl

theorem blockLimit_congr (s t : State) (b : Block) (h1 : t.txLog2 = s.txLog2) (h2 : t.rxLog2 = s.rxLog2) :
    blockLimit t b = blockLimit s b := by
  unfold blockLimit
  rw [h1, h2]

/-- A position that writes a buffer (R177, R221 step 3). -/
theorem stands_bufferWrite {s0 s : State} {k : HostTask} {pm : List Host.Cell} {i : Sock} {p l : Half} {sz : BitVec 4}
    {wd : List Byte} (h : Stands s0 k pm s) (hn : NoReset s0)
    (hi : taskIssue Config.std k = .ok (.cbWr (blockOf i .stx) p l sz wd)) (hw : wd.length = l.toNat)
    (hl : l.toNat ≤ 2 ^ sz.toNat) (hb : 2 ^ sz.toNat ≤ blockLimit s0 (blockOf i .stx)) (x : HostNext)
    (hx : ∀ rdata, taskReturn Config.std k rdata = x) :
    ∃ u, step s = .next u ∧ After s0 x
      (let m := Memory.setAll pm (byteKey (blockOf i .stx) (cpWrap p sz).toNat) (wd.take (cpSplit p l sz).l0.toNat)
       if (cpSplit p l sz).two = true then
         Memory.setAll m (byteKey (blockOf i .stx) 0) (wd.drop (cpSplit p l sz).l0.toNat)
       else m) u := by
  rw [← blockLimit_congr s0 s _ h.txLog2 h.rxLog2] at hb
  have hk := peerTakes_buffer s i .stx sz h.peer (by decide) hb
  obtain ⟨b1, b2, b3, b4⟩ := splitTransfer_write_quiet _ p l sz wd s h.quiet hw hl hk
  obtain ⟨l1, l2, l3⟩ := split_lengths p l sz wd hw
  obtain ⟨c1, c2, _⟩ := splitTransfer_common .write (blockOf i .stx) l (cpSplit p l sz) wd s (fun _ => l1) (fun _ => l2)
  rw [h.pm] at b4
  obtain ⟨u, h1, h2, _⟩ :=
    stands_step h hn hi (exec_cbWr _ p l sz wd s h.phase hl) c2 c1 b3 b1 b2 _ b4 x (hx _)
  exact ⟨u, h1, h2⟩

/-- A position that reads a buffer (R176, R225 steps 3 and 4). -/
theorem stands_bufferRead {s0 s : State} {k : HostTask} {pm : List Host.Cell} {i : Sock} {p l : Half} {sz : BitVec 4}
    (h : Stands s0 k pm s) (hn : NoReset s0) (hi : taskIssue Config.std k = .ok (.cbRd (blockOf i .srx) p l sz))
    (hl : l.toNat ≤ 2 ^ sz.toNat) (hb : 2 ^ sz.toNat ≤ blockLimit s0 (blockOf i .srx)) :
    ∃ u, step s = .next u ∧ After s0 (taskReturn Config.std k ((List.range l.toNat).map fun j =>
      (Memory.get pm (byteKey (blockOf i .srx) ((p.toNat + j) % 2 ^ sz.toNat))).getD
        (Config.peerInit (byteKey (blockOf i .srx) ((p.toNat + j) % 2 ^ sz.toNat))))) pm u := by
  rw [← blockLimit_congr s0 s _ h.txLog2 h.rxLog2] at hb
  have hk := peerTakes_buffer s i .srx sz h.peer (by decide) hb
  obtain ⟨b1, b2, b3, b4, b5⟩ := splitTransfer_read_quiet _ p l sz s h.quiet hl hk
  obtain ⟨c1, c2, _⟩ := splitTransfer_common .read (blockOf i .srx) l (cpSplit p l sz) [] s nofun nofun
  rw [h.pm] at b4
  simp only [State.peerByte, h.pm] at b5
  obtain ⟨u, h1, h2, _⟩ :=
    stands_step h hn hi (exec_cbRd _ p l sz s h.phase hl) c2 c1 b3 b1 b2 _ b4 _ (by rw [b5])
  exact ⟨u, h1, h2⟩

end Sys2Proof.Machine
end

