-- ==== Sys2Proof/Laws/Wire.lean ====
section
/-! SUPPORT. What the data phase of a frame does at the peer, exchange by exchange (20_memory.md R63, 10_state.md R35, 42_frame.md
R157, R161 to R168): one lemma per thing it can do. -/

namespace Sys2Proof.Machine

/-- A frame at the peer changes nothing but the peer, the script and the count of draws. -/
theorem wireFrame_changes (f : HdrFields) (ts : List Byte) : ∀ (k : Nat) (s : State),
    (wireFrame f k ts s).2 =
      { s with
        pm := (wireFrame f k ts s).2.pm
        peer := (wireFrame f k ts s).2.peer
        env := (wireFrame f k ts s).2.env
        draws := (wireFrame f k ts s).2.draws } := by
  induction ts with
  | nil => intro k s; rfl
  | cons t ts ih =>
    intro k s
    have hc := xchgWith_changes _ (peerData_peerOnly f k t) s
    unfold wireFrame
    rcases hq : xchgWith (State.peerData f k t) s with ⟨o, s1⟩
    rw [hq] at hc
    simp only at hc
    cases o with
    | ok r => simp only []; rw [ih, hc]
    | fail e => simp only []; rw [hc]; rfl
    | hung => simp only []; rw [hc]; rfl
    | cut => simp only []; rw [hc]; rfl

/-- As many responses as exchanges succeed (R63, R157). -/
theorem wireFrame_length (f : HdrFields) (ts : List Byte) : ∀ (k : Nat) (s : State),
    (wireFrame f k ts s).1.length = succeeding s.env ts.length := by
  induction ts with
  | nil =>
    intro k s
    simp only [wireFrame, List.length_nil]
    generalize s.env = v
    induction v with
    | nil => rfl
    | cons ev rest ih => cases ev <;> simp [succeeding] <;> exact ih
  | cons t ts ih =>
    intro k s
    have ho := xchgWith_outcome _ (peerData_peerOnly f k t) s ts.length
    unfold wireFrame
    rcases hq : xchgWith (State.peerData f k t) s with ⟨o, s1⟩
    rw [hq] at ho
    cases o with
    | ok r => simp only [List.length_cons] at ho ⊢; rw [ho.2.1, ih]
    | fail e => simp only [List.length_cons] at ho ⊢; rw [ho.2.1]; rfl
    | hung => simp only [List.length_cons] at ho ⊢; rw [ho.2.1]; rfl
    | cut => simp only [List.length_cons] at ho ⊢; rw [ho.2.1]; rfl

theorem oracleByte_dropPokes (env : List EnvEvent) (k : Nat) : oracleByte (dropPokes env) k = oracleByte env k := by
  induction env with
  | nil => rfl
  | cons ev rest ih => cases ev <;> simp [dropPokes, oracleByte, ih]

theorem memoryAt_dropPokes (env : List EnvEvent) (k : Nat) : ∀ m, memoryAt (dropPokes env) k (pokeAll env m) = memoryAt env k m := by
  induction env with
  | nil => intro m; rfl
  | cons ev rest ih =>
    intro m
    cases ev with
    | poke b o v => simp only [dropPokes, pokeAll, memoryAt]; exact ih _
    | _ => rfl

/-- One exchange with a peer that stores nothing: the response is the oracle's byte, or the peer's, its engine having moved;
and every later exchange samples what it would have sampled (R35, R63). -/
theorem xchgWith_shift (peer : State → Byte × State) (hp : PeerOnly peer) (s : State) (hr : s.peer = .reference)
    (hk : ∀ m env, (peer { s with pm := m, env := env }).2.pm = m) :
    match xchgWith peer s with
    | (.ok r, s1) =>
      (∃ env, r = (oracleByte s.env 0).getD (peer { s with pm := memoryAt s.env 0 s.pm, env := env }).1) ∧
      ∀ j key, sampleAt s.env s.pm (j + 1) key = sampleAt s1.env s1.pm j key
    | _ => True := by
  have e1 := oracleByte_dropPokes s.env
  have e2 := fun j => memoryAt_dropPokes s.env j s.pm
  have hm : ∀ env, State.withEnv env s.peerMoves = { s with pm := pokeAll s.env s.pm, env := env } := by
    intro env
    unfold State.withEnv State.peerMoves
    rw [if_neg (by simp [hr])]
  have hself : s.peerMoves = State.withEnv (dropPokes s.env) s.peerMoves := rfl
  unfold xchgWith
  rw [State.peerMoves_env]
  simp only [sampleAt]
  simp only [← e1, ← e2]
  rcases h : dropPokes s.env with _ | ⟨ev, rest⟩
  · rw [hself, hm, h]
    refine ⟨⟨_, rfl⟩, fun j key => ?_⟩
    rw [hk, hp.env]
    rfl
  · cases ev with
    | poke b o v => exact absurd h (dropPokes_not_poke _ _ _ _ _)
    | ok =>
      simp only [hm]
      refine ⟨⟨_, rfl⟩, fun j key => ?_⟩
      rw [hk, hp.env]
      rfl
    | okWith r =>
      simp only [hm]
      refine ⟨⟨rest, rfl⟩, fun j key => ?_⟩
      rw [hk, hp.env]
      rfl
    | fail e reached => trivial
    | hang reached => cases hn : resetNext rest <;> simp [hn]
    | reset point => trivial

/-- What a peer that has a meaning does with one data exchange of a read: it answers the sample, and stores nothing (R63,
R35). -/
theorem xchgWith_sample (f : HdrFields) (k : Nat) (t : Byte) (s : State) (hr : s.peer = .reference) (hd : f.dir = .read) :
    match xchgWith (State.peerData f k t) s with
    | (.ok r, s1) => r = sampleAt s.env s.pm 0 (byteKey f.bsb (f.off.toNat + k)) ∧
        ∀ j key, sampleAt s.env s.pm (j + 1) key = sampleAt s1.env s1.pm j key
    | _ => True := by
  have h := xchgWith_shift (State.peerData f k t) (peerData_peerOnly f k t) s hr
    (fun m env => by simp only [State.peerData, hr, hd])
  rcases hq : xchgWith (State.peerData f k t) s with ⟨o, s1⟩
  rw [hq] at h
  cases o with
  | ok r =>
    obtain ⟨⟨env, h1⟩, h2⟩ := h
    refine ⟨?_, h2⟩
    rw [h1]
    simp only [State.peerData, hr, hd, State.peerByte, sampleAt]
  | _ => trivial

theorem xchgWith_dataKnown (f : HdrFields) (k : Nat) (t : Byte) (s : State) (hr : s.peer = .reference) :
    (xchgWith (State.peerData f k t) s).2.peer = .reference ∧
    ∀ a, a ∉ pokedKeys s.env → Memory.get (xchgWith (State.peerData f k t) s).2.pm a =
      if f.dir = .write ∧ reachedCount s.env 1 = 1 ∧ a = byteKey f.bsb (f.off.toNat + k) then some t
      else Memory.get s.pm a := by
  refine xchgWith_known _ (peerData_peerOnly f k t) s _ _ t hr fun m env => ?_
  cases hd : f.dir <;> simp [State.peerData, hr, hd]

/-- The end of a frame at the peer: its engine moves once more, and nothing else happens. -/
theorem peerMoves_known (s : State) (v : List EnvEvent) (h : s.peer = .reference) (a : Nat) (ha : a ∉ pokedKeys v) :
    (State.peerMoves (State.withEnv v s)).peer = .reference ∧
    Memory.get (State.peerMoves (State.withEnv v s)).pm a = Memory.get s.pm a := by
  refine ⟨h, ?_⟩
  rw [State.peerMoves_pm, if_neg (by simp [h])]
  exact pokeAll_get _ _ ha _

theorem dropHang_pokedKeys (env : List EnvEvent) (a : Nat) (h : a ∉ pokedKeys env) : a ∉ pokedKeys (dropHang env) := by
  cases env with
  | nil => exact h
  | cons ev rest => cases ev <;> exact h

/-- A frame at a peer that has a meaning: a write stores the bytes that reach it at ascending keys, a read stores nothing, and
every other byte its engine does not touch is as before (R54, R63, R157). -/
theorem wireFrame_get (f : HdrFields) (ts : List Byte) : ∀ (k : Nat) (s : State), s.peer = .reference →
    ∀ a, a ∉ pokedKeys s.env →
    (wireFrame f k ts s).2.peer = .reference ∧
    Memory.get (wireFrame f k ts s).2.pm a =
      if f.dir = .write ∧ byteKey f.bsb (f.off.toNat + k) ≤ a ∧
          a < byteKey f.bsb (f.off.toNat + k) + reachedCount s.env ts.length then
        ts[a - byteKey f.bsb (f.off.toNat + k)]?
      else Memory.get s.pm a := by
  induction ts with
  | nil =>
    intro k s hr a ha
    rw [if_neg (by simp only [List.length_nil, reachedCount_zero]; omega)]
    exact peerMoves_known s s.env hr a ha
  | cons t ts ih =>
    intro k s hr a ha
    have ho := xchgWith_outcome _ (peerData_peerOnly f k t) s ts.length
    obtain ⟨h1, h2⟩ := xchgWith_dataKnown f k t s hr
    have h2 := h2 a ha
    have hpk := xchgWith_pokedKeys _ (peerData_peerOnly f k t) s a ha
    have hstep : byteKey f.bsb (f.off.toNat + (k + 1)) = byteKey f.bsb (f.off.toNat + k) + 1 := by
      simp only [byteKey]; omega
    have hle := reachedCount_le s.env 1
    have hlast : ∀ x : Option Byte, x = (if f.dir = .write ∧ reachedCount s.env 1 = 1 ∧
        a = byteKey f.bsb (f.off.toNat + k) then some t else Memory.get s.pm a) →
        reachedCount s.env (ts.length + 1) = reachedCount s.env 1 →
        x = if f.dir = .write ∧ byteKey f.bsb (f.off.toNat + k) ≤ a ∧
          a < byteKey f.bsb (f.off.toNat + k) + reachedCount s.env (t :: ts).length then
          (t :: ts)[a - byteKey f.bsb (f.off.toNat + k)]? else Memory.get s.pm a := by
      intro x hx hn
      rw [hx, List.length_cons, hn]
      by_cases hc : f.dir = .write ∧ reachedCount s.env 1 = 1 ∧ a = byteKey f.bsb (f.off.toNat + k)
      · obtain ⟨c1, c2, c3⟩ := hc
        rw [if_pos ⟨c1, c2, c3⟩, if_pos ⟨c1, by omega, by omega⟩, c3]
        simp
      · rw [if_neg hc, if_neg (fun hx => hc ⟨hx.1, by omega, by omega⟩)]
    unfold wireFrame
    rcases hq : xchgWith (State.peerData f k t) s with ⟨o, s1⟩
    rw [hq] at ho h1 h2 hpk
    simp only at h1 h2 hpk
    cases o with
    | ok r =>
      simp only at ho ⊢
      obtain ⟨j1, j2⟩ := ih (k + 1) s1 h1 a hpk
      refine ⟨j1, ?_⟩
      rw [j2, h2, hstep, List.length_cons, ho.2.2.2]
      simp only [ho.2.2.1, true_and]
      by_cases hw : f.dir = .write
      · simp only [hw, true_and]
        by_cases ha0 : a = byteKey f.bsb (f.off.toNat + k)
        · rw [if_neg (by omega), if_pos ha0, if_pos (by omega), ha0]
          simp
        · rw [if_neg ha0]
          by_cases ha1 : byteKey f.bsb (f.off.toNat + k) + 1 ≤ a ∧
              a < byteKey f.bsb (f.off.toNat + k) + 1 + reachedCount s1.env ts.length
          · rw [if_pos ha1, if_pos (by omega),
              show a - byteKey f.bsb (f.off.toNat + k) = (a - (byteKey f.bsb (f.off.toNat + k) + 1)) + 1 by omega]
            simp
          · rw [if_neg ha1, if_neg (by omega)]
      · simp [hw]
    | fail e =>
      simp only at ho ⊢
      obtain ⟨j1, j2⟩ := peerMoves_known s1 s1.env h1 a hpk
      exact ⟨j1, hlast _ (j2.trans h2) ho.2.2⟩
    | hung =>
      simp only at ho ⊢
      obtain ⟨j1, j2⟩ := peerMoves_known s1 (dropHang s1.env) h1 a (dropHang_pokedKeys _ _ hpk)
      exact ⟨j1, hlast _ (j2.trans h2) ho.2.2.1⟩
    | cut =>
      simp only at ho ⊢
      obtain ⟨j1, j2⟩ := peerMoves_known s1 s1.env h1 a hpk
      exact ⟨j1, hlast _ (j2.trans h2) ho.2.2⟩

/-- The responses of a peer that has a meaning to a read frame: sample after sample (R35, R63). -/
theorem wireFrame_samples (f : HdrFields) (hd : f.dir = .read) (ts : List Byte) : ∀ (k : Nat) (s : State),
    s.peer = .reference → ∀ j, j < (wireFrame f k ts s).1.length →
    (wireFrame f k ts s).1[j]? = some (sampleAt s.env s.pm j (byteKey f.bsb (f.off.toNat + k + j))) := by
  induction ts with
  | nil => intro k s _ j hj; simp [wireFrame] at hj
  | cons t ts ih =>
    intro k s hr j hj
    have hs := xchgWith_sample f k t s hr hd
    obtain ⟨h1, _⟩ := xchgWith_dataKnown f k t s hr
    unfold wireFrame at hj ⊢
    rcases hq : xchgWith (State.peerData f k t) s with ⟨o, s1⟩
    rw [hq] at hs h1 hj
    cases o with
    | ok r =>
      simp only at hs h1 hj ⊢
      cases j with
      | zero => simp [hs.1]
      | succ j =>
        simp only [List.length_cons, Nat.add_lt_add_iff_right] at hj
        rw [List.getElem?_cons_succ, ih (k + 1) s1 h1 j hj, hs.2]
        congr 3
        omega
    | fail e => simp at hj
    | hung => simp at hj
    | cut => simp at hj

/-- A read of a peer that has a meaning draws nothing. -/
theorem wireFrame_draws (f : HdrFields) (hd : f.dir = .read) (ts : List Byte) : ∀ (k : Nat) (s : State),
    s.peer = .reference → (wireFrame f k ts s).2.draws = s.draws := by
  induction ts with
  | nil => intro k s _; rfl
  | cons t ts ih =>
    intro k s hr
    have hx : (xchgWith (State.peerData f k t) s).2.draws = s.draws := by
      have hread : ∀ q : State, q.peer = .reference → (State.peerData f k t q).2 = q := by
        intro q hq
        simp only [State.peerData, hq, hd]
      have hp : ∀ v, (State.withEnv v s.peerMoves).peer = .reference := fun _ => hr
      have ha : ∀ reached v, (arrives reached (State.peerData f k t) (State.withEnv v s.peerMoves)).draws = s.draws := by
        intro reached v
        cases reached
        · rfl
        · simp [arrives, hread _ (hp v)]
      obtain ⟨reached, env, _, _, ⟨h3, _⟩ | ⟨_, h3⟩⟩ := xchgWith_cases (State.peerData f k t) s <;> rw [h3]
      · exact ha reached env
      · exact ha reached env
    obtain ⟨h1, _⟩ := xchgWith_dataKnown f k t s hr
    unfold wireFrame
    rcases hq : xchgWith (State.peerData f k t) s with ⟨o, s1⟩
    rw [hq] at hx h1
    cases o with
    | ok r => simp only [] at hx h1 ⊢; rw [ih _ _ h1, hx]
    | fail e => exact hx
    | hung => exact hx
    | cut => exact hx

/-- One exchange with a lost peer: nothing of it becomes known, a byte that arrives draws one free byte, which is the response
unless an oracle gives one (R35, R64; log entry 6). -/
theorem xchgWith_lost (f : HdrFields) (k : Nat) (t : Byte) (s : State) (hl : s.peer = .lost) :
    (xchgWith (State.peerData f k t) s).2.peer = .lost ∧ (xchgWith (State.peerData f k t) s).2.pm = s.pm ∧
    (xchgWith (State.peerData f k t) s).2.draws = s.draws + reachedCount s.env 1 ∧
    ∀ r, (xchgWith (State.peerData f k t) s).1 = .ok r →
      r = (oracleByte s.env 0).getD (Config.freeByte s.draws) ∧
      ∀ j, oracleByte s.env (j + 1) = oracleByte (xchgWith (State.peerData f k t) s).2.env j := by
  have hsee : ∀ q : State, q.peer = .lost → State.peerData f k t q = (Config.freeByte q.draws, q.drawn 1) := by
    intro q hq
    simp only [State.peerData, hq]
  have hp : ∀ v, (State.withEnv v s.peerMoves).peer = .lost := fun _ => hl
  have ha : ∀ reached v, (arrives reached (State.peerData f k t) (State.withEnv v s.peerMoves)).peer = .lost ∧
      (arrives reached (State.peerData f k t) (State.withEnv v s.peerMoves)).pm = s.pm ∧
      (arrives reached (State.peerData f k t) (State.withEnv v s.peerMoves)).draws =
        s.draws + if reached then 1 else 0 := by
    intro reached v
    cases reached <;> simp [arrives, hsee _ (hp v), hl]
  refine ⟨?_, ?_, ?_, ?_⟩
  iterate 3
    obtain ⟨reached, env, h1, _, ⟨h3, _⟩ | ⟨_, h3⟩⟩ := xchgWith_cases (State.peerData f k t) s <;>
      simp [h1, h3, ha reached env]
  simp only [← oracleByte_dropPokes s.env]
  unfold xchgWith
  rw [State.peerMoves_env]
  rcases h : dropPokes s.env with _ | ⟨ev, rest⟩
  · simp [hsee s.peerMoves hl, oracleByte, h]
  · cases ev with
    | hang reached => cases hn : resetNext rest <;> simp [hn]
    | poke b o v => exact absurd h (dropPokes_not_poke _ _ _ _ _)
    | _ => simp [hsee _ (hp _), oracleByte]

/-- Of a lost peer nothing becomes known; each data exchange that reaches it draws one free byte, and each response is the
oracle's byte or else that one (R35, R64; log entry 6). -/
theorem wireFrame_lost (f : HdrFields) (ts : List Byte) : ∀ (k : Nat) (s : State), s.peer = .lost →
    (wireFrame f k ts s).2.peer = .lost ∧ (wireFrame f k ts s).2.pm = s.pm ∧
    (wireFrame f k ts s).2.draws = s.draws + reachedCount s.env ts.length ∧
    ∀ j, j < (wireFrame f k ts s).1.length →
      (wireFrame f k ts s).1[j]? = some ((oracleByte s.env j).getD (Config.freeByte (s.draws + j))) := by
  induction ts with
  | nil => intro k s h; simp [wireFrame, h, reachedCount_zero]
  | cons t ts ih =>
    intro k s hl
    have ho := xchgWith_outcome _ (peerData_peerOnly f k t) s ts.length
    have hx := xchgWith_lost f k t s hl
    unfold wireFrame
    rcases hq : xchgWith (State.peerData f k t) s with ⟨o, s1⟩
    rw [hq] at ho hx
    obtain ⟨x1, x2, x3, x4⟩ := hx
    simp only [List.length_cons] at ho x1 x2 x3 x4 ⊢
    cases o with
    | ok r =>
      obtain ⟨i1, i2, i3, i4⟩ := ih (k + 1) s1 x1
      obtain ⟨y1, y2⟩ := x4 r rfl
      simp only at ho ⊢
      refine ⟨i1, i2.trans x2, by rw [i3, x3, ho.2.2.1, ho.2.2.2]; omega, fun j hj => ?_⟩
      cases j with
      | zero => simp [y1]
      | succ j =>
        rw [List.getElem?_cons_succ, i4 j (by simpa using hj), y2, x3, ho.2.2.1]
        congr 3
        omega
    | fail e => simp only at ho ⊢; simp [x1, x2, x3, ho.2.2]
    | hung => simp only at ho ⊢; simp [x1, x2, x3, ho.2.2.1]
    | cut => simp only at ho ⊢; simp [x1, x2, x3, ho.2.2]

/-- A frame at a known peer in a quiet environment (R54, R63). -/
theorem wireFrame_quiet (f : HdrFields) (ts : List Byte) : ∀ (k : Nat) (s : State), s.peer = .reference → Quiet s.env →
    (f.dir = .write → (wireFrame f k ts s).2.pm = Memory.setAll s.pm (byteKey f.bsb (f.off.toNat + k)) ts) ∧
    (f.dir = .read → (wireFrame f k ts s).2.pm = s.pm ∧
      (wireFrame f k ts s).1 = s.peerBytes (byteKey f.bsb (f.off.toNat + k)) ts.length) := by
  induction ts with
  | nil =>
    intro k s hr hv
    have e : wireFrame f k [] s = ([], s) := by simp only [wireFrame, peerMoves_quiet s hv]
    rw [e]
    exact ⟨fun _ => rfl, fun _ => ⟨rfl, rfl⟩⟩
  | cons t ts ih =>
    intro k s hr hv
    have hx : xchgWith (State.peerData f k t) s = (.ok (State.peerData f k t (State.withEnv (s.env.drop 1) s)).1,
        (State.peerData f k t (State.withEnv (s.env.drop 1) s)).2) := by
      unfold xchgWith
      rw [peerMoves_quiet s hv]
      rcases hd : s.env with _ | ⟨ev, rest⟩
      · have hs : State.withEnv ([].drop 1) s = s := by simp only [List.drop_nil]; rw [← hd]; rfl
        rw [hs]
      · have := hv ev (by simp [hd])
        subst this
        rfl
    have hstep : byteKey f.bsb (f.off.toNat + (k + 1)) = byteKey f.bsb (f.off.toNat + k) + 1 := by
      simp only [byteKey]; omega
    unfold wireFrame
    rw [hx]
    simp only []
    have hq : Quiet (s.env.drop 1) := quiet_drop _ _ hv
    cases hd : f.dir with
    | read =>
      have e : State.peerData f k t (State.withEnv (s.env.drop 1) s) =
          (State.peerByte s (byteKey f.bsb (f.off.toNat + k)), State.withEnv (s.env.drop 1) s) := by
        simp only [State.peerData, State.withEnv_peer, hr, hd]
        rfl
      rw [e]
      obtain ⟨_, h2⟩ := ih (k + 1) (State.withEnv (s.env.drop 1) s) hr hq
      obtain ⟨h3, h4⟩ := h2 hd
      refine ⟨nofun, fun _ => ⟨h3, ?_⟩⟩
      rw [h4, hstep, List.length_cons, peerBytes_cons]
      rfl
    | write =>
      have e : (State.peerData f k t (State.withEnv (s.env.drop 1) s)).2 =
          State.store (byteKey f.bsb (f.off.toNat + k)) t ((State.withEnv (s.env.drop 1) s).drawn 1) := by
        simp only [State.peerData, State.withEnv_peer, hr, hd]
      rw [e]
      obtain ⟨h1, _⟩ := ih (k + 1) (State.store (byteKey f.bsb (f.off.toNat + k)) t
        ((State.withEnv (s.env.drop 1) s).drawn 1)) hr hq
      refine ⟨fun _ => ?_, nofun⟩
      rw [h1 hd, hstep]
      rfl

/-- A read frame of the unit that nothing stops samples a peer that has a meaning, byte after byte (R35, R63, R154). -/
theorem fteRun_samples (m : Nat) : ∀ (fuel : Nat) (s : State), Placed s → remaining s = m → m < fuel →
    Known s → (hdrDec Config.std s.hdrb).dir = .read → s.dir = .read → firstStop s.env m = none →
    (fteRun fuel s).rdata = s.rdata ++ (List.range (s.len.toNat - dataDone s)).map fun k =>
      sampleAt s.env s.pm (headerLeft s + k) (baseKey s + (dataDone s + k)) := by
  induction m with
  | zero =>
    intro fuel s hp hr hf hk hw hdir hs
    obtain ⟨k, rfl⟩ : ∃ k, fuel = k + 1 := ⟨fuel - 1, by omega⟩
    rw [fteRun_step _ _ (placed_not_idle s hp), fteStep_end s hp hr, fteRun_idle _ _ (fteEnd_phase s)]
    rcases fteEnd_cases s with ⟨_, e⟩ | ⟨h, _⟩
    · rw [e]
      have : s.len.toNat - dataDone s = 0 := by
        rcases hp with ⟨hp, hi⟩ | ⟨hp, hi⟩
        · simp only [remaining, hp] at hr; omega
        · simpa [remaining, dataDone, hp] using hr
      simp [this]
    · rw [hs] at h; cases h
  | succ m ih =>
    intro fuel s hp hr hf hk hw hdir hs
    obtain ⟨k, rfl⟩ : ∃ k, fuel = k + 1 := ⟨fuel - 1, by omega⟩
    have hx := exchanging_of_remaining s hp (by omega)
    have hd : DataHeld s := fun h => by rw [hdir] at h; cases h
    have hc := xchg_changes (nextByte s) s
    have ho := xchgWith_outcome _ (peerSees_peerOnly (nextByte s)) s m
    obtain ⟨hq1, _⟩ := xchg_known (nextByte s) s hk
    have hsh := xchgWith_shift (State.peerSees (nextByte s)) (peerSees_peerOnly _) s hk.1 (fun pm env => by
      rw [(peerSees_known (nextByte s) { s with pm := pm, env := env } (Known_congr s _ hk rfl rfl rfl rfl rfl)).2.1]
      simp [hw])
    rw [show xchgWith (State.peerSees (nextByte s)) s = xchg (nextByte s) s from rfl] at ho hsh
    rw [fteRun_step _ _ (placed_not_idle s hp), fteStep_exchange s hx]
    rcases hq : xchg (nextByte s) s with ⟨o, s1⟩
    rw [hq] at hc ho hq1 hsh
    cases o with
    | fail e => simp only at ho; rw [hs] at ho; exact absurd ho.1 (by simp)
    | hung => simp only at ho; rw [hs] at ho; exact absurd ho.1 (by simp)
    | cut => simp only at ho; rw [hs] at ho; exact absurd ho.1 (by simp)
    | ok r =>
      simp only at hc ho hq1 hsh ⊢
      obtain ⟨a1, a2, a3, a4, a5, a6, a7, a8, a9, a10, a11, a12, a13, a14, a15, a16, aresp, a17, a18⟩ :=
        advance_spec r s s1 hp hd hx hc
      have hk' : Known (advance r s s1) :=
        Known_congr s _ hk (by rw [a8, hq1, hk.1]) a18.2.2.2.2.2.2.1 a18.2.2.2.2.2.2.2 a10 a11
      have hb : baseKey (advance r s s1) = baseKey s := by simp [baseKey, a10]
      have hs1 : firstStop s1.env m = none := by
        have := ho.1
        rw [hs] at this
        simpa using this.symm
      have h := ih k (advance r s s1) a1 (by omega) (by omega) hk' (by rw [a10]; exact hw) (by rw [a9]; exact hdir)
        (by rw [a6]; exact hs1)
      obtain ⟨⟨env, hr1⟩, hsh⟩ := hsh
      rw [a11, hb, a6, a7, a17] at h
      rw [h]
      rcases hp with ⟨hp, hi⟩ | ⟨hp, hi⟩
      · have e1 : dataDone (advance r s s1) = 0 := by
          rcases half_cases _ hi with h | h | h <;> simp [dataDone, advance, hp, h]
        have e2 : headerLeft s = headerLeft (advance r s s1) + 1 := by
          rcases half_cases _ hi with h | h | h <;> simp [headerLeft, advance, hp, h]
        have e3 : dataDone s = 0 := by simp [dataDone, hp]
        rw [e1, e2, e3, if_neg (by simp [hp])]
        congr 1
        apply List.map_congr_left
        intro j _
        rw [show headerLeft (advance r s s1) + 1 + j = headerLeft (advance r s s1) + j + 1 by omega, hsh]
      · have hlt : s.idx.toNat < s.len.toNat := by
          rcases hx with hx | ⟨_, hx⟩
          · rw [hp] at hx; cases hx
          · exact hx
        have e1 : dataDone (advance r s s1) = s.idx.toNat + 1 := by
          simp only [dataDone, advance, hp, hdir, State.receive_phase, State.receive_idx, State.place_phase,
            State.place_idx]
          exact half_succ _ _ hlt
        have e2 : headerLeft s = 0 := by simp [headerLeft, hp]
        have e3 : headerLeft (advance r s s1) = 0 := by simp [headerLeft, advance, hp, hdir]
        have e4 : dataDone s = s.idx.toNat := by simp [dataDone, hp]
        have e5 : r = sampleAt s.env s.pm 0 (baseKey s + s.idx.toNat) := by
          rw [hr1, (peerSees_known (nextByte s) { s with pm := memoryAt s.env 0 s.pm, env := env }
            (Known_congr s _ hk rfl rfl rfl rfl rfl)).2.2 hp hw]
          rfl
        rw [e1, e2, e3, e4, if_pos ⟨hp, hdir⟩, List.append_assoc, e5]
        congr 1
        rw [show s.len.toNat - s.idx.toNat = s.len.toNat - (s.idx.toNat + 1) + 1 by omega, List.range_succ_eq_map,
          List.map_cons, List.map_map, List.singleton_append]
        congr 1
        apply List.map_congr_left
        intro j _
        simp only [Function.comp, Nat.succ_eq_add_one, Nat.zero_add]
        rw [hsh, show s.idx.toNat + 1 + j = s.idx.toNat + (j + 1) by omega]

end Sys2Proof.Machine
end

