-- ==== Sys2Proof/Tests/Slice0.lean ====
section
/-! SUPPORT. Tests: well-formedness, decoding of words written out from the spec, one operation each against the worked vectors of
95_test_vectors.md, and for every statement with hypotheses a state and operands that meet them together. -/

namespace Sys2Proof.Tests

open Sys2Proof.Machine

/-! ### Helpers -/

/-- Whether an outcome is a next state whose `f` is `v`. -/
def got {α : Type} [DecidableEq α] (f : State → α) (o : Host.Outcome State Fault Refusal) (v : α) : Bool :=
  match o with
  | .next s => decide (f s = v)
  | .fault _ => false
  | .refused _ => false

/-- Whether an outcome is the refusal `r`. -/
def stops (o : Host.Outcome State Fault Refusal) (r : Refusal) : Bool :=
  match o with
  | .next _ => false
  | .fault _ => false
  | .refused q => decide (q = r)

/-- What an operation answers on the port, from the state after reset. -/
def answers (i : Instr) (r : Response) : Bool := got State.resp (exec i State.reset) r

/-- The bytes transmitted, with 256 for an assertion and 257 for a release of bus-select. -/
def bus : List BusEvent → List Nat
  | [] => []
  | .selA :: rest => 256 :: bus rest
  | .selR :: rest => 257 :: bus rest
  | .x t _ :: rest => t.toNat :: bus rest
  | .xf t _ :: rest => t.toNat :: bus rest

/-- The state after reset with the peer's bytes given as (block, offset, byte), in rising order. -/
def peerHolds (cells : List (Block × Nat × Byte)) : State :=
  { State.reset with pm := cells.map fun c => (byteKey c.1 c.2.1, c.2.2) }

/-- A frame in progress: `k` steps into a frame of `n` bytes at (1, 0x0024). -/
def inFrame (d : Dir) (n : Half) (wd : List Byte) (env : List EnvEvent) (k : Nat) : State :=
  fteAfter k (fteStart d 1 0x0024 n wd { State.reset with env := env })

/-! ### Well-formedness -/

theorem test_wellFormed_frameWr_short : (Instr.frameWr 1 1 2 [0x20]).wellFormed = false := by decide

theorem test_wellFormed_frameWr_long : (Instr.frameWr 1 1 0 [0x20]).wellFormed = false := by decide

theorem test_wellFormed_cbWr_short : (Instr.cbWr 6 0 3 11 [1, 2]).wellFormed = false := by decide

theorem test_wellFormed_rsvBsb_common : (Instr.wRsvBsb 0 .read 0).wellFormed = false := by decide

theorem test_wellFormed_good : (Instr.frameWr 1 1 1 [0x20]).wellFormed = true ∧
    (Instr.cbWr 6 0 2 11 [1, 2]).wellFormed = true ∧ (Instr.wRsvBsb 1 .read 0).wellFormed = true := by decide

/-! ### Decoding: codes of 30_encoding.md R89, headers of R81 and R92 written out -/

theorem test_decode_agu :
    decode (.cmd 0b00000 {}) = .ok .bsbCommon ∧ decode (.cmd 0b00001 { i := 7 }) = .ok (.bsbSreg 7) ∧
    decode (.cmd 0b00010 { i := 3 }) = .ok (.bsbStx 3) ∧ decode (.cmd 0b00011 { i := 7 }) = .ok (.bsbSrx 7) ∧
    decode (.cmd 0b00100 { b := 14 }) = .ok (.bsbDec 14) ∧ decode (.cmd 0b00101 { r := 3 }) = .ok (.roff 3) ∧
    decode (.cmd 0b00110 { i := 2, r := 11 }) = .ok (.raddr 2 11) := by decide

theorem test_decode_hcu :
    decode (.cmd 0b01000 { b := 1, rwb := .write, om := 0 }) = .ok (.ctlEnc 1 .write 0) ∧
    decode (.cmd 0b01001 { c := 0x34 }) = .ok (.ctlDec 0x34) ∧
    decode (.cmd 0b01010 { o := 0x24, b := 1, rwb := .write }) = .ok (.hdrEnc 0x24 1 .write) ∧
    decode (.cmd 0b01011 { h := { h0 := 0x00, h1 := 0x26, h2 := 0x48 } }) =
      .ok (.hdrDec { h0 := 0x00, h1 := 0x26, h2 := 0x48 }) := by decide

theorem test_decode_fte :
    decode (.cmd 0b10000 { b := 9, o := 0x26, n := 2 }) = .ok (.frameRd 9 0x26 2) ∧
    decode (.cmd 0b10001 { b := 1, o := 1, n := 1, wdata := [0x20] }) = .ok (.frameWr 1 1 1 [0x20]) ∧
    decode (.cmd 0b10010 { t := [(0, 1)] }) = .ok (.frameParse [(0, 1)]) := by decide

theorem test_decode_cbu :
    decode (.cmd 0b11000 { p := 65530, szlog2 := 11 }) = .ok (.cpWrap 65530 11) ∧
    decode (.cmd 0b11001 { p := 65530, n := 10 }) = .ok (.cpAdv 65530 10) ∧
    decode (.cmd 0b11010 { wr := 4, rd := 65530 }) = .ok (.cpUnread 4 65530) ∧
    decode (.cmd 0b11011 { szlog2 := 11, wr := 4, rd := 65530 }) = .ok (.cpFree 11 4 65530) ∧
    decode (.cmd 0b11100 { p := 65530, l := 10, szlog2 := 11 }) = .ok (.cpSplit 65530 10 11) ∧
    decode (.cmd 0b11101 { b := 11, p := 0x7FC, l := 8, szlog2 := 11 }) = .ok (.cbRd 11 0x7FC 8 11) ∧
    decode (.cmd 0b11110 { b := 6, p := 65530, l := 1, szlog2 := 11, wdata := [0xA0] }) =
      .ok (.cbWr 6 65530 1 11 [0xA0]) := by decide

theorem test_decode_wire_common :
    decode (.wire [0x00, 0x00, 0b00000000]) = .ok (.wRdCommon 0) ∧
    decode (.wire [0x00, 0x00, 0b00000100]) = .ok (.wWrCommon 0) := by decide

theorem test_decode_wire_socket :
    decode (.wire [0x00, 0x26, 0b01001000]) = .ok (.wRdSreg 2 0x0026) ∧
    decode (.wire [0x00, 0x01, 0b00001100]) = .ok (.wWrSreg 0 0x0001) ∧
    decode (.wire [0x00, 0x00, 0b00010000]) = .ok (.wRdStx 0 0x0000) ∧
    decode (.wire [0x07, 0xFA, 0b00110100]) = .ok (.wWrStx 1 0x07FA) ∧
    decode (.wire [0x07, 0xFC, 0b01011000]) = .ok (.wRdSrx 2 0x07FC) ∧
    decode (.wire [0x00, 0x00, 0b00011100]) = .ok (.wWrSrx 0 0x0000) := by decide

theorem test_decode_wire_reserved :
    decode (.wire [0x00, 0x10, 0b00100100]) = .ok (.wRsvBsb 1 .write 0x0010) ∧
    decode (.wire [0x00, 0x00, 0b00000001]) = .ok (.wRsvOm1 0 .read 0) ∧
    decode (.wire [0x12, 0x34, 0b10101110]) = .ok (.wRsvOm2 21 .write 0x1234) ∧
    decode (.wire [0x00, 0x00, 0b11111111]) = .ok (.wRsvOm3 31 .write 0) := by decide

theorem test_decode_rest : decodeRest (.wire [0x07, 0xFA, 0x34, 0xA0, 0xA1]) = .ok (.wWrStx 1 0x07FA, [0xA0, 0xA1]) := by
  decide

theorem test_decode_refused :
    decode (.cmd 0x07 {}) = .error .badOpsel ∧ decode (.cmd 0x1F {}) = .error .badOpsel ∧
    decode (.wire [0x00, 0x24]) = .error .noFrame ∧
    decode (.cmd 0x11 { n := 2, wdata := [0x20] }) = .error .dataLength := by decide

theorem test_tableWord_bits_7_5_unread : decodeTableWord 8 0xF0 = some (.frameRd 0 0 0) := by decide

/-! ### Address generation unit: V1 to V22 -/

theorem test_bsbCommon : answers .bsbCommon (.block 0) = true := by decide

theorem test_bsbSreg : answers (.bsbSreg 7) (.block 29) = true := by decide

theorem test_bsbStx : answers (.bsbStx 3) (.block 14) = true := by decide

theorem test_bsbSrx : answers (.bsbSrx 7) (.block 31) = true := by decide

theorem test_bsbDec_assigned : answers (.bsbDec 14) (.blockFields .stx 3 true) = true := by decide

theorem test_bsbDec_unassigned : answers (.bsbDec 28) (.blockFields .common 7 false) = true := by decide

theorem test_roff : answers (.roff 3) (.offset 0x002C) = true := by decide

theorem test_roff_refused : stops (exec (.roff 12) State.reset) .badOp = true := by decide

theorem test_raddr : answers (.raddr 2 11) (.address 9 0x0026) = true := by decide

theorem test_raddr_refused : stops (exec (.raddr 7 15) State.reset) .badOp = true := by decide

/-! ### Header codec unit: V30 to V47 -/

theorem test_ctlEnc : answers (.ctlEnc 6 .write 0) (.ctl 0x34) = true := by decide

theorem test_ctlEnc_all_ones : answers (.ctlEnc 31 .write 3) (.ctl 0xFF) = true := by decide

theorem test_ctlDec : answers (.ctlDec 0x34) (.ctlFields { bsb := 6, dir := .write, om := 0 }) = true := by decide

theorem test_ctlDec_unjudged : answers (.ctlDec 0x21) (.ctlFields { bsb := 4, dir := .read, om := 1 }) = true := by decide

theorem test_hdrEnc : answers (.hdrEnc 0x0024 1 .write) (.header { h0 := 0x00, h1 := 0x24, h2 := 0x0C }) = true := by
  decide

theorem test_hdrEnc_high_first : answers (.hdrEnc 0x00FF 2 .read) (.header { h0 := 0x00, h1 := 0xFF, h2 := 0x10 }) = true := by
  decide

theorem test_hdrDec : answers (.hdrDec { h0 := 0x00, h1 := 0x26, h2 := 0x48 })
    (.headerFields { off := 0x0026, bsb := 9, dir := .read, om := 0 }) = true := by decide

theorem test_hdrDec_all_ones : answers (.hdrDec { h0 := 0xFF, h1 := 0xFF, h2 := 0xFF })
    (.headerFields { off := 0xFFFF, bsb := 31, dir := .write, om := 3 }) = true := by decide

/-! ### Frame transport engine: V60 to V71 -/

theorem test_frameWr_bus :
    got (fun s => bus s.trace) (exec (.frameWr 1 0x0001 1 [0x20]) State.reset) [256, 0x00, 0x01, 0x0C, 0x20, 257] = true := by
  decide

/-- V63: the fifth exchange fails; the third data byte is never sent. -/
theorem test_frameWr_fails :
    got (fun s => (bus s.trace, s.res, s.pm))
      (exec (.frameWr 2 0x0100 3 [1, 2, 3]) { State.reset with env := [.ok, .ok, .ok, .ok, .fail ⟨9⟩ false] })
      ([256, 0x01, 0x00, 0x14, 0x01, 0x02, 257], .errBus ⟨9⟩, [(byteKey 2 0x100, 1)]) = true := by decide

theorem test_frameRd :
    got State.resp (exec (.frameRd 9 0x0026 2) (peerHolds [(9, 0x26, 0x00), (9, 0x27, 0x0D)])) (.frame .ok [0x00, 0x0D]) =
      true := by decide

theorem test_frameRd_empty :
    got (fun s => (bus s.trace, s.rdata)) (exec (.frameRd 2 0x0000 0) State.reset) ([256, 0x00, 0x00, 0x10, 257], []) =
      true := by decide

theorem test_frameParse_read :
    answers (.frameParse [(0x00, 7), (0x26, 7), (0x48, 7), (0x00, 0x00), (0x00, 0x0D)])
      (.parsed .read 9 0x0026 [0x00, 0x0D] .sreg 2 true .rdSreg) = true := by decide

theorem test_frameParse_refused :
    stops (exec (.frameParse [(0x00, 0), (0x00, 0), (0x01, 0), (0x55, 0)]) State.reset) .badMode = true := by decide

/-! ### Circular buffer unit: V80 to V147 -/

theorem test_cpWrap : answers (.cpWrap 65530 11) (.offset 2042) = true := by decide

theorem test_cpWrap_one : answers (.cpWrap 65535 0) (.offset 0) = true := by decide

theorem test_cpAdv : answers (.cpAdv 65530 10) (.pointer 4) = true := by decide

theorem test_cpAdv_far : answers (.cpAdv 0xFFF0 0xFFFF) (.pointer 0xFFEF) = true := by decide

theorem test_cpUnread : answers (.cpUnread 4 65530) (.count 10) = true := by decide

theorem test_cpFree : answers (.cpFree 11 4 65530) (.free 2038 true) = true := by decide

theorem test_cpFree_broken : answers (.cpFree 11 0x0901 0x0100) (.free 65535 false) = true := by decide

theorem test_cpSplit :
    answers (.cpSplit 65530 10 11) (.split { o0 := 2042, l0 := 6, two := true, l1 := 4, fits := true }) = true := by decide

/-- V122: one chunk; `l1` is then a free value (log entry 35). -/
theorem test_cpSplit_exact :
    (cpSplit 2040 8 11).o0 = 2040 ∧ (cpSplit 2040 8 11).l0 = 8 ∧ (cpSplit 2040 8 11).two = false ∧
    (cpSplit 2040 8 11).fits = true := by decide

/-- V140. -/
theorem test_cbWr :
    got (fun s => bus s.trace) (exec (.cbWr 6 65530 10 11 [0xA0, 0xA1, 0xA2, 0xA3, 0xA4, 0xA5, 0xA6, 0xA7, 0xA8, 0xA9])
      State.reset)
      [256, 0x07, 0xFA, 0x34, 0xA0, 0xA1, 0xA2, 0xA3, 0xA4, 0xA5, 257, 256, 0x00, 0x00, 0x34, 0xA6, 0xA7, 0xA8, 0xA9, 257] =
      true := by decide

theorem test_cbWr_oversize : stops (exec (.cbWr 2 0 2 0 [1, 2]) State.reset) .oversize = true := by decide

/-- V145, with a buffer of 4 bytes. -/
theorem test_cbRd :
    got State.resp (exec (.cbRd 11 3 3 2) (peerHolds [(11, 0, 0xB1), (11, 1, 0xB2), (11, 3, 0xB0)]))
      (.frame .ok [0xB0, 0xB1, 0xB2]) = true := by decide

/-- V147: the second frame is never started. -/
theorem test_cbRd_fails :
    got (fun s => (bus s.trace, s.res))
      (exec (.cbRd 11 0x07FC 8 11) { State.reset with env := [.ok, .fail ⟨9⟩ true] })
      ([256, 0x07, 0xFC, 257], .errBus ⟨9⟩) = true := by decide

/-! ### The reference peer's side: the examples of R161 to R169 -/

theorem test_wRdCommon :
    got State.resp (exec (.wRdCommon 0) { peerHolds [(0, 0, 0x80)] with wire := [0x00] }) (.peerRead [0x80]) = true := by
  decide

/-- R35: a read class samples byte by byte: the engine moves between two exchanges, an oracle answers the last. -/
theorem test_wRdSreg_samples :
    got State.resp
      (exec (.wRdSreg 2 0x26)
        { peerHolds [(9, 0x26, 0x00), (9, 0x27, 0xFF), (9, 0x28, 0x55)] with
          wire := [0, 0, 0]
          env := [.ok, .poke 9 0x26 0x01, .poke 9 0x27 0x00, .ok, .okWith 0x77] })
      (.peerRead [0x00, 0x00, 0x77]) = true := by decide

theorem test_wWrCommon :
    got State.pm (exec (.wWrCommon 0) { State.reset with wire := [0x80] }) [(byteKey 0 0, 0x80)] = true := by decide

theorem test_wRdSreg :
    got State.resp (exec (.wRdSreg 2 0x26) { peerHolds [(9, 0x26, 0x00), (9, 0x27, 0x0D)] with wire := [0x00, 0x00] })
      (.peerRead [0x00, 0x0D]) = true := by decide

theorem test_wWrSreg :
    got State.pm (exec (.wWrSreg 0 1) { State.reset with wire := [0x20] }) [(byteKey 1 1, 0x20)] = true := by decide

theorem test_wRdStx :
    got State.resp (exec (.wRdStx 0 0) { peerHolds [(2, 0, 0x11)] with wire := [0x00] }) (.peerRead [0x11]) = true := by
  decide

theorem test_wWrStx :
    got State.pm (exec (.wWrStx 1 0x07FA) { State.reset with wire := [0xA0, 0xA1] })
      [(byteKey 6 0x07FA, 0xA0), (byteKey 6 0x07FB, 0xA1)] = true := by decide

theorem test_wWrStx_past_buffer :
    stops (exec (.wWrStx 1 0x07FF) { State.reset with wire := [0xA0, 0xA1] }) .peerPastBuffer = true := by decide

theorem test_wRdSrx :
    got State.resp (exec (.wRdSrx 2 0x07FF) { peerHolds [(11, 0x07FF, 0x22)] with wire := [0x00] }) (.peerRead [0x22]) =
      true := by decide

theorem test_wWrSrx :
    got State.pm (exec (.wWrSrx 0 0) { State.reset with wire := [0xFF] }) [(byteKey 3 0, 0xFF)] = true := by decide

theorem test_wWrSreg_past_block :
    stops (exec (.wWrSreg 0 0xFFFF) { State.reset with wire := [0xA0, 0xA1] }) .peerPastBlock = true := by decide

theorem test_wRsvBsb : stops (exec (.wRsvBsb 1 .write 0x0010) State.reset) .peerUnassignedBlock = true := by decide

theorem test_wRsvOm1 : stops (exec (.wRsvOm1 0 .read 0) State.reset) .peerLengthMode = true := by decide

theorem test_wRsvOm2 : stops (exec (.wRsvOm2 0 .read 0) State.reset) .peerLengthMode = true := by decide

theorem test_wRsvOm3 : stops (exec (.wRsvOm3 31 .write 0) State.reset) .peerLengthMode = true := by decide

/-! ### Resets and exchanges that do not return -/

/-- R252, U20: the fourth exchange never returns; its byte has reached the peer, bus-select stays asserted. -/
theorem test_frameWr_hangs :
    got (fun s => (bus s.trace, s.sel, s.res, s.pm))
      (exec (.frameWr 2 0x0100 3 [1, 2, 3]) { State.reset with env := [.ok, .ok, .ok, .hang true] })
      ([256, 0x01, 0x00, 0x14], .asserted, .none, [(byteKey 2 0x100, 1)]) = true := by decide

/-- R266: a reset before the third exchange. -/
theorem test_frameWr_cut :
    got (fun s => (bus s.trace, s.sel, s.res, s.resp))
      (exec (.frameWr 2 0x0100 3 [1, 2, 3]) { State.reset with env := [.ok, .ok, .reset (.exchange false)] })
      ([256, 0x01, 0x00, 257], .released, .none, .cut) = true := by decide

/-- R266, R248: a reset inside the fourth exchange, whose byte has arrived. -/
theorem test_frameWr_cut_reached :
    got (fun s => (bus s.trace, s.resp, s.pm))
      (exec (.frameWr 2 0x0100 3 [1, 2, 3]) { State.reset with env := [.ok, .ok, .ok, .reset (.exchange true)] })
      ([256, 0x01, 0x00, 0x14, 257], .cut, [(byteKey 2 0x100, 1)]) = true := by decide

/-- R252, R266: a reset gives up an exchange that does not return. -/
theorem test_frameRd_hang_reset :
    got (fun s => (bus s.trace, s.phase, s.resp, s.env))
      (exec (.frameRd 2 0x0100 3) { State.reset with env := [.ok, .hang false, .reset (.exchange true), .ok] })
      ([256, 0x01, 257], .idle, .cut, [.ok]) = true := by decide

/-- R266: a reset in place of END. -/
theorem test_frameRd_cut_at_end :
    got (fun s => (bus s.trace, s.res, s.resp))
      (exec (.frameRd 2 0x0100 0) { State.reset with env := [.ok, .ok, .ok, .reset .step] })
      ([256, 0x01, 0x00, 0x10, 257], .none, .cut) = true := by decide

/-- R266: a reset inside the second of the two frames of CB.WR: the first stands at the peer. -/
theorem test_cbWr_cut_between :
    got (fun s => (bus s.trace, s.res, s.pm))
      (exec (.cbWr 2 1 2 1 [7, 8]) { State.reset with env := [.ok, .ok, .ok, .ok, .reset (.exchange false)] })
      ([256, 0, 1, 0x14, 7, 257, 256, 257], .none, [(byteKey 2 1, 7)]) = true := by decide

/-- R266: a reset between the two frames of CB.WR: no second frame is sent. -/
theorem test_cbWr_reset_between :
    got (fun s => (bus s.trace, s.res, s.resp, s.pm))
      (exec (.cbWr 2 1 2 1 [7, 8]) { State.reset with env := [.ok, .ok, .ok, .ok, .reset .between] })
      ([256, 0, 1, 0x14, 7, 257], .none, .cut, [(byteKey 2 1, 7)]) = true := by decide

/-! ### The step -/

theorem test_step_runs_port : got State.res (step (State.reset.withFetchWord 8 0x10)) .ok = true := by decide

theorem test_step_runs_wire :
    got State.results (step (State.reset.withFetchWord 24 0x00010C)) [.op .peerWrote] = true := by decide

/-- V22. -/
theorem test_step_bad_opsel :
    got (fun s => (s.results, s.trace, s.res)) (step (State.reset.withFetchWord 8 0x07))
      ([.op (.refused .badOp)], [], .none) = true := by decide

/-- R96: two bytes are no frame. -/
theorem test_step_noFrame :
    got (fun s => (s.results, s.trace)) (step (State.reset.withPacket (.wire [0x00, 0x24]))) ([.op .noFrame], []) = true := by
  decide

theorem test_step_operandLength :
    stops (step (State.reset.withPacket (.cmd 0x11 { n := 2, wdata := [0x20] }))) .operandLength = true := by decide

theorem test_step_peer_refuses : stops (step (State.reset.withFetchWord 24 0x000020)) .peerUnassignedBlock = true := by decide

/-! ### Host sequences: V160 to V175 -/

/-- The bytes a socket call puts on the bus from reset. -/
def callBus (c : SocketCall) (v : List Nat) : Bool :=
  got (fun s => bus s.trace) (step { State.reset with task := some (.socket c) }) (256 :: v ++ [257])

theorem test_call_setMode : callBus (.setMode 0 Config.std.protoUdp) [0x00, 0x00, 0x0C, 0x02] = true := by decide

theorem test_call_resetInterrupt : callBus (.resetInterrupt 0 0x10) [0x00, 0x02, 0x0C, 0x10] = true := by decide

theorem test_call_setSourcePort : callBus (.setSourcePort 0 9999) [0x00, 0x04, 0x0C, 0x27, 0x0F] = true := by decide

theorem test_call_setDestinationAddress :
    callBus (.setDestinationAddress 0 { a0 := 192, a1 := 0, a2 := 2, a3 := 1 })
      [0x00, 0x0C, 0x0C, 0xC0, 0x00, 0x02, 0x01] = true := by decide

theorem test_call_setDestinationPort :
    callBus (.setDestinationPort 0 9999) [0x00, 0x10, 0x0C, 0x27, 0x0F] = true := by decide

theorem test_call_pointers :
    callBus (.getTxReadPointer 0) [0x00, 0x22, 0x08, 0x00, 0x00] = true ∧
    callBus (.getRxReadPointer 0) [0x00, 0x28, 0x08, 0x00, 0x00] = true ∧
    callBus (.setTxWritePointer 0 0x0103) [0x00, 0x24, 0x0C, 0x01, 0x03] = true ∧
    callBus (.setRxReadPointer 2 0x0809) [0x00, 0x28, 0x4C, 0x08, 0x09] = true := by decide

theorem test_call_setInterruptMask : callBus (.setInterruptMask 0 0xFF) [0x00, 0x2C, 0x0C, 0xFF] = true := by decide

theorem test_call_issueCommand :
    callBus (.issueCommand 0 .send) [0x00, 0x01, 0x0C, 0x20] = true ∧
    callBus (.issueCommand 0 .openTag) [0x00, 0x01, 0x0C, 0x01] = true ∧
    callBus (.issueCommand 2 .receiveAck) [0x00, 0x01, 0x4C, 0x40] = true := by decide

theorem test_call_hasInterrupt :
    got State.results (step { peerHolds [(1, 2, 0x14)] with task := some (.socket (.hasInterrupt 0 0x10)) }) [.flag true] =
      true ∧
    got State.results (step { peerHolds [(1, 2, 0x04)] with task := some (.socket (.hasInterrupt 0 0x10)) }) [.flag false] =
      true := by decide

theorem test_call_getTxWritePointer :
    got State.results
      (step { peerHolds [(1, 0x24, 0x01), (1, 0x25, 0x00)] with task := some (.socket (.getTxWritePointer 0)) })
      [.pointer 0x0100] = true := by decide

/-! ### Witnesses: the hypotheses of every statement are met together, each clause at a boundary -/

theorem witness_idle : State.reset.phase = .idle := rfl

theorem noReset_of_empty (s : State) (h : s.program = []) : NoReset s := by
  intro rest hr
  rw [h] at hr
  cases hr

theorem witness_hostFree : HostFree State.reset ∧ State.reset.parked = [] := by decide

/-- RegisterAddressFormed: the first and the last name, the first and the last refused code. -/
theorem witness_RegisterAddressFormed :
    regNames[(0 : BitVec 4).toNat]? = some .mode ∧ regNames[(11 : BitVec 4).toNat]? = some .receivedSize ∧
    12 ≤ (12 : BitVec 4).toNat ∧ 12 ≤ (15 : BitVec 4).toNat := by decide

theorem witness_DefaultOffsetTable : RegName.mode ≠ RegName.command := by decide

theorem witness_CodecLaws : Answers (.hdrEnc 0x0024 1 .write) (.header { h0 := 0x00, h1 := 0x24, h2 := 0x0C }) := by
  intro s h
  simp only [exec, execHdrEnc, answer, atIdle, h]
  rfl

/-- FreeSpace: valid at u = S (V104), not valid at u = S + 1 (V105). -/
theorem witness_FreeSpace :
    answers (.cpFree 11 0x0900 0x0100) (.free 0 true) = true ∧ answers (.cpFree 11 0x0901 0x0100) (.free 65535 false) = true := by
  decide

/-- SplitterFormula and SplitterLaws: o0 + L = S (V122), o0 + L = S + 1 (V123), L = S (V127), L > S (V130). -/
theorem witness_SplitterLaws :
    (cpSplit 2040 8 11).two = false ∧ (cpSplit 2040 8 11).l0 = 8 ∧
    answers (.cpSplit 2040 9 11) (.split { o0 := 2040, l0 := 8, two := true, l1 := 1, fits := true }) = true ∧
    answers (.cpSplit 1 2048 11) (.split { o0 := 1, l0 := 2047, two := true, l1 := 1, fits := true }) = true ∧
    answers (.cpSplit 100 3000 11) (.split { o0 := 100, l0 := 1948, two := true, l1 := 1052, fits := false }) = true := by
  decide

theorem witness_FrameStart : (peerHolds [(1, 0, 1)]).phase = .idle := rfl

/-- StepHeader: at the first and the last header byte, with success, with failure, with no return and with a reset. -/
theorem witness_StepHeader :
    NoReset (inFrame .read 2 [] [] 0) ∧ NoReset (inFrame .read 2 [] [] 2) ∧
    (inFrame .read 2 [] [] 0).phase = .hdr ∧ (inFrame .read 2 [] [] 0).idx = 0 ∧
    (inFrame .read 2 [] [] 2).phase = .hdr ∧ (inFrame .read 2 [] [] 2).idx = 2 ∧
    got State.res (step (inFrame .read 2 [] [.ok, .ok, .fail ⟨9⟩ true] 2)) (.errBus ⟨9⟩) = true ∧
    got State.idx (step (inFrame .read 2 [] [.ok, .ok, .hang true] 2)) 2 = true ∧
    got State.resp (step (inFrame .read 2 [] [.ok, .ok, .reset .step] 2)) .cut = true :=
  ⟨noReset_of_empty _ rfl, noReset_of_empty _ (by decide), by decide⟩

/-- StepData: the last byte of a write and of a read, a failure, no return, and a reset. -/
theorem witness_StepData :
    NoReset (inFrame .write 2 [7, 8] [] 4) ∧ NoReset (inFrame .read 2 [] [] 4) ∧
    (inFrame .write 2 [7, 8] [] 4).phase = .data ∧
    (inFrame .write 2 [7, 8] [] 4).idx = 1 ∧ (inFrame .write 2 [7, 8] [] 4).wdata.length = 2 ∧
    (inFrame .read 2 [] [] 4).phase = .data ∧ (inFrame .read 2 [] [] 4).idx = 1 ∧
    (inFrame .read 2 [] [] 4).rdata.length = 1 ∧
    got State.res (step (inFrame .write 2 [7, 8] [.ok, .ok, .ok, .ok, .fail ⟨9⟩ false] 4)) (.errBus ⟨9⟩) = true ∧
    got State.idx (step (inFrame .read 2 [] [.ok, .ok, .ok, .ok, .hang false] 4)) 1 = true ∧
    got State.resp (step (inFrame .read 2 [] [.ok, .ok, .ok, .ok, .reset (.exchange false)] 4)) .cut = true :=
  ⟨noReset_of_empty _ (by decide), noReset_of_empty _ (by decide), by decide⟩

/-- StepEnd: with nothing in the way, and with a reset in its place. -/
theorem witness_StepEnd :
    NoReset (inFrame .write 2 [7, 8] [] 5) ∧ (inFrame .write 2 [7, 8] [] 5).phase = .data ∧
    (inFrame .write 2 [7, 8] [] 5).idx = (inFrame .write 2 [7, 8] [] 5).len ∧
    firstStop (inFrame .write 2 [7, 8] [] 5).env 0 = none ∧
    firstStop (inFrame .write 2 [7, 8] [.ok, .ok, .ok, .ok, .ok, .reset .step] 5).env 0 = some (0, .reset) :=
  ⟨noReset_of_empty _ (by decide), by decide⟩

theorem witness_StepFail : byteKey 0 5 ∉ pokedKeys (inFrame .write 2 [7, 8] [.poke 0 3 1] 4).env := by decide

theorem witness_StepPositions : ([7, 8] : List Byte).length = (2 : Half).toNat ∧ firstStop [.ok, .poke 0 0 1] (3 + 2) = none := by
  decide

/-- WriteFrameTrace and ReadFrameTrace: no failure, a failure in the header, on the last data byte, and behind the frame. -/
theorem witness_frameTraces :
    State.reset.phase = .idle ∧ ([7, 8] : List Byte).length = (2 : Half).toNat ∧
    firstStop State.reset.env (3 + 2) = none ∧ firstStop [.fail ⟨9⟩ true] (3 + 2) = some (0, .fail ⟨9⟩) ∧
    firstStop [.ok, .ok, .ok, .ok, .fail ⟨9⟩ false] (3 + 2) = some (4, .fail ⟨9⟩) ∧
    firstStop [.ok, .ok, .ok, .ok, .ok, .fail ⟨9⟩ false] (3 + 2) = none ∧
    firstStop [.ok, .ok, .ok, .ok, .hang true] (3 + 2) = some (4, .hang) ∧
    firstStop [.ok, .reset (.exchange false)] (3 + 2) = some (1, .reset) ∧
    firstStop [.ok, .hang true, .poke 0 0 1, .reset .step] (3 + 2) = some (1, .reset) ∧
    firstStop [.ok, .ok, .ok, .ok, .ok, .reset .step] (3 + 2) = some (5, .reset) ∧
    firstStop [.ok, .ok, .ok, .ok, .ok, .reset (.exchange false)] (3 + 2) = none := by decide

theorem witness_EmptyFrame :
    State.reset.phase = .idle ∧ firstStop [.poke 2 0 1] 3 = none ∧ PeerTakes State.reset 2 2048 0 ∧
    byteKey 2 1 ∉ pokedKeys [.poke 2 0 1] := by decide

/-- WriteFrameMemory: up to the last offset of a block, all bytes reached, or the failing one or not; a byte inside and one
outside. -/
theorem witness_WriteFrameMemory :
    PeerTakes State.reset 1 0xFFFE (2 : Half).toNat ∧ ([7, 8] : List Byte).length = (2 : Half).toNat ∧
    reachedCount [] (3 + 2) - 3 = 2 ∧ reachedCount [.ok, .ok, .ok, .ok, .fail ⟨9⟩ true] (3 + 2) - 3 = 2 ∧
    reachedCount [.ok, .ok, .ok, .ok, .fail ⟨9⟩ false] (3 + 2) - 3 = 1 ∧ byteKey 1 0xFFFE ∉ pokedKeys [.poke 2 0 1] ∧
    byteKey 1 (0xFFFE : Half).toNat ≤ byteKey 1 0xFFFF ∧ byteKey 2 0 = byteKey 1 (0xFFFE : Half).toNat + 2 := by decide

theorem witness_ReadFrameMemory : State.reset.phase = .idle ∧ PeerTakes State.reset 3 2046 (2 : Half).toNat ∧
    byteKey 3 0 ∉ pokedKeys [.poke 2 0 1] := by decide

theorem witness_ReadFrameBytes : State.reset.phase = .idle ∧ Quiet [.ok, .ok] ∧
    PeerTakes { State.reset with env := [.ok, .ok] } 3 2046 (2 : Half).toNat ∧
    firstStop [.ok, .ok, .ok, .poke 3 2046 1, .okWith 5] (3 + 2) = none ∧
    sampleAt [.ok, .ok, .ok, .poke 3 2046 1, .ok, .okWith 5] [] 3 (byteKey 3 2046) = 1 ∧
    sampleAt [.ok, .ok, .ok, .poke 3 2046 1, .ok, .okWith 5] [] 4 (byteKey 3 2047) = 5 := by decide

theorem witness_OracleAnswers : ([0, 0, 0, 0x00, 0x0D] : List Byte).length = 3 + (2 : Half).toNat ∧
    ({ State.reset with env := ([0, 0, 0, 0x00, 0x0D] : List Byte).map EnvEvent.okWith }).phase = .idle := by decide

/-- RefusedFrameLosesPeer: an unassigned block, an offset past 65535, one past the buffer; the header complete or not. -/
theorem witness_RefusedFrameLosesPeer :
    State.reset.peer = .reference ∧ ¬ PeerTakes State.reset 4 0 1 ∧ ¬ PeerTakes State.reset 1 0xFFFF 2 ∧
    ¬ PeerTakes State.reset 2 2047 2 ∧ reachedCount [] 3 = 3 ∧ reachedCount [.ok, .ok, .fail ⟨9⟩ true] 3 = 3 ∧
    reachedCount [.ok, .ok, .fail ⟨9⟩ false] 3 < 3 := by decide

theorem witness_BusOperationFrame :
    drivesBus (.cbWr 6 65530 2 11 [1, 2]) = true ∧ (Instr.cbWr 6 65530 2 11 [1, 2]).wellFormed = true ∧
    (∃ t, exec (.cbWr 6 65530 2 11 [1, 2]) State.reset = .next t) ∧
    got State.sel (exec (.cbWr 6 65530 2 11 [1, 2]) { State.reset with env := [.hang false] }) .asserted = true ∧
    got State.resp (exec (.cbWr 6 65530 2 11 [1, 2]) { State.reset with env := [.reset (.exchange false)] }) .cut = true :=
  ⟨by decide, by decide, ⟨_, rfl⟩, by decide, by decide⟩

/-- BufferWriteIsFrames: refused, one frame, two frames with the first succeeding, failing and cut, and a reset between the
two. -/
theorem witness_BufferWriteIsFrames :
    (cpSplit 0 3 1).fits = false ∧ (cpSplit 0 2 1).fits = true ∧ (cpSplit 0 2 1).two = false ∧
    (cpSplit 1 2 1).fits = true ∧ (cpSplit 1 2 1).two = true ∧
    got State.res (exec (.frameWr 2 1 1 [7]) State.reset) .ok = true ∧
    got State.res (exec (.frameWr 2 1 1 [7]) { State.reset with env := [.fail ⟨9⟩ true] }) (.errBus ⟨9⟩) = true ∧
    got State.res (exec (.frameWr 2 1 1 [7]) { State.reset with env := [.reset .step] }) .none = true ∧
    got (fun s => (s.res, cutsBetween s.env))
      (exec (.frameWr 2 1 1 [7]) { State.reset with env := [.ok, .ok, .ok, .ok, .reset .between] }) (.ok, true) = true ∧
    cutsBetween State.reset.env = false := by decide

/-- BufferReadIsFrames: the second frame succeeding, failing and cut after the first has succeeded, a reset between the two;
the first failing and not returning. -/
theorem witness_BufferReadIsFrames :
    (cpSplit 1 2 1).fits = true ∧ (cpSplit 1 2 1).two = true ∧
    got State.res (exec (.cbRd 3 1 2 1) State.reset) .ok = true ∧
    got (fun s => (s.res, s.rdata.length, bus s.trace))
      (exec (.cbRd 3 1 2 1) { State.reset with env := [.ok, .ok, .ok, .ok, .fail ⟨9⟩ true] })
      (.errBus ⟨9⟩, 2, [256, 0, 1, 0x18, 0, 257, 256, 0, 257]) = true ∧
    got (fun s => (s.res, s.rdata.length)) (exec (.cbRd 3 1 2 1) { State.reset with env := [.fail ⟨9⟩ true] }) (.errBus ⟨9⟩, 2) =
      true ∧
    got State.resp (exec (.cbRd 3 1 2 1) { State.reset with env := [.ok, .ok, .ok, .ok, .reset (.exchange false)] }) .cut = true ∧
    got (fun s => (s.res, cutsBetween s.env))
      (exec (.frameRd 3 1 1) { State.reset with env := [.ok, .ok, .ok, .ok, .reset .between] }) (.ok, true) = true ∧
    got State.res (exec (.cbRd 3 1 2 1) { State.reset with env := [.hang true] }) .none = true := by decide

theorem witness_OversizeRefused : 2 ^ (11 : BitVec 4).toNat < (2049 : Half).toNat := by decide

/-- BufferWriteMemory and BufferReadBack: a transfer of the whole buffer that wraps. -/
theorem witness_bufferTransfers :
    State.reset.phase = .idle ∧ Quiet State.reset.env ∧ ([1, 2] : List Byte).length = (2 : Half).toNat ∧
    (2 : Half).toNat ≤ 2 ^ (1 : BitVec 4).toNat ∧ PeerTakes State.reset 2 0 (2 ^ (1 : BitVec 4).toNat) ∧
    PeerTakes State.reset 2 0 (2 ^ (11 : BitVec 4).toNat) := by decide

theorem witness_ParseCases :
    ([(0, 0), (0x24, 0)] : List (Byte × Byte)).length < 3 ∧
    (hdrDec Config.std { h0 := 0, h1 := 0, h2 := 0x01 }).om ≠ Config.std.omVdm ∧
    (hdrDec Config.std { h0 := 0, h1 := 0, h2 := 0x14 }).om = Config.std.omVdm := by decide

theorem witness_ParseRoundTrip :
    State.reset.phase = .idle ∧ firstStop State.reset.env (3 + 1) = none ∧
    Answers (.frameParse [(0x00, 0), (0x01, 0), (0x0C, 0), (0x20, 0)]) (.parsed .write 1 1 [0x20] .sreg 0 true .wrSreg) := by
  refine ⟨rfl, by decide, fun s h => ?_⟩
  simp only [exec, execFrameParse, answer, atIdle, h]
  rfl

/-- WireReads and WireWrites: the common block, the last byte of a buffer, and scripts that stop the frame. -/
theorem witness_wires :
    succeeding [.ok, .poke 0 0 1, .okWith 5, .hang true] 3 = 2 ∧ reachedCount [.ok, .poke 0 0 1, .okWith 5, .hang true] 3 = 3 ∧
    PeerTakes State.reset (blockOf 0 .common) 0xFFFF 1 ∧ PeerTakes State.reset (blockOf 7 .stx) 2047 1 ∧
    PeerTakes State.reset (blockOf 7 .srx) 2048 0 ∧ Region.stx ≠ Region.common := by decide

/-- WireRefusals: the first transfer past the block and the first past the buffer. -/
theorem witness_WireRefusals :
    65536 < (0xFFFF : Half).toNat + ([1, 2] : List Byte).length ∧
    (2047 : Half).toNat + ([1, 2] : List Byte).length ≤ 65536 ∧
    blockLimit State.reset (blockOf 7 .stx) < (2047 : Half).toNat + ([1, 2] : List Byte).length := by decide

theorem witness_WireOnLostPeer :
    ({ State.reset with peer := .lost, wire := [1] }).peer = .lost ∧
    (2047 : Half).toNat + 1 ≤ blockLimit { State.reset with peer := .lost, wire := [1] } (blockOf 0 .srx) ∧
    got (fun s => (s.draws, s.resp))
      (exec (.wRdSrx 0 0) { State.reset with peer := .lost, wire := [1, 2, 3], env := [.okWith 9, .fail ⟨9⟩ true] })
      (2, .peerRead [9]) = true := by decide

theorem witness_WireAgreesWithFrames :
    State.reset.phase = .idle ∧ Quiet State.reset.env ∧ ([7] : List Byte).length = (1 : Half).toNat ∧
    PeerTakes State.reset 30 2047 (1 : Half).toNat := by decide

theorem witness_CombinationalHaveNoState :
    isArithmetic (.roff 11) = true ∧ isArithmetic (.roff 12) = true ∧ isArithmetic (.frameParse []) = true := by decide

theorem witness_BusyStops :
    (inFrame .read 2 [] [] 1).phase ≠ .idle ∧ isArithmetic .bsbCommon = true ∧ drivesBus (.frameRd 0 0 0) = true ∧
    (isArithmetic (.wRdCommon 0) || drivesBus (.wRdCommon 0)) = false := by decide

/-- StepRunsDecoded: a next state, one whose operation does not return, a refusal of the unit and one of the peer; no frame;
write data of a wrong length. -/
theorem witness_StepRunsDecoded :
    HostFree (State.reset.withPacket (.cmd 0x05 { r := 11 })) ∧
    (State.reset.withPacket (.cmd 0x05 { r := 11 })).program = [.op (.cmd 0x05 { r := 11 })] ∧
    decodeRest (.cmd 0x05 { r := 11 }) = .ok (.roff 11, []) ∧
    got State.results (step (State.reset.withPacket (.cmd 0x05 { r := 11 }))) [.op (.offset 0x0026)] = true ∧
    got (fun s => (s.results, s.phase)) (step ({ State.reset with env := [.hang true] }.withPacket (.cmd 0x10 {}))) ([], .hdr) =
      true ∧
    decodeRest (.cmd 0x05 { r := 12 }) = .ok (.roff 12, []) ∧
    got State.results (step (State.reset.withPacket (.cmd 0x05 { r := 12 }))) [.op (.refused .badOp)] = true ∧
    decodeRest (.wire [0, 0, 0x20]) = .ok (.wRsvBsb 1 .read 0, []) ∧
    stops (step (State.reset.withPacket (.wire [0, 0, 0x20]))) .peerUnassignedBlock = true ∧
    ([0, 0x24] : List Byte).length < 3 ∧ ([0x20] : List Byte).length ≠ (2 : Half).toNat := by decide

/-- Sequences in progress on sockets 0 and 3: the first has the bus, the second waits. -/
def twoUsers (turns : List Turn) : State :=
  { State.reset with
    task := some (.socket (.setMode 0 2)), parked := [.socket (.setMode 3 2)], turns := turns }

/-- StepOtherwise: inside a frame; each kind of turn; a call beside a waiting sequence, and on its socket; the end. -/
theorem witness_StepOtherwise :
    NoReset (inFrame .read 2 [] [] 1) ∧ (inFrame .read 2 [] [] 1).phase ≠ .idle ∧ NoReset (twoUsers []) ∧
    (twoUsers [.user 3]).due.task = some (.socket (.setMode 3 2)) ∧
    HostFree (twoUsers [.program]) ∧ (twoUsers [.program]).due.parked.map HostTask.sock = [3, 0] ∧
    (twoUsers [.user 5]).due.task = some (.socket (.setMode 0 2)) ∧ (twoUsers [.user 5]).due.turns = [] ∧
    got (fun s => (s.task.map HostTask.sock, s.program))
      (step { twoUsers [.program] with program := [.call (.getReceiveSize 5)] }) (some 5, []) = true ∧
    got (fun s => (s.task.map HostTask.sock, s.parked.map HostTask.sock, s.program.length))
      (step { twoUsers [.program] with program := [.call (.getReceiveSize 3)] }) (some 3, [0], 1) = true ∧
    got (fun s => s.task.map HostTask.sock) (step (twoUsers [.program])) (some 3) = true ∧
    got State.pm (step { State.reset with env := [.poke 1 0 5] }) [(byteKey 1 0, 5)] = true :=
  ⟨noReset_of_empty _ rfl, by decide, noReset_of_empty _ rfl, by decide⟩

/-- R261: the frames of two sequences in progress alternate, each on its own socket's block. -/
theorem test_users_alternate :
    ((State.after 3
      { twoUsers [.user 0, .user 3, .user 0] with
        task := some (.sizeFirst (.get 0)), pm := [(byteKey 1 0x26, 0x00), (byteKey 1 0x27, 0x0D)] }).map
      fun s => bus s.trace) =
      some ([256, 0x00, 0x26, 0x08, 0x00, 0x00, 257] ++ [256, 0x00, 0x00, 0x6C, 0x02, 257] ++
        [256, 0x00, 0x26, 0x08, 0x00, 0x00, 257]) := by decide

/-- RefusalsChangeNothing: each reason of R243, from each kind of packet that earns it. -/
theorem witness_RefusalsChangeNothing :
    refusedWith (.cmd 0x07 {}) = some .badOp ∧ refusedWith (.cmd 0x05 { r := 12 }) = some .badOp ∧
    refusedWith (.cmd 0x06 { r := 15 }) = some .badOp ∧
    refusedWith (.cmd 0x1D { l := 2049, szlog2 := 11 }) = some .oversize ∧
    refusedWith (.cmd 0x1E { l := 2, szlog2 := 0, wdata := [1, 2] }) = some .oversize ∧
    refusedWith (.cmd 0x12 { t := [(0, 0), (0, 0), (1, 0)] }) = some .badMode ∧
    HostFree (State.reset.withPacket (.cmd 0x07 {})) ∧
    (State.reset.withPacket (.cmd 0x07 {})).program = [.op (.cmd 0x07 {})] := by decide

/-- StepKeepsInvariant and StepKeepsBracketed: a state inside a frame, and its step; two sequences in progress. -/
theorem witness_invariants :
    (inFrame .write 2 [7, 8] [] 4).EngineInv ∧ (inFrame .write 2 [7, 8] [] 4).PeerInv ∧
    (inFrame .write 2 [7, 8] [] 4).Bracketed ∧ got State.phase (step (inFrame .write 2 [7, 8] [] 4)) .data = true := by decide

theorem witness_invariants_host : (inFrame .write 2 [7, 8] [] 4).HostInv ∧ (twoUsers [.user 3]).HostInv := by decide

theorem witness_DecodeEncode :
    (Instr.frameWr 1 1 1 [0x20]).wellFormed = true ∧ (Instr.wRsvBsb 7 .write 0xFFFF).wellFormed = true ∧
    (Instr.wRsvOm3 31 .write 0xFFFF).wellFormed = true := by decide

theorem witness_WireWordsDecode : decodeRest (.wire [0, 0, 0x20, 5]) = .ok (.wRsvBsb 1 .read 0, [5]) := by decide

/-- UnitReset: between two operations, and in the middle of a frame whose exchange does not return. -/
theorem witness_UnitReset :
    ({ inFrame .write 2 [7, 8] [] 4 with program := [.reset] }).program = [.reset] ∧
    (inFrame .write 2 [7, 8] [] 4).sel = .asserted ∧
    got (fun s => bus s.trace) (step { inFrame .write 2 [7, 8] [] 4 with program := [.reset] }) [256, 0, 0x24, 0x0C, 7, 257] =
      true ∧
    got (fun s => (s.results, s.env)) (step { inFrame .write 2 [7, 8] [] 4 with program := [.reset], env := [.hang false, .ok] })
      ([.op .cut], [.ok]) = true ∧
    got State.trace (step { State.reset with program := [.reset] }) [] = true := by decide

/-- A udp_send of three bytes with a buffer of `2 ^ sz` bytes. -/
def sendJob (sz : BitVec 4) : SendJob where
  sock := 0
  addr := { a0 := 192, a1 := 0, a2 := 2, a3 := 1 }
  port := 9999
  payload := [1, 2, 3]
  szlog2 := sz
  retryMax := 3

/-- The operands of program P3: a buffer smaller than the datagram. -/
def recvJob : RecvJob where
  sock := 0
  capacity := 3
  szlog2 := 11

/-- The host stands at `k`, the peer holding the bytes given. -/
def at' (k : HostTask) (cells : List (Block × Nat × Byte)) : State := { peerHolds cells with task := some k }

theorem witness_hasBus (k : HostTask) (cells : List (Block × Nat × Byte)) : HasBus (at' k cells) k :=
  ⟨rfl, noReset_of_empty _ rfl, rfl⟩

/-- SequenceStep: a refusal, a bus error, an exchange that does not return, a reset, a reset of one that does not return. -/
theorem witness_SequenceStep :
    taskIssue Config.std (.sendPayload (sendJob 1) 0) = .ok (.cbWr 2 0 3 1 [1, 2, 3]) ∧
    stops (exec (.cbWr 2 0 3 1 [1, 2, 3]) State.reset) .oversize = true ∧ returnedToHost .oversize = true ∧
    got State.results (step (at' (.sendPayload (sendJob 1) 0) [])) [.refused .oversize] = true ∧
    got State.results (step { at' (.sendPointer (sendJob 11)) [] with env := [.fail ⟨9⟩ true] }) [.busError ⟨9⟩] = true ∧
    got (fun s => (s.task, s.phase)) (step { at' (.sendPointer (sendJob 11)) [] with env := [.hang true] })
      (some (.sendPointer (sendJob 11)), .hdr) = true ∧
    got State.results (step { at' (.sendPointer (sendJob 11)) [] with env := [.reset .step] }) [.cut] = true ∧
    got (fun s => (s.results, s.env))
      (step { at' (.sendPointer (sendJob 11)) [] with env := [.ok, .hang true, .poke 1 0 5, .reset .step, .ok] })
      ([.cut], [.ok]) = true := by decide

/-- SequenceStep: a success at a position of each kind, at the values where its clauses meet. -/
theorem witness_SequenceStep_success :
    got State.results (step (at' (.socket (.setMode 0 2)) [])) [.done] = true ∧
    got State.results (step (at' (.socket (.hasInterrupt 0 0x14)) [(1, 2, 0x04)])) [.flag true] = true ∧
    got State.results (step (at' (.socket (.hasInterrupt 0 0x10)) [(1, 2, 0xEF)])) [.flag false] = true ∧
    got State.task (step (at' (.sizeFirst (.get 0)) [(1, 0x26, 0x01), (1, 0x27, 0x0D)])) (some (.sizeSecond (.get 0) 0x010D)) =
      true ∧
    got State.task (step (at' (.sizeSecond (.get 0) 7) [(1, 0x26, 0), (1, 0x27, 7)])) (some (.sizeFirst (.get 0))) = true ∧
    got State.results (step (at' (.sizeSecond (.get 0) 8) [(1, 0x26, 0), (1, 0x27, 8)])) [.size 8] = true ∧
    got State.task (step (at' (.sendCommand (sendJob 11)) [])) (some (.sendPoll (sendJob 11) 3)) = true ∧
    got State.task (step (at' (.sendPoll (sendJob 11) 2) [(1, 2, 0)])) (some (.sendPoll (sendJob 11) 1)) = true ∧
    got State.results (step (at' (.sendPoll (sendJob 11) 1) [(1, 2, 0)])) [.sendTimeout] = true ∧
    got State.results (step (at' (.sendClear (sendJob 11)) [])) [.sent] = true := by decide

/-- SequenceStep: a success at every other position of udp_send; a poll that finds the flag; no poll allowed (log entry 34). -/
theorem witness_SequenceStep_send :
    got State.results (step (at' (.socket (.getTxReadPointer 0)) [(1, 0x22, 0x01), (1, 0x23, 0x02)])) [.pointer 0x0102] = true ∧
    got State.task (step (at' (.sendPointer (sendJob 11)) [(1, 0x24, 0x01), (1, 0x25, 0x00)]))
      (some (.sendAddress (sendJob 11) 0x0100)) = true ∧
    got State.task (step (at' (.sendAddress (sendJob 11) 0x0100) [])) (some (.sendPort (sendJob 11) 0x0100)) = true ∧
    got State.task (step (at' (.sendPort (sendJob 11) 0x0100) [])) (some (.sendPayload (sendJob 11) 0x0100)) = true ∧
    got State.task (step (at' (.sendPayload (sendJob 11) 0x0100) [])) (some (.sendAdvance (sendJob 11) 0x0100)) = true ∧
    got State.task (step (at' (.sendAdvance (sendJob 11) 0x0100) [])) (some (.sendCommand (sendJob 11))) = true ∧
    got State.task (step (at' (.sendPoll (sendJob 11) 1) [(1, 2, 0x1F)])) (some (.sendClear (sendJob 11))) = true ∧
    got State.results (step (at' (.sendCommand { sendJob 11 with retryMax := 0 }) [])) [.sendTimeout] = true := by decide

/-- The inline header of program P3. -/
def recvHdr : InlineHeader where
  src := { a0 := 0xC0, a1 := 0, a2 := 2, a3 := 2 }
  port := 1234
  declared := 5

/-- SequenceStep: a success at every position of udp_receive behind the size loop. -/
theorem witness_SequenceStep_receive :
    got State.task (step (at' (.recvPointer recvJob) [(1, 0x28, 0x07), (1, 0x29, 0xFC)])) (some (.recvHeader recvJob 0x07FC)) =
      true ∧
    got State.task (step (at' (.recvHeader recvJob 0) [(3, 0, 0xC0), (3, 1, 0x00), (3, 2, 0x02), (3, 3, 0x02), (3, 4, 0x04),
      (3, 5, 0xD2), (3, 6, 0x00), (3, 7, 0x05)])) (some (.recvPayload recvJob 0 recvHdr)) = true ∧
    got State.task (step (at' (.recvPayload recvJob 0 recvHdr) [(3, 8, 0x11), (3, 9, 0x22), (3, 10, 0x33)]))
      (some (.recvAdvance recvJob 0 recvHdr [0x11, 0x22, 0x33])) = true ∧
    got State.task (step (at' (.recvAdvance recvJob 0 recvHdr [0x11, 0x22, 0x33]) []))
      (some (.recvAck recvJob recvHdr [0x11, 0x22, 0x33])) = true ∧
    got State.results (step (at' (.recvAck recvJob recvHdr [0x11, 0x22, 0x33]) []))
      [.received recvHdr.src 1234 3 [0x11, 0x22, 0x33]] = true := by decide

/-- SendPollTimesOut: three polls of a flag that is not set, from the command and from a poll (V163, X7). -/
theorem witness_SendPollTimesOut :
    0 < (sendJob 11).retryMax ∧ (at' (.sendCommand (sendJob 11)) [(1, 2, 0x04)]).peer = .reference ∧
    Quiet (at' (.sendPoll (sendJob 11) 3) [(1, 2, 0x04)]).env ∧
    ((at' (.sendCommand (sendJob 11)) [(1, 2, 0x04)]).peerByte
      (byteKey (blockOf 0 .sreg) (Config.std.roff .interrupt).toNat) &&& Config.std.irqSendDone) = 0 := by decide

/-- ReceiveSizeStable: both users; samples equal and 13, equal and 4, and unequal (X3); an exchange that does not return. -/
theorem witness_ReceiveSizeStable :
    got State.results (step (at' (.sizeSecond (.get 0) 13) [(1, 0x26, 0x00), (1, 0x27, 0x0D)])) [.size 13] = true ∧
    got State.task (step (at' (.sizeSecond (.get 0) 4) [(1, 0x26, 0x00), (1, 0x27, 0x04)])) (some (.sizeFirst (.get 0))) = true ∧
    got State.task (step (at' (.sizeSecond (.get 0) 5) [(1, 0x26, 0x00), (1, 0x27, 0x0D)])) (some (.sizeFirst (.get 0))) = true ∧
    got State.task (step (at' (.sizeSecond (.recv { sock := 0, capacity := 3, szlog2 := 11 }) 13)
      [(1, 0x26, 0x00), (1, 0x27, 0x0D)])) (some (.recvPointer { sock := 0, capacity := 3, szlog2 := 11 })) = true ∧
    got State.task (step { at' (.sizeFirst (.get 0)) [] with env := [.hang true] }) (some (.sizeFirst (.get 0))) = true := by
  decide

/-- The start of program P1 with the flag already set. -/
def sendStart : State :=
  { peerHolds [(1, 0x02, 0x10), (1, 0x24, 0x01), (1, 0x25, 0x00)] with program := [.call (.udpSend (sendJob 11))] }

theorem witness_UdpSendCompletes :
    HostFree sendStart ∧ sendStart.parked = [] ∧ sendStart.program = .call (.udpSend (sendJob 11)) :: [] ∧
    sendStart.peer = .reference ∧ Quiet sendStart.env ∧ 0 < (sendJob 11).retryMax ∧
    (sendJob 11).payload.length ≤ 2 ^ (sendJob 11).szlog2.toNat ∧
    2 ^ (sendJob 11).szlog2.toNat ≤ blockLimit sendStart (blockOf 0 .stx) ∧
    flagSet (sendStart.peerByte (byteKey (blockOf 0 .sreg) (Config.std.roff .interrupt).toNat)) Config.std.irqSendDone =
      true ∧
    sendStart.sockReg 0 .txWritePointer = bytesBe16 0x0100 := by decide

/-- The start of program P3. -/
def recvStart : State :=
  { peerHolds [(1, 0x26, 0x00), (1, 0x27, 0x0D), (1, 0x28, 0x07), (1, 0x29, 0xFC), (3, 0, 0x04), (3, 1, 0xD2), (3, 2, 0x00),
      (3, 3, 0x05), (3, 4, 0x11), (3, 5, 0x22), (3, 6, 0x33), (3, 0x7FC, 0xC0), (3, 0x7FD, 0x00), (3, 0x7FE, 0x02),
      (3, 0x7FF, 0x02)] with
    program := [.call (.udpReceive recvJob)] }

theorem witness_UdpReceiveCompletes :
    HostFree recvStart ∧ recvStart.parked = [] ∧ recvStart.program = .call (.udpReceive recvJob) :: [] ∧
    recvStart.peer = .reference ∧ Quiet recvStart.env ∧ 8 ≤ 2 ^ recvJob.szlog2.toNat ∧
    2 ^ recvJob.szlog2.toNat ≤ blockLimit recvStart (blockOf 0 .srx) ∧
    copyLen recvJob recvHdr ≤ 2 ^ recvJob.szlog2.toNat ∧
    8 ≤ (13 : Half).toNat ∧ recvStart.sockReg 0 .receivedSize = bytesBe16 13 ∧
    recvStart.sockReg 0 .rxReadPointer = bytesBe16 0x07FC ∧
    (List.range 8).map (fun k => recvStart.peerByte (byteKey (blockOf 0 .srx) (((0x07FC : Half).toNat + k) % 2048))) =
      [0xC0, 0x00, 0x02, 0x02, 0x04, 0xD2, 0x00, 0x05] := by decide

end Sys2Proof.Tests
end

section
/-! PROOFS of the scope statements (00_scope.md R17, 60_exceptions.md R261). What the host's next move is, by the head of its
program, and whose move it is: one equation per case, and the two obligations about a step put together from them. -/

namespace Sys2Proof.Machine

/-! ### The next item of the host's program -/

/-- A packet at the head of the program is the host's next move. -/
theorem step_op (s : State) (p : Packet) (rest : List HostItem) (h : HostFree s) (hp : s.program = .op p :: rest) :
    step s = packetMove p (State.goesOn rest s.due) := by
  rw [step_host s h (by simp [NoReset, hp]), hostMove, State.due_program, hp]

/-- A call at the head of the program is the host's next move. -/
theorem step_call (s : State) (c : Call) (rest : List HostItem) (h : HostFree s) (hp : s.program = .call c :: rest) :
    step s = .next (callMove c rest s.due) := by
  rw [step_host s h (by simp [NoReset, hp]), hostMove, State.due_program, hp]

/-- At the end of the program the host finishes what is in progress, or rests. -/
theorem step_programEnd (s : State) (h : HostFree s) (hp : s.program = []) : step s = .next (restMove s.due) := by
  rw [step_host s h (by simp [NoReset, hp]), hostMove, State.due_program, hp]

/-! ### A packet of the host's program -/

/-- A packet that decodes is run on the bytes behind its header (R96). -/
theorem packetMove_ok {p : Packet} {i : Instr} {bytes : List Byte} (s : State) (hd : decodeRest p = .ok (i, bytes)) :
    packetMove p s = opAfter s (exec i (State.onWire bytes s)) := by
  rw [packetMove, hd]

/-- Write data that is not as long as its count stops the step (log entry 24). -/
theorem packetMove_dataLength {p : Packet} (s : State) (hd : decodeRest p = .error .dataLength) :
    packetMove p s = .refused .operandLength := by
  rw [packetMove, hd]

/-- What is no frame does nothing but tell the host so (R96, log entry 32). -/
theorem packetMove_noFrame {p : Packet} (s : State) (hd : decodeRest p = .error .noFrame) :
    packetMove p s = opAfter s (.next (State.returns .noFrame s)) := by
  rw [packetMove, hd]

/-- The host gets the response exactly when the operation has returned (R146, R252). -/
theorem State.answered_eq (s : State) :
    s.answered = if s.phase = .idle then { s with results := s.results ++ [.op s.resp] } else s := by
  unfold State.answered
  split <;> rename_i h
  · exact (if_pos h).symm
  · exact (if_neg (by simp [h])).symm
  · exact (if_neg (by simp [h])).symm

/-- A response of an operation that leaves the engine idle reaches the host at once. -/
theorem State.returns_answered (r : Response) (s : State) (h : s.phase = .idle) :
    (State.returns r s).answered = { s with resp := r, results := s.results ++ [.op r] } := by
  rw [State.answered_eq, State.returns_phase, if_pos h]
  rfl

/-- Less than a header is no frame (R96). -/
theorem decodeRest_short {bytes : List Byte} (h : bytes.length < 3) : decodeRest (.wire bytes) = .error .noFrame := by
  match bytes with
  | [] => rfl
  | [_] => rfl
  | [_, _] => rfl
  | _ :: _ :: _ :: _ => simp at h; omega

/-- FRAME.WR with write data of another length than N (R90). -/
theorem decodeRest_frameWr_dataLength {x : Operands} (h : x.wdata.length ≠ x.n.toNat) :
    decodeRest (.cmd 0x11 x) = .error .dataLength := by
  simp [decodeRest, decodeCmd, h, Except.map]

/-- CB.WR with write data of another length than L (R90). -/
theorem decodeRest_cbWr_dataLength {x : Operands} (h : x.wdata.length ≠ x.l.toNat) :
    decodeRest (.cmd 0x1E x) = .error .dataLength := by
  simp [decodeRest, decodeCmd, h, Except.map]

/-- Settles O43, by the equation of `packetMove` for each answer of the decoder. -/
theorem stepRunsDecoded : Obligations.StepRunsDecoded := by
  refine ⟨fun s p rest i bytes h hp hd => ?_, fun s bytes rest h hp hl => ?_, fun s x rest h hx => ?_⟩
  · have hs : step s = opAfter (State.goesOn rest s.due) (exec i { s.due with program := rest, wire := bytes }) := by
      rw [step_op s p rest h hp, packetMove_ok _ hd]
      rfl
    rw [hs, ← State.due_results s]
    cases exec i { s.due with program := rest, wire := bytes } with
    | next t => exact congrArg Host.Outcome.next t.answered_eq
    | refused r => rfl
    | fault f => rfl
  · rw [step_op s _ rest h hp, packetMove_noFrame _ (decodeRest_short hl), opAfter,
      State.returns_answered _ _ (by simpa using h.1), State.goesOn_results, State.due_results]
    rfl
  · obtain ⟨hp, hl⟩ | ⟨hp, hl⟩ := hx
    · rw [step_op s _ rest h hp, packetMove_dataLength _ (decodeRest_frameWr_dataLength hl)]
    · rw [step_op s _ rest h hp, packetMove_dataLength _ (decodeRest_cbWr_dataLength hl)]

/-! ### Who has the bus -/

/-- The sequence waiting on a socket gets the bus, and the one that had it waits (R261). -/
theorem State.resumes_of_find {s : State} {i : Sock} {k : HostTask}
    (h : s.parked.find? (fun q => q.sock == i) = some k) :
    s.resumes i = { s with task := some k, parked := s.parked.filter (fun q => q.sock != i) ++ s.task.toList } := by
  rw [State.resumes, h]

/-- With no sequence waiting on the socket the bus stays where it is (R261). -/
theorem State.resumes_of_absent {s : State} {i : Sock} (h : ∀ k ∈ s.parked, k.sock ≠ i) : s.resumes i = s := by
  rw [State.resumes, List.find?_eq_none.2 (by simpa using h)]

/-- A host in no sequence takes up the one waiting on a socket. -/
theorem State.resumes_of_free {s : State} {i : Sock} {k : HostTask}
    (h : s.parked.find? (fun q => q.sock == i) = some k) (ht : s.task = none) :
    s.resumes i = { s with task := some k, parked := s.parked.filter (fun q => q.sock != i) } := by
  rw [State.resumes_of_find h, ht, Option.toList_none, List.append_nil]

/-- The turn at the head of the list is taken, and its user gets the bus (R261). -/
theorem due_cons {s : State} {t : Turn} {turns : List Turn} (h : s.turns = t :: turns) :
    s.due = State.givesBus t (State.turnTaken turns s) := by
  rw [State.due, h]

/-- A call on a socket where nothing waits begins its sequence. -/
theorem callMove_of_absent {s : State} {c : Call} (rest : List HostItem) (h : ∀ k ∈ s.parked, k.sock ≠ c.sock) :
    callMove c rest s = { s with program := rest, task := some (callStart c) } := by
  have hany : ¬ s.parked.any (fun k => k.sock == c.sock) = true := by simpa using h
  rw [callMove, if_neg hany]
  rfl

/-- A call on a socket where a sequence waits lets that one go on first (U32). -/
theorem callMove_of_find {s : State} {c : Call} {k : HostTask} (rest : List HostItem)
    (h : s.parked.find? (fun q => q.sock == c.sock) = some k) : callMove c rest s = s.resumes c.sock :=
  if_pos (List.any_eq_true.2 ⟨k, List.mem_of_find?_eq_some h, List.find?_some h⟩)

/-- At the end of the program the longest waiting sequence goes on (R261). -/
theorem restMove_of_waiting {s : State} {k : HostTask} {ks : List HostTask} (h : s.parked = k :: ks) (ht : s.task = none) :
    restMove s = { s with task := some k, parked := ks.filter (fun q => q.sock != k.sock) } := by
  have hf : s.parked.find? (fun q => q.sock == k.sock) = some k := by simp [h]
  have hr : restMove s = s.resumes k.sock := by rw [restMove, h]
  rw [hr, State.resumes_of_free hf ht, h, List.filter_cons_of_neg (by simp)]

/-- With nothing left to do only the peer's engine moves (R17). -/
theorem restMove_of_nothing {s : State} (h : s.parked = []) : restMove s = s.peerMoves := by
  rw [restMove, h]

/-- Settles O44, case by case of who has the bus: the engine, a turn of each kind, a call, the end of the program. -/
theorem stepOtherwise : Obligations.StepOtherwise := by
  refine ⟨step_frame, step_idle, due_nil, fun s turns h => due_cons h, fun s turns i h => ⟨fun k hk => ?_, fun hk => ?_⟩,
    fun s c rest h hp => ⟨fun hk => ?_, fun k hk => ?_⟩, fun s k ks h hp hk => ?_, fun s h hp hk => ?_⟩
  · rw [due_cons h]
    exact State.resumes_of_find hk
  · rw [due_cons h]
    exact State.resumes_of_absent hk
  · rw [step_call s c rest h hp, callMove_of_absent rest hk]
  · rw [step_call s c rest h hp, callMove_of_find rest hk, State.resumes_of_free hk h.2]
  · rw [step_programEnd s h hp, restMove_of_waiting hk h.2]
  · rw [step_programEnd s h hp, restMove_of_nothing hk]

end Sys2Proof.Machine
end

section
/-! PROOFS of the invariants (10_state.md R20 to R22, 20_memory.md R64, R66, 60_exceptions.md R261). A step of the machine is
taken apart: each part of it that is the unit's own keeps the unit's invariant and goes on with the trace, and of what is the
host's only the sockets of its sequences matter. -/

namespace Sys2Proof.Machine

/-! ### The part of the state the invariant of the unit is about -/

/-- The state without the host, the port's results, the bytes on the wire, the script and the count of draws. -/
def State.bare (s : State) : State :=
  { s with
    resp := .none, wire := [], env := [], draws := 0
    program := [], task := none, parked := [], turns := [], results := [] }

/-- What the invariant says of the peer's memory alone (R63, R64). -/
def PeerSound (s : State) : Prop := Memory.wf s.pm ∧ (s.peer = .lost → s.pm = [])

/-- The invariant of the frame unit and its peer. -/
def UnitInv (s : State) : Prop := s.EngineInv ∧ s.PeerInv

theorem UnitInv.of_bare {s t : State} (h : UnitInv s) (e : t.bare = s.bare) : UnitInv t :=
  (e ▸ h : UnitInv t.bare)

theorem UnitInv.sound {s : State} (h : UnitInv s) : PeerSound s := ⟨h.2.1, h.2.2.1⟩

/-- A released, idle unit is as the invariant wants it if its peer is. -/
theorem UnitInv.of_idle {s : State} (hp : s.phase = .idle) (hs : s.sel = .released) (h : PeerSound s) : UnitInv s := by
  obtain ⟨he, hq, -⟩ := idle_inv { s with task := none, parked := [] } hp hs h.1 h.2 List.nodup_nil
  exact ⟨he, hq⟩

/-- A frame has a result only when it is over (R21, R148). -/
theorem UnitInv.idle_of_res {s : State} (h : UnitInv s) (hr : s.res ≠ .none) : s.phase = .idle := by
  obtain ⟨⟨-, -, -, hopen⟩, -⟩ := h
  by_contra hp
  exact hr (hopen hp).2

theorem UnitInv.sel_of_idle {s : State} (h : UnitInv s) (hp : s.phase = .idle) : s.sel = .released := by
  obtain ⟨⟨hsel, -⟩, -⟩ := h
  cases hs : s.sel with
  | released => rfl
  | asserted => exact absurd hp (hsel.1 hs)

theorem UnitInv.sel_of_open {s : State} (h : UnitInv s) (hp : s.phase ≠ .idle) : s.sel = .asserted := h.1.1.2 hp

/-! ### One step of the engine -/

/-- Everything a step of the engine is: none, an exchange, or END (R148 to R152). -/
theorem fteStep_cases (s : State) :
    (s.phase = .idle ∧ fteStep s = s) ∨ Exchanging s ∨ (s.phase ≠ .idle ∧ fteStep s = fteEnd s) := by
  cases hp : s.phase with
  | idle => exact .inl ⟨rfl, by simp only [fteStep, hp]⟩
  | hdr => exact .inr (.inl (.inl hp))
  | data =>
    by_cases hi : s.idx.toNat < s.len.toNat
    · exact .inr (.inl (.inr ⟨hp, hi⟩))
    · exact .inr (.inr ⟨by simp, by simp only [fteStep, hp, hi, if_false]⟩)

theorem peerMoves_sound {s : State} (h : PeerSound s) : PeerSound s.peerMoves := by
  obtain ⟨hw, hl⟩ := h
  unfold PeerSound
  rw [State.peerMoves_pm, State.peerMoves_peer]
  by_cases hp : s.peer = .lost
  · rw [if_pos hp]
    exact ⟨hw, hl⟩
  · rw [if_neg hp]
    exact ⟨pokeAll_wf _ _ hw, fun h => absurd h hp⟩

/-! The three ways a successful exchange leaves the engine's position (R149, R150). -/

theorem advance_lastHeader (r : Byte) {s : State} (s1 : State) (hp : s.phase = .hdr) (hi : s.idx = 2) :
    advance r s s1 = State.place .data 0 (State.emit (.x (nextByte s) r) s1) := by
  simp only [advance, hp, hi, if_true]

theorem advance_header (r : Byte) {s : State} (s1 : State) (hp : s.phase = .hdr) (hi : s.idx ≠ 2) :
    advance r s s1 = State.place .hdr (s.idx + 1) (State.emit (.x (nextByte s) r) s1) := by
  simp only [advance, hp, hi, if_false]

theorem advance_data (r : Byte) {s : State} (s1 : State) (hp : s.phase = .data) :
    advance r s s1 = State.holds (if s.dir = .read then s1.rdata ++ [r] else s1.rdata)
      (State.place .data (s.idx + 1) (State.emit (.x (nextByte s) r) s1)) := by
  cases hd : s.dir <;> simp only [advance, hp, hd] <;> rfl

theorem Exchanging.idx_lt {s : State} (h : Exchanging s) (hp : s.phase = .data) : s.idx.toNat < s.len.toNat := by
  obtain h | ⟨-, hlt⟩ := h
  · exact absurd (hp.symm.trans h) nofun
  · exact hlt

theorem Exchanging.not_idle {s : State} (h : Exchanging s) : s.phase ≠ .idle := by
  obtain h | ⟨h, -⟩ := h <;> simp [h]

/-- The peer's invariant in a later state `q` of the frame that is open in `s` (R64). -/
theorem peerInv_of_sound {s q : State} (hq : PeerSound q) (hh : q.hdrb = s.hdrb) (hl : q.len = s.len)
    (htx : q.txLog2 = s.txLog2) (hrx : q.rxLog2 = s.rxLog2)
    (hk : q.phase = .data → q.peer = .reference → peerRefuses s (hdrDec Config.std s.hdrb) s.len.toNat = none) :
    q.PeerInv :=
  ⟨hq.1, hq.2, fun hp hr => by rw [hh, hl, peerRefuses_congr s q _ _ htx hrx, hk hp hr]⟩

/-- A successful exchange keeps the unit's invariant (R149, R150). -/
theorem advance_unitInv {s : State} {r : Byte} (h : UnitInv s) (hx : Exchanging s)
    (hr : (xchg (nextByte s) s).1 = .ok r) : UnitInv (advance r s (xchg (nextByte s) s).2) := by
  obtain ⟨⟨hsel, hhdr, hdata, hopen⟩, hpeer⟩ := h
  obtain ⟨hw, hl, hkeep, hjudge⟩ := xchg_peerInv (nextByte s) s hpeer hx.idx_lt
  obtain ⟨hh, hres⟩ := hopen hx.not_idle
  have hs : s.sel = .asserted := hsel.2 hx.not_idle
  obtain hp | ⟨hp, hi⟩ := hx
  · obtain ⟨hi, hdat⟩ := hhdr hp
    by_cases h2 : s.idx = 2
    · rw [advance_lastHeader r _ hp h2]
      exact ⟨⟨by simp [hs], by simp, by simp [hdat], by simp [hh, hres]⟩,
        peerInv_of_sound ⟨hw, hl⟩ (by simp) (by simp) (by simp) (by simp) fun _ => hjudge r hr ⟨h2, hp⟩⟩
    · have hlt : s.idx.toNat < (2 : Half).toNat := lt_of_le_of_ne hi fun e => h2 (BitVec.eq_of_toNat_eq e)
      have hle : (s.idx + 1).toNat ≤ 2 := (half_succ _ _ hlt).trans_le hlt
      rw [advance_header r _ hp h2]
      exact ⟨⟨by simp [hs], fun _ => ⟨hle, by simpa using hdat⟩, by simp, by simp [hh, hres]⟩, hw, hl, by simp⟩
  · obtain ⟨-, hdat⟩ := hdata hp
    have hle : (s.idx + 1).toNat = s.idx.toNat + 1 := half_succ _ _ hi
    rw [advance_data r _ hp]
    refine ⟨⟨by simp [hs], by simp, fun _ => ⟨hle.le.trans (by simpa using hi), fun hd => ?_⟩, by simp [hh, hres]⟩,
      peerInv_of_sound ⟨hw, hl⟩ (by simp) (by simp) (by simp) (by simp) fun _ => hkeep hp⟩
    have hd : s.dir = .read := by simpa using hd
    exact (by simp [hd, hdat hd] : _ = s.idx.toNat + 1).trans hle.symm

/-- What a successful exchange does outside the registers (R149, R150). -/
theorem advance_bus (r : Byte) (s s1 : State) (hx : Exchanging s) :
    (advance r s s1).trace = s1.trace ++ [.x (nextByte s) r] ∧ (advance r s s1).sel = s1.sel ∧
    (advance r s s1).task = s1.task ∧ (advance r s s1).parked = s1.parked := by
  obtain hp | ⟨hp, -⟩ := hx
  · by_cases hi : s.idx = 2
    · rw [advance_lastHeader r s1 hp hi]
      exact ⟨rfl, rfl, rfl, rfl⟩
    · rw [advance_header r s1 hp hi]
      exact ⟨rfl, rfl, rfl, rfl⟩
  · rw [advance_data r s1 hp]
    exact ⟨rfl, rfl, rfl, rfl⟩

/-- The four ways a step that exchanges a byte ends (R149, R150, R252, R266). -/
theorem fteStep_exchange_cases {s : State} (hx : Exchanging s) :
    (∃ r, (xchg (nextByte s) s).1 = .ok r ∧ fteStep s = advance r s (xchg (nextByte s) s).2) ∨
    (∃ e, fteStep s = raiseBusError (nextByte s) e (xchg (nextByte s) s).2) ∨
    fteStep s = (xchg (nextByte s) s).2 ∨ fteStep s = (xchg (nextByte s) s).2.cut := by
  rw [fteStep_exchange s hx]
  obtain ⟨r | e | _ | _, s1⟩ := xchg (nextByte s) s
  · exact .inl ⟨r, rfl, rfl⟩
  · exact .inr (.inl ⟨e, rfl⟩)
  · exact .inr (.inr (.inl rfl))
  · exact .inr (.inr (.inr rfl))

/-! ### What a part of a step keeps -/

/-- `t` is a state of the machine after `s`: it has the unit's invariant, and what has been added to the trace goes on from
where bus-select stood in `s` to where it stands in `t` (R21, R66). -/
structure Follows (s t : State) : Prop where
  unit : UnitInv t
  bus : ∃ es, t.trace = s.trace ++ es ∧ busAfter (selLevel s.sel) es = some (selLevel t.sel)

/-- A part of a step that is the unit's own: the host stays where it is. -/
structure UnitFollows (s t : State) : Prop extends Follows s t where
  task : t.task = s.task
  parked : t.parked = s.parked

theorem Follows.trans {s t u : State} (h : Follows s t) (g : Follows t u) : Follows s u := by
  obtain ⟨es, htr, hes⟩ := h.bus
  obtain ⟨fs, gtr, gfs⟩ := g.bus
  exact ⟨g.unit, es ++ fs, by rw [gtr, htr, List.append_assoc], by rw [busAfter_append, hes]; exact gfs⟩

theorem Follows.bracketed {s t : State} (h : Follows s t) (hb : s.Bracketed) : t.Bracketed := by
  obtain ⟨es, htr, hes⟩ := h.bus
  show busAfter .free t.trace = _
  rw [htr, busAfter_append, hb]
  exact hes

/-- What only the host, the port, the script or the wire shows is no matter of the unit. -/
theorem Follows.of_bare {s t : State} (h : UnitInv s) (e : t.bare = s.bare) : Follows s t := by
  have htr : t.bare.trace = s.bare.trace := by rw [e]
  have hsel : t.bare.sel = s.bare.sel := by rw [e]
  exact ⟨h.of_bare e, [], htr.trans (List.append_nil _).symm, congrArg (fun l => some (selLevel l)) hsel.symm⟩

theorem UnitFollows.trans {s t u : State} (h : UnitFollows s t) (g : UnitFollows t u) : UnitFollows s u :=
  ⟨h.toFollows.trans g.toFollows, g.task.trans h.task, g.parked.trans h.parked⟩

theorem UnitFollows.refl {s : State} (h : UnitInv s) : UnitFollows s s := ⟨.of_bare h rfl, rfl, rfl⟩

/-- An idle unit stays as it is, whatever else changes at its port and in its peer. -/
theorem UnitFollows.of_idle {s t : State} (h : UnitInv s) (hs : s.phase = .idle) (hp : t.phase = .idle)
    (hsel : t.sel = s.sel) (htr : t.trace = s.trace) (hq : PeerSound t) (htask : t.task = s.task)
    (hparked : t.parked = s.parked) : UnitFollows s t :=
  ⟨⟨.of_idle hp (hsel.trans (h.sel_of_idle hs)) hq, [], by simp [htr], by rw [hsel]; rfl⟩, htask, hparked⟩

theorem raiseBusError_sound (t : Byte) (e : BusErr) {s : State} (h : PeerSound s) : PeerSound (raiseBusError t e s) := by
  unfold PeerSound
  rw [raiseBusError_pm, raiseBusError_peer]
  exact peerMoves_sound h

/-- A step that exchanges a byte, however the exchange ends (R149 to R151). -/
theorem fteStep_follows_exchange {s : State} (h : UnitInv s) (hx : Exchanging s) : UnitFollows s (fteStep s) := by
  have hs : s.sel = .asserted := h.sel_of_open hx.not_idle
  obtain ⟨hw, hl, hkeep, -⟩ := xchg_peerInv (nextByte s) s h.2 hx.idx_lt
  have hsound : PeerSound (xchg (nextByte s) s).2 := ⟨hw, hl⟩
  obtain ⟨r, hr, he⟩ | ⟨e, he⟩ | he | he := fteStep_exchange_cases hx <;> rw [he]
  · obtain ⟨htr, hsel, htask, hparked⟩ := advance_bus r s (xchg (nextByte s) s).2 hx
    exact ⟨⟨advance_unitInv h hx hr, _, by simpa using htr, by simp [hsel, hs, selLevel, busAfter, busNext]⟩,
      by simpa using htask, by simpa using hparked⟩
  · obtain ⟨htr, hsel, hp, -, -, -, -, htask, hparked, -⟩ := raiseBusError_spec (nextByte s) e (xchg (nextByte s) s).2
    exact ⟨⟨.of_idle hp hsel (raiseBusError_sound _ _ hsound), _, by simpa using htr,
      by simp [hsel, hs, selLevel, busAfter, busNext]⟩, by simpa using htask, by simpa using hparked⟩
  · have hpeer := peerInv_of_sound hsound (by simp) (by simp) (by simp) (by simp) fun hp => hkeep (by simpa using hp)
    exact ⟨⟨⟨by simpa [State.EngineInv] using h.1, hpeer⟩, [], by simp, by simp [busAfter]⟩, by simp, by simp⟩
  · exact ⟨⟨.of_idle rfl rfl hsound, [.selR], by simp [hs], by simp [hs, selLevel, busAfter, busNext]⟩, by simp, by simp⟩

/-- Step END, or the reset in its place (R152, R266). -/
theorem fteEnd_follows {s : State} (h : UnitInv s) (hp : s.phase ≠ .idle) : UnitFollows s (fteEnd s) := by
  have hs := h.sel_of_open hp
  have hq := peerMoves_sound h.sound
  obtain ⟨-, he⟩ | ⟨-, rest, -, he⟩ := fteEnd_cases s <;> rw [he]
  · exact ⟨⟨.of_idle rfl rfl hq, [.selR], rfl, by rw [hs]; rfl⟩, rfl, rfl⟩
  · exact ⟨⟨.of_idle rfl rfl hq, [.selR], by simp [hs], by rw [hs]; rfl⟩, rfl, rfl⟩

/-- One step of the engine (R149 to R152). -/
theorem fteStep_follows {s : State} (h : UnitInv s) : UnitFollows s (fteStep s) := by
  obtain ⟨-, he⟩ | hx | ⟨hp, he⟩ := fteStep_cases s
  · rw [he]
    exact .refl h
  · exact fteStep_follows_exchange h hx
  · rw [he]
    exact fteEnd_follows h hp

theorem fteRun_follows (k : Nat) : ∀ {s : State}, UnitInv s → UnitFollows s (fteRun k s) := by
  induction k with
  | zero => exact fun h => .refl h
  | succ k ih =>
    intro s h
    by_cases hp : s.phase = .idle
    · rw [fteRun_idle _ _ hp]
      exact .refl h
    · rw [fteRun_step _ _ hp]
      exact (fteStep_follows h).trans (ih (fteStep_follows h).unit)

/-- Step START (R148). -/
theorem fteStart_follows (d : Dir) (b : Block) (o n : Half) (wd : List Byte) {s : State} (h : UnitInv s)
    (hp : s.phase = .idle) : UnitFollows s (fteStart d b o n wd s) := by
  refine ⟨⟨⟨?_, h.2.1, h.2.2.1, by simp⟩, [.selA], fteStart_trace .., ?_⟩, rfl, rfl⟩
  · simp [State.EngineInv]
  · rw [h.sel_of_idle hp]
    rfl

theorem runFrame_follows (d : Dir) (b : Block) (o n : Half) (wd : List Byte) {s : State} (h : UnitInv s)
    (hp : s.phase = .idle) : UnitFollows s (runFrame d b o n wd s) :=
  (fteStart_follows d b o n wd h hp).trans (fteRun_follows _ (fteStart_follows d b o n wd h hp).unit)

/-! ### Operations of the unit -/

theorem bufferLost_follows (l : Half) (r : Res) {s : State} (h : UnitInv s) (hp : s.phase = .idle) :
    UnitFollows s (bufferLost l r s) := by
  cases hd : s.dir with
  | write =>
    rw [bufferLost_write l r s hd]
    exact .refl h
  | read =>
    rw [bufferLost_read l r s hd]
    exact .of_idle h hp hp rfl rfl h.sound rfl rfl

theorem joinFrames_follows (l : Half) (first : State) {s : State} (h : UnitInv s) :
    UnitFollows s (joinFrames l first s) := by
  unfold joinFrames
  cases hr : s.res with
  | none => exact .refl h
  | ok =>
    have hp := h.idle_of_res (by simp [hr])
    exact .of_idle h hp hp rfl rfl h.sound rfl rfl
  | errBus e => exact bufferLost_follows l _ h (h.idle_of_res (by simp [hr]))

theorem cutBetween_follows {s : State} (h : UnitInv s) (hp : s.phase = .idle) : UnitFollows s s.cutBetween := by
  obtain ⟨⟨-, htask, hparked, -⟩, -, htr, hsel⟩ := cutBetween_common s s (.refl s) (h.sel_of_idle hp)
  exact .of_idle h hp rfl hsel htr (peerMoves_sound h.sound) htask hparked

theorem secondFrame_follows (d : Dir) (b : Block) (l : Half) (c : Split) (wd : List Byte) {s : State} (h : UnitInv s)
    (hp : s.phase = .idle) : UnitFollows s (secondFrame d b l c wd s) := by
  unfold secondFrame
  split
  · exact cutBetween_follows h hp
  · have hrun := runFrame_follows d b 0 c.l1 (wd.drop c.l0.toNat) h hp
    exact hrun.trans (joinFrames_follows l s hrun.unit)

/-- A buffer transfer (R176, R177). -/
theorem splitTransfer_follows (d : Dir) (b : Block) (l : Half) (c : Split) (wd : List Byte) {s : State} (h : UnitInv s)
    (hp : s.phase = .idle) : UnitFollows s (splitTransfer d b l c wd s) := by
  have hrun := runFrame_follows d b c.o0 c.l0 (wd.take c.l0.toNat) h hp
  unfold splitTransfer
  generalize runFrame d b c.o0 c.l0 (wd.take c.l0.toNat) s = first at hrun ⊢
  cases c.two with
  | false => exact hrun
  | true =>
    cases hr : first.res with
    | none => simpa [hr] using hrun
    | ok => simpa [hr] using hrun.trans (secondFrame_follows d b l c wd hrun.unit (hrun.unit.idle_of_res (by simp [hr])))
    | errBus e =>
      simpa [hr] using hrun.trans (bufferLost_follows l (.errBus e) hrun.unit (hrun.unit.idle_of_res (by simp [hr])))

/-! ### The wire classes -/

theorem peerData_sound (f : HdrFields) (k : Nat) (t : Byte) {s : State} (h : PeerSound s) (hk : f.off.toNat + k < 65536) :
    PeerSound (State.peerData f k t s).2 := by
  unfold State.peerData
  split
  · exact h
  · rename_i hr _
    exact ⟨Memory.wf_set _ _ _ h.1 (byteKey_lt _ _ hk), fun hl => absurd (hr.symm.trans hl) nofun⟩
  · exact h

theorem xchgWith_sound {peer : State → Byte × State} (hpeer : ∀ q, PeerSound q → PeerSound (peer q).2) {s : State}
    (h : PeerSound s) : PeerSound (xchgWith peer s).2 := by
  have harr : ∀ reached env, PeerSound (arrives reached peer (State.withEnv env s.peerMoves)) := by
    intro reached env
    cases reached with
    | true => exact hpeer _ (peerMoves_sound h)
    | false => exact peerMoves_sound h
  obtain ⟨reached, env, -, -, ⟨he, -⟩ | ⟨-, he⟩⟩ := xchgWith_cases peer s <;> rw [he]
  · exact harr reached env
  · exact peerMoves_sound (harr reached env)

/-- A frame that stays inside its block keeps the peer's memory canonical, and of a lost peer nothing becomes known (R64). -/
theorem wireFrame_sound (f : HdrFields) (ts : List Byte) : ∀ (k : Nat) {s : State}, PeerSound s →
    f.off.toNat + k + ts.length ≤ 65536 → PeerSound (wireFrame f k ts s).2 := by
  induction ts with
  | nil => exact fun k s h _ => peerMoves_sound h
  | cons t ts ih =>
    intro k s h hk
    rw [List.length_cons] at hk
    have hx := xchgWith_sound (peer := State.peerData f k t) (fun q hq => peerData_sound f k t hq (by omega)) h
    unfold wireFrame
    generalize xchgWith (State.peerData f k t) s = x at hx ⊢
    obtain ⟨r | e | _ | _, s1⟩ := x
    · exact ih (k + 1) hx (by omega)
    · exact peerMoves_sound hx
    · exact peerMoves_sound hx
    · exact peerMoves_sound hx

theorem wireFrame_follows (f : HdrFields) (r : Response) {s : State} (h : UnitInv s) (hp : s.phase = .idle)
    (hk : f.off.toNat + s.wire.length ≤ 65536) :
    UnitFollows s (State.returns r (wireFrame f 0 s.wire s.wireTaken).2) := by
  have hs := wireFrame_sound f s.wire 0 (s := s.wireTaken) h.sound (by omega)
  rw [wireFrame_changes] at hs ⊢
  exact .of_idle h hp hp rfl rfl hs rfl rfl

/-! ### One operation -/

/-- What an operation that answers leaves of `s`: its results, a frame, a buffer transfer, or a frame at the peer. -/
inductive Leaves (s : State) : State → Prop where
  | answer (r : Response) : Leaves s (State.returns r s)
  | frame (d : Dir) (b : Block) (o n : Half) (wd : List Byte) : Leaves s (runFrame d b o n wd s)
  | transfer (d : Dir) (b : Block) (l : Half) (c : Split) (wd : List Byte) : Leaves s (splitTransfer d b l c wd s)
  | wire (f : HdrFields) (r : Response) (hk : f.off.toNat + s.wire.length ≤ 65536) :
      Leaves s (State.returns r (wireFrame f 0 s.wire s.wireTaken).2)

theorem atIdle_next {s t : State} {k : Host.Outcome State Fault Refusal} (h : atIdle s k = .next t) :
    s.phase = .idle ∧ k = .next t := by
  unfold atIdle at h
  cases hp : s.phase <;> rw [hp] at h
  · exact ⟨rfl, h⟩
  · cases h
  · cases h

theorem answer_next {r : Response} {s t : State} (h : answer r s = .next t) : s.phase = .idle ∧ Leaves s t := by
  obtain ⟨hp, h⟩ := atIdle_next h
  cases h
  exact ⟨hp, .answer r⟩

theorem peerRefuses_off {s : State} {f : HdrFields} {n : Nat} (h : peerRefuses s f n = none) : f.off.toNat + n ≤ 65536 := by
  unfold peerRefuses at h
  by_contra hn
  rw [if_pos (by omega : 65536 < f.off.toNat + n)] at h
  split_ifs at h

theorem onFreeBus_next {s t : State} {f : HdrFields} {k : Host.Outcome State Fault Refusal}
    (h : onFreeBus s f k = .next t) : s.phase = .idle ∧ f.off.toNat + s.wire.length ≤ 65536 ∧ k = .next t := by
  unfold onFreeBus at h
  cases hp : s.phase <;> rw [hp] at h
  · cases hr : peerRefuses s f s.wire.length <;> simp only [hr] at h
    · exact ⟨rfl, peerRefuses_off hr, h⟩
    · cases h
  · cases h
  · cases h

theorem peerReadFrame_next {b : Block} {o : Half} {s t : State} (h : peerReadFrame b o s = .next t) :
    s.phase = .idle ∧ Leaves s t := by
  obtain ⟨hp, hk, h⟩ := onFreeBus_next h
  cases h
  exact ⟨hp, .wire (wireHeader b .read o) _ hk⟩

theorem peerWriteFrame_next {b : Block} {o : Half} {s t : State} (h : peerWriteFrame b o s = .next t) :
    s.phase = .idle ∧ Leaves s t := by
  obtain ⟨hp, hk, h⟩ := onFreeBus_next h
  cases h
  exact ⟨hp, .wire (wireHeader b .write o) _ hk⟩

theorem bufferTransfer_next {d : Dir} {b : Block} {p l : Half} {sz : BitVec 4} {wd : List Byte} {s t : State}
    (h : bufferTransfer d b p l sz wd s = .next t) :
    s.phase = .idle ∧ t = splitTransfer d b l (cpSplit p l sz) wd s := by
  obtain ⟨hp, h⟩ := atIdle_next h
  split at h
  · cases h
    exact ⟨hp, rfl⟩
  · cases h

theorem peerRefusal_next {r : Refusal} {s t : State} : peerRefusal r s ≠ .next t := by
  unfold peerRefusal
  split <;> exact nofun

/-- Everything an operation that answers can leave, and it started at IDLE (R146). -/
theorem exec_leaves {i : Instr} {s t : State} (h : exec i s = .next t) : s.phase = .idle ∧ Leaves s t := by
  cases i
  case bsbCommon | bsbSreg | bsbStx | bsbSrx | bsbDec | ctlEnc | ctlDec | hdrEnc | hdrDec | cpWrap | cpAdv | cpUnread | cpFree
      | cpSplit => exact answer_next h
  case roff r | raddr i r =>
    simp only [exec, execRoff, execRaddr] at h
    split at h
    · exact answer_next h
    · exact absurd (atIdle_next h).2 nofun
  case frameParse xs =>
    simp only [exec, execFrameParse] at h
    split at h
    · split at h
      · exact answer_next h
      · exact absurd (atIdle_next h).2 nofun
    · exact answer_next h
  case frameRd b o n =>
    obtain ⟨hp, h⟩ := atIdle_next h
    cases h
    exact ⟨hp, .frame ..⟩
  case frameWr b o n wd =>
    obtain ⟨hp, h⟩ := atIdle_next h
    cases h
    exact ⟨hp, .frame ..⟩
  case cbRd | cbWr =>
    obtain ⟨hp, rfl⟩ := bufferTransfer_next h
    exact ⟨hp, .transfer ..⟩
  case wRdCommon | wRdSreg | wRdStx | wRdSrx => exact peerReadFrame_next h
  case wWrCommon | wWrSreg | wWrStx | wWrSrx => exact peerWriteFrame_next h
  case wRsvBsb | wRsvOm1 | wRsvOm2 | wRsvOm3 => exact absurd h peerRefusal_next

/-- Whatever an operation does, the unit's invariant holds again, and the trace goes on (R21, R66). -/
theorem exec_follows {i : Instr} {s t : State} (hs : UnitInv s) (h : exec i s = .next t) : UnitFollows s t := by
  obtain ⟨hp, hl⟩ := exec_leaves h
  cases hl with
  | answer r => exact .of_idle hs hp hp rfl rfl hs.sound rfl rfl
  | frame d b o n wd => exact runFrame_follows d b o n wd hs hp
  | transfer d b l c wd => exact splitTransfer_follows d b l c wd hs hp
  | wire f r hk => exact wireFrame_follows f r hs hp hk

end Sys2Proof.Machine
end

section
/-! PROOFS of the invariants, continued: the moves of the host (00_scope.md R17, R18, 60_exceptions.md R261, R265, R266) and the
two statements about a step. -/

namespace Sys2Proof.Machine

/-! ### Moves of the host -/

theorem State.HostInv.of_same {s t : State} (h : s.HostInv) (htask : t.task = s.task) (hparked : t.parked = s.parked) :
    t.HostInv := by
  rw [State.HostInv, htask, hparked]
  exact h

theorem State.HostInv.finish {s : State} (h : s.HostInv) (r : HostResult) : (s.finish r).HostInv :=
  h.sublist ((List.sublist_append_right s.task.toList s.parked).map HostTask.sock)

/-- A sequence that goes on stays on its socket (R261). -/
theorem State.HostInv.stands {s : State} {k k' : HostTask} (h : s.HostInv) (hk : s.task = some k) (hs : k'.sock = k.sock) :
    (State.stands k' s).HostInv := by
  rw [State.HostInv, hk] at h
  simpa [State.HostInv, hs] using h

/-- What the host does with the answer to an operation of its sequence is no matter of the unit. -/
theorem taskAfter_bare (k : HostTask) (s : State) : (taskAfter k s).bare = s.bare := by
  unfold taskAfter
  split
  · rfl
  · rfl
  · split
    · split <;> rfl
    all_goals rfl

theorem taskAfter_hostInv {k : HostTask} {s : State} (h : s.HostInv) (hk : s.task = some k) : (taskAfter k s).HostInv := by
  unfold taskAfter
  split
  · exact h
  · exact h
  · split
    · split
      · rename_i hgo
        exact h.stands hk (taskReturn_sock _ _ _ _ hgo)
      · exact h.finish _
    all_goals exact h.finish _

/-- A move of a host that stands in a sequence (R17 (a)). -/
theorem taskMove_follows {k : HostTask} {s t : State} (h : s.Inv) (hk : s.task = some k) (ht : taskMove k s = .next t) :
    Follows s t ∧ t.HostInv := by
  obtain ⟨he, hq, hh⟩ := h
  have hu : UnitInv s := ⟨he, hq⟩
  have hend : ∀ r, Follows s (s.finish r) ∧ (s.finish r).HostInv := fun r => ⟨.of_bare hu rfl, hh.finish r⟩
  unfold taskMove at ht
  split at ht
  · cases ht
    exact hend _
  · split at ht
    · rename_i s1 hx
      cases ht
      have hf := exec_follows hu hx
      exact ⟨hf.toFollows.trans (.of_bare hf.unit (taskAfter_bare k s1)),
        taskAfter_hostInv (hh.of_same hf.task hf.parked) (hf.task.trans hk)⟩
    · split at ht
      · cases ht
        exact hend _
      · cases ht
    · cases ht

theorem State.answered_bare (s : State) : s.answered.bare = s.bare := by
  unfold State.answered
  split <;> rfl

theorem State.answered_task (s : State) : s.answered.task = s.task := by
  unfold State.answered
  split <;> rfl

theorem State.answered_parked (s : State) : s.answered.parked = s.parked := by
  unfold State.answered
  split <;> rfl

/-- The host goes on after an operation of its own that has answered, or that the unit has refused (R18, R243). -/
theorem opAfter_next {s t : State} {o : Host.Outcome State Fault Refusal} (h : opAfter s o = .next t) :
    (∃ s1, o = .next s1 ∧ t = s1.answered) ∨
    ∃ r, t = State.reports (.op (.refused r)) (State.returns (.refused r) s) := by
  unfold opAfter at h
  split at h
  · cases h
    exact .inl ⟨_, rfl, rfl⟩
  · split at h
    · cases h
      exact .inr ⟨_, rfl⟩
    · cases h
  · cases h

theorem opAfter_follows {s t : State} {o : Host.Outcome State Fault Refusal} (h : s.Inv)
    (ho : ∀ s1, o = .next s1 → UnitFollows s s1) (ht : opAfter s o = .next t) : Follows s t ∧ t.HostInv := by
  obtain ⟨he, hq, hh⟩ := h
  obtain ⟨s1, h1, rfl⟩ | ⟨r, rfl⟩ := opAfter_next ht
  · have hf := ho s1 h1
    exact ⟨hf.toFollows.trans (.of_bare hf.unit s1.answered_bare),
      hh.of_same (s1.answered_task.trans hf.task) (s1.answered_parked.trans hf.parked)⟩
  · exact ⟨.of_bare ⟨he, hq⟩ rfl, hh⟩

/-- A packet of the host's program (R89, R92). -/
theorem packetMove_follows {p : Packet} {s t : State} (h : s.Inv) (ht : packetMove p s = .next t) :
    Follows s t ∧ t.HostInv := by
  have hu : UnitInv s := ⟨h.1, h.2.1⟩
  unfold packetMove at ht
  split at ht
  · rename_i i rest _
    refine opAfter_follows h (fun s1 hx => ?_) ht
    have hf := exec_follows (s := State.onWire rest s) hu hx
    exact ⟨(Follows.of_bare (t := State.onWire rest s) hu rfl).trans hf.toFollows, hf.task, hf.parked⟩
  · exact opAfter_follows h (fun s1 hx => by cases hx) ht
  · cases ht
  · refine opAfter_follows h (fun s1 hx => ?_) ht
    cases hx
    exact ⟨.of_bare hu rfl, rfl, rfl⟩

theorem State.resumes_bare (i : Sock) (s : State) : (s.resumes i).bare = s.bare := by
  unfold State.resumes
  split <;> rfl

theorem State.due_bare (s : State) : s.due.bare = s.bare := by
  rw [due_changes]
  rfl

theorem callMove_bare (c : Call) (rest : List HostItem) (s : State) : (callMove c rest s).bare = s.bare := by
  unfold callMove
  split
  · exact s.resumes_bare c.sock
  · rfl

/-- A reset of the unit releases bus-select if it was asserted (R265, R266). -/
theorem fuReset_follows {s : State} (h : UnitInv s) : UnitFollows s (fuReset s) := by
  cases hs : s.sel with
  | released => exact ⟨⟨.of_idle rfl rfl h.sound, [], by simp [hs], by rw [hs]; rfl⟩, rfl, rfl⟩
  | asserted => exact ⟨⟨.of_idle rfl rfl h.sound, [.selR], by simp [hs], by rw [hs]; rfl⟩, rfl, rfl⟩

/-- With its program at its end the host takes up a waiting sequence, or only the peer's engine moves (R17). -/
theorem restMove_follows {s : State} (h : s.Inv) (hp : s.phase = .idle) :
    Follows s (restMove s) ∧ (restMove s).HostInv := by
  obtain ⟨he, hq, hh⟩ := h
  have hu : UnitInv s := ⟨he, hq⟩
  unfold restMove
  split
  · exact ⟨.of_bare hu (s.resumes_bare _), resumes_hostInv _ _ hh⟩
  · exact ⟨(UnitFollows.of_idle (t := s.peerMoves) hu hp hp rfl rfl (peerMoves_sound hu.sound) rfl rfl).toFollows, hh⟩

/-- What the host does on its own (R17 (a)). -/
theorem hostMove_follows {s t : State} (h : s.Inv) (hp : s.phase = .idle) (hk : s.task = none) (ht : hostMove s = .next t) :
    Follows s t ∧ t.HostInv := by
  have hu : UnitInv s := ⟨h.1, h.2.1⟩
  have hgo : ∀ rest, Follows s (State.goesOn rest s) := fun rest => .of_bare hu rfl
  obtain ⟨p, rest, -, he⟩ | ⟨c, rest, -, he⟩ | ⟨rest, -, he⟩ | ⟨-, he⟩ := hostMove_cases s <;> rw [he] at ht
  · obtain ⟨hf, hh⟩ := packetMove_follows (s := State.goesOn rest s) h ht
    exact ⟨(hgo rest).trans hf, hh⟩
  · cases ht
    exact ⟨.of_bare hu (callMove_bare c rest s), callMove_hostInv c rest s h.2.2 hk⟩
  · cases ht
    exact ⟨(hgo rest).trans (fuReset_follows (s := State.goesOn rest s) hu).toFollows, h.2.2⟩
  · cases ht
    exact restMove_follows h hp

theorem State.hostCut_bare (s : State) : s.hostCut.bare = s.bare := by
  unfold State.hostCut
  split <;> rfl

theorem State.HostInv.hostCut {s : State} (h : s.HostInv) : s.hostCut.HostInv := by
  unfold State.hostCut
  split
  · exact h.finish _
  · exact h

/-- A reset item of the program, between operations or in an open frame (R265, R266). -/
theorem resetMove_follows {s : State} (h : s.Inv) : Follows s (resetMove s) ∧ (resetMove s).HostInv := by
  have hf := (fuReset_follows ⟨h.1, h.2.1⟩).toFollows
  unfold resetMove
  split
  · exact ⟨hf, h.2.2⟩
  all_goals
    exact ⟨hf.trans (.of_bare hf.unit (State.hostCut_bare _)), State.HostInv.hostCut h.2.2⟩

/-! ### One step of the machine -/

/-- Whatever a step does, the invariant holds again, and the trace goes on (R21, R66, R261). -/
theorem step_follows {s t : State} (h : s.Inv) (ht : step s = .next t) : Follows s t ∧ t.HostInv := by
  obtain ⟨he, hq, hh⟩ := h
  have hu : UnitInv s := ⟨he, hq⟩
  have hdue : s.due.Inv := ⟨(hu.of_bare s.due_bare).1, (hu.of_bare s.due_bare).2, due_hostInv s hh⟩
  have hfrom : Follows s s.due := .of_bare hu s.due_bare
  obtain ⟨rest, -, e⟩ | ⟨-, e⟩ | ⟨-, k, hk, e⟩ | ⟨hp, hk, e⟩ := step_cases s <;> rw [e] at ht
  · cases ht
    obtain ⟨hf, hh⟩ := resetMove_follows (s := State.goesOn rest s) ⟨he, hq, hh⟩
    exact ⟨(Follows.of_bare (t := State.goesOn rest s) hu rfl).trans hf, hh⟩
  · cases ht
    have hf := fteStep_follows hu
    exact ⟨hf.toFollows, hh.of_same hf.task hf.parked⟩
  · obtain ⟨hf, hh⟩ := taskMove_follows hdue hk ht
    exact ⟨hfrom.trans hf, hh⟩
  · obtain ⟨hf, hh⟩ := hostMove_follows hdue (by simpa using hp) hk ht
    exact ⟨hfrom.trans hf, hh⟩

/-- Settles O48: a step is made of parts each of which keeps the unit's invariant, and the host keeps its sequences on
different sockets. -/
theorem stepKeepsInvariant : Obligations.StepKeepsInvariant := by
  intro s t h ht
  obtain ⟨⟨⟨he, hq⟩, -⟩, hh⟩ := step_follows h ht
  exact ⟨he, hq, hh⟩

/-- Settles O49: what a step adds to the trace goes on from where bus-select stood. -/
theorem stepKeepsBracketed : Obligations.StepKeepsBracketed :=
  fun _ _ h hb ht => (step_follows h ht).1.bracketed hb

end Sys2Proof.Machine
end

section
/-! PROOFS of the statements about frames (10_state.md R22, R35, 42_frame.md R148 to R154, R25): the positions a frame passes
through, what a read samples, what an oracle answers, what every bus operation leaves, and the operations without state. -/

namespace Sys2Proof.Machine

/-! ### Out of reset -/

/-- Settles O46: out of reset the host's program is at its end, and the peer's engine has no move. -/
theorem resetState : Obligations.ResetState :=
  ⟨rfl, rfl, rfl, (step_programEnd State.reset ⟨rfl, rfl⟩ rfl).trans rfl⟩

/-- Settles O47: the idle unit of the reset state has an empty peer memory and no sequence in progress. -/
theorem resetInvariant : Obligations.ResetInvariant :=
  ⟨idle_inv State.reset rfl rfl Memory.wf_nil (fun _ => rfl) List.nodup_nil, rfl, rfl, rfl, rfl, rfl⟩

/-! ### The positions of a frame -/

/-- A step of a frame that nothing stops exchanges one byte, and nothing stops what is left of it (R149, R150). -/
theorem fteStep_unstopped {s : State} {m : Nat} (hp : Placed s) (hd : DataHeld s) (hm : remaining s = m + 1)
    (hs : firstStop s.env (m + 1) = none) :
    Placed (fteStep s) ∧ DataHeld (fteStep s) ∧ remaining (fteStep s) = m ∧ (fteStep s).len = s.len ∧
    firstStop (fteStep s).env m = none := by
  have hx := exchanging_of_remaining s hp (by omega)
  have hc := xchg_changes (nextByte s) s
  have ho := xchgWith_outcome _ (peerSees_peerOnly (nextByte s)) s m
  rw [← xchg, hs] at ho
  rw [fteStep_exchange s hx]
  generalize xchg (nextByte s) s = x at ho hc ⊢
  obtain ⟨r | e | _ | _, s1⟩ := x
  · obtain ⟨hp1, hd1, hm1, -, -, henv, -, -, -, -, hlen, -⟩ := advance_spec r s s1 hp hd hx hc
    exact ⟨hp1, hd1, by simp only; omega, hlen, by rw [henv]; simpa using ho.1.symm⟩
  · exact absurd ho.1 nofun
  · exact absurd ho.1 nofun
  · exact absurd ho.1 nofun

/-- After `j` steps of a frame that nothing stops, `j` bytes fewer are left (R22). -/
theorem fteAfter_unstopped (j : Nat) : ∀ {s : State} {m : Nat}, Placed s → DataHeld s → remaining s = j + m →
    firstStop s.env (j + m) = none →
    Placed (fteAfter j s) ∧ remaining (fteAfter j s) = m ∧ (fteAfter j s).len = s.len := by
  induction j with
  | zero => exact fun {s m} hp _ hm _ => ⟨hp, hm.trans (Nat.zero_add m), rfl⟩
  | succ j ih =>
    intro s m hp hd hm hs
    rw [Nat.succ_add] at hm hs
    obtain ⟨hp1, hd1, hm1, hl1, hs1⟩ := fteStep_unstopped hp hd hm hs
    obtain ⟨hp2, hm2, hl2⟩ := ih hp1 hd1 hm1 hs1
    exact ⟨hp2, hm2, hl2.trans hl1⟩

theorem fteAfter_succ (j : Nat) : ∀ s : State, fteAfter (j + 1) s = fteStep (fteAfter j s) := by
  induction j with
  | zero => exact fun s => rfl
  | succ j ih => exact fun s => ih (fteStep s)

/-- With more bytes left than the frame has data, the engine stands in the header (R22). -/
theorem Placed.header {s : State} (hp : Placed s) (h : s.len.toNat < remaining s) :
    s.phase = .hdr ∧ s.idx.toNat + remaining s = 3 + s.len.toNat := by
  obtain ⟨hp, hi⟩ | ⟨hp, hi⟩ := hp <;> simp only [remaining, hp] at h ⊢
  · exact ⟨trivial, by omega⟩
  · omega

/-- With no more bytes left than the frame has data, the engine stands in the data phase (R22). -/
theorem Placed.data {s : State} (hp : Placed s) (h : remaining s ≤ s.len.toNat) :
    s.phase = .data ∧ s.idx.toNat + remaining s = s.len.toNat := by
  obtain ⟨hp, hi⟩ | ⟨hp, hi⟩ := hp <;> simp only [remaining, hp] at h ⊢
  · omega
  · exact ⟨trivial, by omega⟩

/-- Settles O19: each step of an unstopped frame leaves one byte fewer, and how many are left tells the position. -/
theorem stepPositions : Obligations.StepPositions := by
  intro s d b o n wd hw hs
  have hafter : ∀ j m, j + m = 3 + n.toNat → Placed (fteAfter j (fteStart d b o n wd s)) ∧
      remaining (fteAfter j (fteStart d b o n wd s)) = m ∧ (fteAfter j (fteStart d b o n wd s)).len = n := by
    intro j m hj
    have h := fteAfter_unstopped j (m := m) (fteStart_placed d b o n wd s) (by simpa [DataHeld] using hw)
      (by simp [remaining, hj]) (by rw [hj]; exact hs)
    rwa [fteStart_len] at h
  refine ⟨fun k hk => ?_, fun k hk => ?_, ?_⟩
  · obtain ⟨hp, hm, hl⟩ := hafter k (3 + n.toNat - k) (by omega)
    obtain ⟨hphase, hidx⟩ := hp.header (by rw [hl, hm]; omega)
    exact ⟨hphase, by rw [hl, hm] at hidx; omega⟩
  · obtain ⟨hp, hm, hl⟩ := hafter (3 + k) (n.toNat - k) (by omega)
    obtain ⟨hphase, hidx⟩ := hp.data (by rw [hl, hm]; omega)
    exact ⟨hphase, by rw [hl, hm] at hidx; omega⟩
  · obtain ⟨hp, hm, -⟩ := hafter (3 + n.toNat) 0 rfl
    rw [show 4 + n.toNat = 3 + n.toNat + 1 by omega, fteAfter_succ, fteStep_end _ hp hm]
    exact fteEnd_phase _

/-! ### What a read frame returns -/

/-- A read frame that nothing stops returns one sample of the peer for each data exchange (R35, R154). -/
theorem runFrame_samples {b : Block} {o n : Half} {s : State} (hs : firstStop s.env (3 + n.toNat) = none)
    (hk : PeerTakes s b o n.toNat) :
    (runFrame .read b o n [] s).rdata =
      (List.range n.toNat).map fun k => sampleAt s.env s.pm (3 + k) (byteKey b (o.toNat + k)) := by
  have h := fteRun_samples (3 + n.toNat) (n.toNat + 4) (fteStart .read b o n [] s) (fteStart_placed ..)
    (by simp [remaining]) (by omega) (fteStart_known _ _ _ _ _ _ hk) (by simp [hdrDec_hdrEnc, wireHeader]) rfl hs
  rw [fteStart_baseKey] at h
  simpa [runFrame, dataDone, headerLeft, byteKey, Nat.add_assoc] using h

/-- A frame that nothing stops succeeds, and its result is on the port (R152 to R154). -/
theorem runFrame_unstopped {d : Dir} {b : Block} {o n : Half} {wd : List Byte} {s : State}
    (hw : d = .write → wd.length = n.toNat) (hs : firstStop s.env (3 + n.toNat) = none) :
    (runFrame d b o n wd s).res = .ok ∧ (runFrame d b o n wd s).resp = .frame .ok (runFrame d b o n wd s).rdata := by
  obtain ⟨rs, -, h⟩ := runFrame_frameEnd d b o n wd s hw
  rw [hs] at h
  obtain ⟨-, -, -, hresp, -, hres, -⟩ := h
  exact ⟨hres, hresp⟩

theorem firstStop_quiet {env : List EnvEvent} (h : Quiet env) (n : Nat) : firstStop env n = none := by
  induction env generalizing n with
  | nil => rfl
  | cons ev rest ih =>
    obtain rfl := h ev List.mem_cons_self
    cases n with
    | zero => rfl
    | succ n => simp [firstStop, ih (fun e he => h e (List.mem_cons_of_mem _ he)) n]

/-- Settles O25: an unstopped read samples the peer exchange by exchange; on a quiet bus nothing stops it. -/
theorem readFrameBytes : Obligations.ReadFrameBytes := by
  refine ⟨fun s b o n hp hs hk => ?_, fun s b o n hp hq hk => ?_⟩
  · obtain ⟨hres, hresp⟩ := runFrame_unstopped (d := .read) (b := b) (o := o) (wd := []) nofun hs
    exact ⟨_, exec_frameRd b o n s hp, hres, hresp, runFrame_samples hs hk⟩
  · have hs := firstStop_quiet hq (3 + n.toNat)
    obtain ⟨-, hresp⟩ := runFrame_unstopped (d := .read) (b := b) (o := o) (wd := []) nofun hs
    obtain ⟨-, henv, hres, hpm, hdata⟩ := runFrame_read_quiet b o n s hk hq
    refine ⟨_, exec_frameRd b o n s hp, hres, hpm, henv, hresp, ?_⟩
    simpa [State.peerBytes, byteKey, Nat.add_assoc] using hdata

/-! ### A read that an oracle answers -/

theorem xchg_oracle {t r : Byte} {s : State} {rest : List EnvEvent} (h : s.env = .okWith r :: rest) :
    (xchg t s).1 = .ok r ∧ (xchg t s).2.env = rest := by
  have he : s.peerMoves.env = .okWith r :: rest := by rw [State.peerMoves_env, h]; rfl
  unfold xchg xchgWith
  rw [he]
  exact ⟨rfl, peerSees_env t _⟩

/-- An exchange of the header leaves one fewer of them; the data phase has none (R149). -/
theorem headerLeft_advance (r : Byte) {s : State} (s1 : State) (hp : Placed s) :
    headerLeft s = headerLeft (advance r s s1) + if s.phase = .hdr then 1 else 0 := by
  obtain ⟨hp, hi⟩ | ⟨hp, -⟩ := hp
  · obtain h | h | h := half_cases _ hi <;> simp [headerLeft, advance, hp, h]
  · simp [headerLeft, advance_data r s1 hp, hp]

/-- A read frame whose every exchange an oracle answers returns the oracle's bytes behind the header (R35). -/
theorem fteRun_oracle (rs : List Byte) : ∀ (fuel : Nat) {s : State}, Placed s → s.dir = .read → remaining s = rs.length →
    rs.length < fuel → s.env = rs.map EnvEvent.okWith →
    (fteRun fuel s).res = .ok ∧ (fteRun fuel s).rdata = s.rdata ++ rs.drop (headerLeft s) ∧ (fteRun fuel s).env = [] := by
  induction rs with
  | nil =>
    intro fuel s hp hdir hm hf henv
    obtain ⟨k, rfl⟩ : ∃ k, fuel = k + 1 := ⟨fuel - 1, by omega⟩
    rw [List.map_nil] at henv
    rw [fteRun_step _ _ (placed_not_idle s hp), fteStep_end s hp hm, fteRun_idle _ _ (fteEnd_phase s)]
    obtain ⟨-, he⟩ | ⟨h, -⟩ := fteEnd_cases s
    · rw [he]
      exact ⟨rfl, by simp, by simp [henv, dropPokes]⟩
    · rw [henv] at h
      cases h
  | cons r rs ih =>
    intro fuel s hp hdir hm hf henv
    rw [List.length_cons] at hm hf
    obtain ⟨k, rfl⟩ : ∃ k, fuel = k + 1 := ⟨fuel - 1, by omega⟩
    have hx := exchanging_of_remaining s hp (by omega)
    have hc := xchg_changes (nextByte s) s
    obtain ⟨hr, he⟩ := xchg_oracle (t := nextByte s) henv
    rw [fteRun_step _ _ (placed_not_idle s hp), fteStep_exchange s hx]
    generalize xchg (nextByte s) s = x at hc hr he ⊢
    obtain ⟨o, s1⟩ := x
    obtain rfl : o = .ok r := hr
    obtain ⟨hp1, -, hm1, -, -, henv1, -, -, hdir1, -, -, -, -, -, -, -, -, hdata1, -⟩ :=
      advance_spec r s s1 hp (fun h => by rw [hdir] at h; cases h) hx hc
    obtain ⟨hres, hdata, hend⟩ := ih k hp1 (hdir1.trans hdir) (by omega) (by omega) (henv1.trans he)
    refine ⟨hres, hdata.trans ?_, hend⟩
    rw [hdata1, headerLeft_advance r s1 hp]
    obtain ⟨hp, -⟩ | ⟨hp, -⟩ := hp
    · simp [hp]
    · simp [hp, hdir, headerLeft, advance_data r s1 hp]

/-- Settles O26: the oracle answers the three header exchanges too, so its bytes from the fourth on are the data. -/
theorem oracleAnswers : Obligations.OracleAnswers := by
  intro s b o n rs hp hl henv
  obtain ⟨hres, hdata, hend⟩ := fteRun_oracle rs (n.toNat + 4) (fteStart_placed .read b o n [] s) rfl
    (by simp [remaining, hl]) (by omega) henv
  exact ⟨_, exec_frameRd b o n s hp, hres, hdata.trans (by simp [headerLeft]), hend⟩

/-! ### What a bus operation leaves -/

/-- Settles O28, from what every frame and every buffer transfer leave. -/
theorem busOperationFrame : Obligations.BusOperationFrame := by
  intro i s t hi hw h
  cases i with
  | frameRd b o n =>
    obtain ⟨hp, h⟩ := atIdle_next h
    cases h
    obtain ⟨hs, hend, -, htr⟩ := runFrame_common .read b o n [] s nofun
    exact ⟨hp, hs, htr, hend⟩
  | frameWr b o n wd =>
    obtain ⟨hp, h⟩ := atIdle_next h
    cases h
    have hl : wd.length = n.toNat := by simpa [Instr.wellFormed, n.isLt] using hw
    obtain ⟨hs, hend, -, htr⟩ := runFrame_common .write b o n wd s fun _ => hl
    exact ⟨hp, hs, htr, hend⟩
  | cbRd b p l sz =>
    obtain ⟨hp, rfl⟩ := bufferTransfer_next h
    obtain ⟨hs, hend, htr⟩ := splitTransfer_common .read b l (cpSplit p l sz) [] s nofun nofun
    exact ⟨hp, hs, htr, hend⟩
  | cbWr b p l sz wd =>
    obtain ⟨hp, rfl⟩ := bufferTransfer_next h
    have hl : wd.length = l.toNat := by simpa [Instr.wellFormed, l.isLt] using hw
    obtain ⟨h0, h1, -⟩ := split_lengths p l sz wd hl
    obtain ⟨hs, hend, htr⟩ := splitTransfer_common .write b l (cpSplit p l sz) wd s (fun _ => h0) fun _ => h1
    exact ⟨hp, hs, htr, hend⟩
  | _ => cases hi

/-! ### The operations without state -/

/-- An operation without state: one answer in every state at IDLE, or one refusal of the unit's own (R25, R243). -/
def Stateless (i : Instr) : Prop :=
  (∃ r, Answers i r) ∨ ∃ r, returnedToHost r = true ∧ ∀ s : State, s.phase = .idle → exec i s = .refused r

theorem Answers.stateless {i : Instr} {r : Response} (h : Answers i r) : Stateless i := .inl ⟨r, h⟩

theorem roff_stateless (r : BitVec 4) : Stateless (.roff r) := by
  cases hn : regNameOf r with
  | some name => exact (roff_answers r name hn).stateless
  | none => exact .inr ⟨.badOp, rfl, fun s hs => by simp only [exec, execRoff, hn, atIdle, hs]⟩

theorem raddr_stateless (i : Sock) (r : BitVec 4) : Stateless (.raddr i r) := by
  cases hn : regNameOf r with
  | some name => exact (raddr_answers i r name hn).stateless
  | none => exact .inr ⟨.badOp, rfl, fun s hs => by simp only [exec, execRaddr, hn, atIdle, hs]⟩

theorem frameParse_stateless (xs : List (Byte × Byte)) : Stateless (.frameParse xs) := by
  match xs with
  | x0 :: x1 :: x2 :: xs =>
    by_cases hm : (hdrDec Config.std { h0 := x0.1, h1 := x1.1, h2 := x2.1 }).om = Config.std.omVdm
    · exact (frameParse_answers x0 x1 x2 xs hm).stateless
    · exact .inr ⟨.badMode, rfl, frameParse_badMode x0 x1 x2 xs hm⟩
  | [] => exact (frameParse_short_answers [] (by decide)).stateless
  | [x0] => exact (frameParse_short_answers [x0] (by simp)).stateless
  | [x0, x1] => exact (frameParse_short_answers [x0, x1] (by simp)).stateless

/-- Settles O41, operation by operation. -/
theorem combinationalHaveNoState : Obligations.CombinationalHaveNoState := by
  intro i hi
  show Stateless i
  cases i with
  | bsbCommon => exact (blockOp_answers .common 0).stateless
  | bsbSreg i => exact (blockOp_answers .sreg i).stateless
  | bsbStx i => exact (blockOp_answers .stx i).stateless
  | bsbSrx i => exact (blockOp_answers .srx i).stateless
  | bsbDec b => exact (bsbDec_answers b).stateless
  | roff r => exact roff_stateless r
  | raddr i r => exact raddr_stateless i r
  | ctlEnc b d om => exact (ctlEnc_answers b d om).stateless
  | ctlDec c => exact (ctlDec_answers c).stateless
  | hdrEnc o b d => exact (hdrEnc_answers o b d).stateless
  | hdrDec h => exact (hdrDec_answers h).stateless
  | frameParse xs => exact frameParse_stateless xs
  | cpWrap p sz => exact (cpWrap_answers p sz).stateless
  | cpAdv p n => exact (cpAdv_answers p n).stateless
  | cpUnread wr rd => exact (cpUnread_answers wr rd).stateless
  | cpFree sz wr rd => exact (cpFree_answers sz wr rd).stateless
  | cpSplit p l sz => exact (cpSplit_answers p l sz).stateless
  | _ => cases hi

/-! ### A lost peer -/

/-- The reference peer takes a wire class that stays inside its block (R64, R92). -/
theorem wireOp_taken {s : State} {r : Region} {i : Sock} {off : Half} (d : Dir) (hr : r = .common → i = 0)
    (hl : off.toNat + s.wire.length ≤ blockLimit s (blockOf i r)) :
    peerRefuses s (wireHeader (blockOf i r) d off) s.wire.length = none := by
  refine (peerRefuses_none s _ d off _).2 ⟨blockAssigned_blockOf i r ?_, hl⟩
  by_cases h : r = .common
  · exact .inr (hr h)
  · exact .inl h

/-- A wire class on a lost peer changes nothing but the wire, the script and the count of draws (log entries 3, 6, 26). -/
theorem wireFrame_lost_changes (f : HdrFields) {s : State} (hl : s.peer = .lost) :
    (wireFrame f 0 s.wire s.wireTaken).2 = { s with
      wire := [], env := (wireFrame f 0 s.wire s.wireTaken).2.env, draws := s.draws + reachedCount s.env s.wire.length } := by
  obtain ⟨hpeer, hpm, hdraws, -⟩ := wireFrame_lost f s.wire 0 s.wireTaken hl
  rw [State.wireTaken_draws, State.wireTaken_env] at hdraws
  have hc := wireFrame_changes f s.wire 0 s.wireTaken
  rw [hpeer, hpm, hdraws] at hc
  rw [hc, ← hl]
  rfl

theorem exec_wireWrite_taken {s : State} {r : Region} {i : Sock} {off : Half} (hr : r = .common → i = 0)
    (hp : s.phase = .idle) (hl : off.toNat + s.wire.length ≤ blockLimit s (blockOf i r)) :
    exec (wireOp r .write i off) s =
      .next (State.returns .peerWrote (wireFrame (wireHeader (blockOf i r) .write off) 0 s.wire s.wireTaken).2) := by
  rw [exec_wireWrite r i off hr]
  simp only [peerWriteFrame, onFreeBus, hp, wireOp_taken .write hr hl]

theorem exec_wireRead_taken {s : State} {r : Region} {i : Sock} {off : Half} (hr : r = .common → i = 0)
    (hp : s.phase = .idle) (hl : off.toNat + s.wire.length ≤ blockLimit s (blockOf i r)) :
    exec (wireOp r .read i off) s =
      .next (State.returns (.peerRead (wireFrame (wireHeader (blockOf i r) .read off) 0 s.wire s.wireTaken).1)
        (wireFrame (wireHeader (blockOf i r) .read off) 0 s.wire s.wireTaken).2) := by
  rw [exec_wireRead r i off hr]
  simp only [peerReadFrame, onFreeBus, hp, wireOp_taken .read hr hl]

/-- Settles O39, from what each exchange with a lost peer does. -/
theorem wireOnLostPeer : Obligations.WireOnLostPeer := by
  intro s r i off hr hp hl hk
  refine ⟨⟨_, exec_wireWrite_taken hr hp hk, ?_⟩, _,
    (wireFrame (wireHeader (blockOf i r) .read off) 0 s.wire s.wireTaken).1, exec_wireRead_taken hr hp hk, ?_, ?_, ?_⟩
  · rw [wireFrame_lost_changes _ hl]
    rfl
  · exact wireFrame_length (wireHeader (blockOf i r) .read off) s.wire 0 s.wireTaken
  · rw [wireFrame_lost_changes _ hl]
    rfl
  · obtain ⟨-, -, -, hdata⟩ := wireFrame_lost (wireHeader (blockOf i r) .read off) s.wire 0 s.wireTaken hl
    exact hdata

end Sys2Proof.Machine
end

section
/-! PROOFS of the statements about the peer's memory (20_memory.md R54, R63, R64, 42_frame.md R157, R169): what a frame stores
in a peer that gives it a meaning, what a frame without a meaning does to the peer, and that a wire class does to the peer what
the unit's own frame does. -/

namespace Sys2Proof.Machine

/-! ### The peer's refusals -/

/-- The block a wire class names is assigned (R92). -/
theorem wireBlock_assigned {r : Region} {i : Sock} (hr : r = .common → i = 0) : blockAssigned (blockOf i r) = true :=
  blockAssigned_blockOf i r (Decidable.not_or_of_imp hr)

theorem peerRefuses_pastBlock {s : State} {b : Block} (d : Dir) {o : Half} {n : Nat} (ha : blockAssigned b = true)
    (h : 65536 < o.toNat + n) : peerRefuses s (wireHeader b d o) n = some .peerPastBlock := by
  simp [peerRefuses, wireHeader, ha, h]

theorem peerRefuses_pastBuffer {s : State} {b : Block} (d : Dir) {o : Half} {n : Nat} (ha : blockAssigned b = true)
    (hle : o.toNat + n ≤ 65536) (h : blockLimit s b < o.toNat + n) :
    peerRefuses s (wireHeader b d o) n = some .peerPastBuffer := by
  simp [peerRefuses, wireHeader, ha, Nat.not_lt.2 hle, h]

/-- A wire class that the reference peer refuses is the step's refusal, with the peer's reason (R64). -/
theorem exec_wireOp_refused {s : State} {r : Region} {d : Dir} {i : Sock} {off : Half} {reason : Refusal}
    (hr : r = .common → i = 0) (hp : s.phase = .idle)
    (h : peerRefuses s (wireHeader (blockOf i r) d off) s.wire.length = some reason) :
    exec (wireOp r d i off) s = .refused reason := by
  cases d with
  | read => rw [exec_wireRead r i off hr]; simp only [peerReadFrame, onFreeBus, hp, h]
  | write => rw [exec_wireWrite r i off hr]; simp only [peerWriteFrame, onFreeBus, hp, h]

theorem peerRefusal_idle (r : Refusal) {s : State} (hp : s.phase = .idle) : peerRefusal r s = .refused r := by
  simp only [peerRefusal, hp]

/-- Settles O38: the reserved classes are refused by name, the others by where their last byte would be. -/
theorem wireRefusals : Obligations.WireRefusals := by
  refine fun s hp => ⟨fun _ _ _ => peerRefusal_idle _ hp, fun _ _ _ => peerRefusal_idle _ hp,
    fun _ _ _ => peerRefusal_idle _ hp, fun _ _ _ => peerRefusal_idle _ hp,
    fun r d i off hr => ⟨fun h => ?_, fun hle h => ?_⟩⟩
  · exact exec_wireOp_refused hr hp (peerRefuses_pastBlock d (wireBlock_assigned hr) h)
  · exact exec_wireOp_refused hr hp (peerRefuses_pastBuffer d (wireBlock_assigned hr) hle h)

/-! ### A frame that the peer gives a meaning -/

/-- The peer's engine changes finitely many bytes, so some byte it leaves alone. -/
theorem exists_not_poked (env : List EnvEvent) : ∃ a, a ∉ pokedKeys env := by
  obtain ⟨a, ha⟩ := Infinite.exists_notMem_finset (pokedKeys env).toFinset
  exact ⟨a, by simpa using ha⟩

/-- Settles O23: the header exchanges store nothing, so the data bytes that reached the peer are three fewer than all. -/
theorem writeFrameMemory : Obligations.WriteFrameMemory := by
  intro s b o n wd hp hw hk
  have hget := fun a ha => fteRun_write_get (3 + n.toNat) (n.toNat + 4) (fteStart .write b o n wd s) (fteStart_placed ..)
    (by simpa [DataHeld] using hw) (by simp [remaining]) (by omega) (fteStart_known _ _ _ _ _ _ hk)
    (by simp [hdrDec_hdrEnc, wireHeader]) rfl a ha
  obtain ⟨a0, ha0⟩ := exists_not_poked s.env
  refine ⟨_, exec_frameWr b o n wd s hp, (hget a0 ha0).2, fun a ha => ?_⟩
  have h := (hget a ha).1
  rw [fteStart_baseKey] at h
  simpa [runFrame, dataDone, headerLeft] using h

/-- Settles O24: no exchange of a read frame stores a byte. -/
theorem readFrameMemory : Obligations.ReadFrameMemory := by
  intro s b o n hp hk
  have hget := fun a ha => fteRun_read_get (3 + n.toNat) (n.toNat + 4) (fteStart .read b o n [] s) (fteStart_placed ..)
    (fun h => by cases h) (by simp [remaining]) (by omega) (fteStart_known _ _ _ _ _ _ hk)
    (by simp [hdrDec_hdrEnc, wireHeader]) a ha
  obtain ⟨a0, ha0⟩ := exists_not_poked s.env
  exact ⟨_, exec_frameRd b o n s hp, (hget a0 ha0).2, fun a ha => (hget a ha).1⟩

/-! ### What the peer shows behind an exchange -/

/-- The engine's move behind a successful exchange leaves the peer as the exchange left it (R149, R150). -/
theorem advance_peer (r : Byte) {s : State} (s1 : State) (hx : Exchanging s) :
    (advance r s s1).peer = s1.peer ∧ (advance r s s1).pm = s1.pm ∧ (advance r s s1).env = s1.env := by
  obtain hp | ⟨hp, -⟩ := hx
  · by_cases hi : s.idx = 2
    · rw [advance_lastHeader r s1 hp hi]
      exact ⟨rfl, rfl, rfl⟩
    · rw [advance_header r s1 hp hi]
      exact ⟨rfl, rfl, rfl⟩
  · rw [advance_data r s1 hp]
    exact ⟨rfl, rfl, rfl⟩

/-- The exception takes the script up to the next outcome of an exchange, for its release (R151). -/
theorem raiseBusError_env (t : Byte) (e : BusErr) (s : State) : (raiseBusError t e s).env = dropPokes s.env := by
  unfold raiseBusError
  cases s.dir <;> rfl

/-! ### A lost peer stays lost -/

/-- The peer is lost, and no byte of it is known (R64; log entry 6). -/
def Lost (s : State) : Prop := s.peer = .lost ∧ s.pm = []

theorem peerMoves_lost {s : State} (h : Lost s) : Lost s.peerMoves := ⟨h.1, by simp [h.1, h.2]⟩

theorem losePeer_lost (s : State) : Lost s.losePeer := ⟨rfl, rfl⟩

theorem peerSees_lost (t : Byte) {s : State} (h : Lost s) : Lost (s.peerSees t).2 := by
  obtain ⟨hl, hm⟩ := h
  unfold State.peerSees State.peerData State.peerJudges
  cases s.phase with
  | idle => exact ⟨hl, hm⟩
  | hdr =>
    simp only []
    split
    · split
      · exact ⟨hl, hm⟩
      · exact losePeer_lost _
    · exact ⟨hl, hm⟩
  | data => simp only [hl]; exact ⟨hl, hm⟩

theorem xchg_lost (t : Byte) {s : State} (h : Lost s) : Lost (xchg t s).2 := by
  have harr : ∀ reached env, Lost (arrives reached (State.peerSees t) (State.withEnv env s.peerMoves)) := by
    intro reached env
    cases reached with
    | true => exact peerSees_lost t (peerMoves_lost h)
    | false => exact peerMoves_lost h
  obtain ⟨reached, env, -, -, ⟨he, -⟩ | ⟨-, he⟩⟩ := xchgWith_cases (State.peerSees t) s <;> rw [xchg, he]
  · exact harr reached env
  · exact peerMoves_lost (harr reached env)

/-- What a step does behind its exchange finds nothing of a lost peer. -/
theorem fteStep_lost_of_xchg {s : State} (hx : Exchanging s) (h : Lost (xchg (nextByte s) s).2) : Lost (fteStep s) := by
  obtain ⟨r, -, he⟩ | ⟨e, he⟩ | he | he := fteStep_exchange_cases hx <;> rw [he]
  · obtain ⟨hpeer, hpm, -⟩ := advance_peer r (xchg (nextByte s) s).2 hx
    exact ⟨hpeer.trans h.1, hpm.trans h.2⟩
  · exact ⟨by simp [h.1], by simp [h.1, h.2]⟩
  · exact h
  · exact h

theorem fteStep_lost {s : State} (h : Lost s) : Lost (fteStep s) := by
  obtain ⟨-, he⟩ | hx | ⟨-, he⟩ := fteStep_cases s
  · exact he.symm ▸ h
  · exact fteStep_lost_of_xchg hx (xchg_lost _ h)
  · rw [he]
    obtain ⟨-, he⟩ | ⟨-, rest, -, he⟩ := fteEnd_cases s <;> rw [he] <;> exact peerMoves_lost h

theorem fteRun_lost (k : Nat) : ∀ {s : State}, Lost s → Lost (fteRun k s) := by
  induction k with
  | zero => exact fun h => h
  | succ k ih =>
    intro s h
    by_cases hp : s.phase = .idle
    · exact (fteRun_idle _ _ hp).symm ▸ h
    · exact (fteRun_step k s hp).symm ▸ ih (fteStep_lost h)

/-! ### A peer that keeps its meaning -/

/-- From `s` to `t` the peer keeps its meaning and every byte of it that its engine leaves alone, and the script names no new
byte for the engine (R63, R68). -/
def PeerKept (s t : State) : Prop :=
  t.peer = .reference ∧ ∀ a, a ∉ pokedKeys s.env → a ∉ pokedKeys t.env ∧ Memory.get t.pm a = Memory.get s.pm a

theorem PeerKept.trans {s t u : State} (h : PeerKept s t) (g : PeerKept t u) : PeerKept s u :=
  ⟨g.1, fun a ha => ⟨(g.2 a (h.2 a ha).1).1, (g.2 a (h.2 a ha).1).2.trans (h.2 a ha).2⟩⟩

theorem PeerKept.of_eq {s t : State} (hr : s.peer = .reference) (hpeer : t.peer = s.peer) (hpm : t.pm = s.pm)
    (henv : t.env = s.env) : PeerKept s t :=
  ⟨hpeer.trans hr, fun a ha => ⟨henv ▸ ha, by rw [hpm]⟩⟩

/-- What comes of the peer where only its engine moves (R68). -/
theorem PeerKept.of_moves {s t : State} (hr : s.peer = .reference) (hpeer : t.peer = s.peer)
    (hpm : t.pm = pokeAll s.env s.pm) (henv : t.env = dropPokes s.env) : PeerKept s t :=
  ⟨hpeer.trans hr, fun a ha => ⟨henv ▸ dropPokes_pokedKeys _ a ha, by rw [hpm, pokeAll_get _ _ ha]⟩⟩

/-- An exchange keeps the peer where its byte, if it arrives, does (R157). -/
theorem xchg_kept {t : Byte} {s : State} (hr : s.peer = .reference)
    (hsee : reachedCount s.env 1 = 1 → ∀ q : State, q.phase = s.phase → q.idx = s.idx → q.peer = .reference →
      PeerKept q (q.peerSees t).2) : PeerKept s (xchg t s).2 := by
  have hmoves : ∀ env, (∀ a, a ∉ pokedKeys s.env → a ∉ pokedKeys env) →
      PeerKept s (State.withEnv env s.peerMoves) :=
    fun env henv => ⟨hr, fun a ha => ⟨henv a ha, by simp [hr, pokeAll_get _ _ ha]⟩⟩
  obtain ⟨reached, env, hcount, henv, hcases⟩ := xchgWith_cases (State.peerSees t) s
  have harr : PeerKept s (arrives reached (State.peerSees t) (State.withEnv env s.peerMoves)) := by
    cases reached with
    | true => exact (hmoves env henv).trans (hsee hcount _ rfl rfl hr)
    | false => exact hmoves env henv
  obtain ⟨he, -⟩ | ⟨-, he⟩ := hcases <;> rw [xchg, he]
  · exact harr
  · exact harr.trans ⟨harr.1, fun a ha => ⟨tail_pokedKeys _ a (dropPokes_pokedKeys _ a ha), by
      simp [harr.1, pokeAll_get _ _ ha]⟩⟩

/-- What a step does behind its exchange stores nothing in the peer. -/
theorem fteStep_kept_of_xchg {s : State} (hx : Exchanging s) (h : PeerKept s (xchg (nextByte s) s).2) :
    PeerKept s (fteStep s) := by
  obtain ⟨r, -, he⟩ | ⟨e, he⟩ | he | he := fteStep_exchange_cases hx <;> rw [he]
  · obtain ⟨hpeer, hpm, henv⟩ := advance_peer r (xchg (nextByte s) s).2 hx
    exact h.trans (.of_eq h.1 hpeer hpm henv)
  · exact h.trans (.of_moves h.1 (by simp) (by simp [h.1]) (raiseBusError_env ..))
  · exact h
  · exact h.trans (.of_eq h.1 rfl rfl rfl)

/-! ### A frame that the peer gives no meaning -/

/-- The peer still has a meaning, but gives the open frame none (R64). -/
def Doomed (s : State) : Prop :=
  s.peer = .reference ∧ peerRefuses s (hdrDec Config.std s.hdrb) s.len.toNat ≠ none

theorem Doomed.of_eq {s t : State} (h : Doomed s) (hr : t.peer = .reference) (hh : t.hdrb = s.hdrb) (hl : t.len = s.len)
    (htx : t.txLog2 = s.txLog2) (hrx : t.rxLog2 = s.rxLog2) : Doomed t :=
  ⟨hr, by rw [hh, hl, peerRefuses_congr s t _ _ htx hrx]; exact h.2⟩

/-- A header byte before the last tells the peer nothing (R63, R64). -/
theorem peerSees_header_kept (t : Byte) {s : State} (hr : s.peer = .reference) (hp : s.phase = .hdr) (hi : s.idx ≠ 2) :
    PeerKept s (s.peerSees t).2 := by
  have he : (s.peerSees t).2 = s.drawn 1 := by simp only [State.peerSees, hp, hi, if_false]
  rw [he]
  exact .of_eq hr rfl rfl rfl

/-- With the last byte of the header the peer has a frame without a meaning (R64; log entry 6). -/
theorem peerSees_lastHeader_lost (t : Byte) {s : State} (hd : Doomed s) (hp : s.phase = .hdr) (hi : s.idx = 2) :
    Lost (s.peerSees t).2 := by
  have hdrawn : Doomed (s.drawn 1) := hd.of_eq hd.1 rfl rfl rfl rfl
  have he : (s.peerSees t).2 = (s.drawn 1).losePeer := by
    simp only [State.peerSees, hp, hi, if_true, State.peerJudges]
    exact if_neg hdrawn.2
  rw [he]
  exact losePeer_lost _

/-- The exchange of the last header byte of a frame without a meaning loses the peer, if the byte arrives (R64, R157). -/
theorem xchg_lastHeader_lost (t : Byte) {s : State} (hd : Doomed s) (hp : s.phase = .hdr) (hi : s.idx = 2)
    (h1 : reachedCount s.env 1 = 1) : Lost (xchg t s).2 := by
  obtain ⟨reached, env, hcount, -, hcases⟩ := xchgWith_cases (State.peerSees t) s
  obtain rfl : reached = true := by
    cases reached with
    | true => rfl
    | false => simp [h1] at hcount
  have hlost : Lost (arrives true (State.peerSees t) (State.withEnv env s.peerMoves)) :=
    peerSees_lastHeader_lost t (hd.of_eq hd.1 rfl rfl rfl rfl) hp hi
  obtain ⟨he, -⟩ | ⟨-, he⟩ := hcases <;> rw [xchg, he]
  · exact hlost
  · exact peerMoves_lost hlost

/-- A frame that an exchange has stopped does not go on (R151, R252, R266). -/
theorem fteRun_stopped (k : Nat) {s : State} (hx : Exchanging s) (h : ∀ r, (xchg (nextByte s) s).1 ≠ .ok r) :
    fteRun k (fteStep s) = fteStep s := by
  have ho := xchgWith_outcome _ (peerSees_peerOnly (nextByte s)) s 0
  have hc := xchg_changes (nextByte s) s
  rw [← xchg] at ho
  rw [fteStep_exchange s hx]
  generalize xchg (nextByte s) s = x at h ho hc ⊢
  obtain ⟨r | e | _ | _, s1⟩ := x
  · exact absurd rfl (h r)
  · exact fteRun_idle _ _ (raiseBusError_spec _ _ _).2.2.1
  · obtain ⟨-, -, -, rest, henv, hn⟩ := ho
    have hx1 : Exchanging s1 := by
      simp only at hc
      rw [hc]
      exact hx
    exact fteRun_fixed _ _ (fteStep_hung s1 rest hx1 henv hn)
  · exact fteRun_idle _ _ rfl

theorem fteStep_of_ok {s : State} {r : Byte} (hx : Exchanging s) (h : (xchg (nextByte s) s).1 = .ok r) :
    fteStep s = advance r s (xchg (nextByte s) s).2 := by
  rw [fteStep_exchange s hx]
  generalize xchg (nextByte s) s = x at h ⊢
  obtain ⟨o, s1⟩ := x
  obtain rfl : o = .ok r := h
  rfl

/-- How many of the next bytes reach the peer: one more than from the next exchange on if this one succeeds, at most its own if
it does not (R157, R248). -/
theorem xchg_reached (t : Byte) (s : State) (n : Nat) :
    (∃ r, (xchg t s).1 = .ok r ∧ reachedCount s.env 1 = 1 ∧
      reachedCount s.env (n + 1) = reachedCount (xchg t s).2.env n + 1) ∨
    ((∀ r, (xchg t s).1 ≠ .ok r) ∧ reachedCount s.env (n + 1) = reachedCount s.env 1) := by
  have ho := xchgWith_outcome _ (peerSees_peerOnly t) s n
  rw [← xchg] at ho
  generalize xchg t s = x at ho ⊢
  obtain ⟨r | e | _ | _, s1⟩ := x
  · exact .inl ⟨r, rfl, ho.2.2⟩
  · exact .inr ⟨nofun, ho.2.2⟩
  · exact .inr ⟨nofun, ho.2.2.1⟩
  · exact .inr ⟨nofun, ho.2.2⟩

/-- A frame without a meaning, `m + 1` header bytes of which are still to come: once they have all reached the peer it is lost,
and if they do not it is kept (R64, R153; log entry 6). -/
theorem fteRun_doomed (k m : Nat) : ∀ {s : State}, Doomed s → s.phase = .hdr → s.idx.toNat + m = 2 →
    (reachedCount s.env (m + 1) = m + 1 → Lost (fteRun (k + m + 1) s)) ∧
    (reachedCount s.env (m + 1) < m + 1 → PeerKept s (fteRun (k + m + 1) s)) := by
  induction m with
  | zero =>
    intro s hd hp hi
    have hx : Exchanging s := .inl hp
    have hi2 : s.idx = 2 := BitVec.eq_of_toNat_eq hi
    rw [fteRun_step _ _ hx.not_idle]
    refine ⟨fun h => fteRun_lost _ (fteStep_lost_of_xchg hx (xchg_lastHeader_lost _ hd hp hi2 h)), fun h => ?_⟩
    have hne : reachedCount s.env 1 ≠ 1 := h.ne
    obtain ⟨r, -, h1, -⟩ | ⟨hstop, -⟩ := xchg_reached (nextByte s) s 0
    · exact absurd h1 hne
    · rw [fteRun_stopped _ hx hstop]
      exact fteStep_kept_of_xchg hx (xchg_kept hd.1 fun h1 => absurd h1 hne)
  | succ m ih =>
    intro s hd hp hi
    have hx : Exchanging s := .inl hp
    have hi2 : s.idx ≠ 2 := fun e => by rw [e] at hi; simp at hi
    have hkept : PeerKept s (xchg (nextByte s) s).2 := xchg_kept hd.1 fun _ q hqp hqi hqr =>
      peerSees_header_kept _ hqr (hqp.trans hp) (hqi ▸ hi2)
    have hstep := fteStep_kept_of_xchg hx hkept
    rw [fteRun_step _ _ hx.not_idle]
    obtain ⟨r, hok, h1, hn⟩ | ⟨hstop, hn⟩ := xchg_reached (nextByte s) s (m + 1)
    · have he := (fteStep_of_ok hx hok).trans (advance_header r _ hp hi2)
      have hidx : (s.idx + 1).toNat = s.idx.toNat + 1 := half_succ s.idx 2 (show s.idx.toNat < 2 by omega)
      have hd1 : Doomed (fteStep s) :=
        hd.of_eq hstep.1 (by simp [he]) (by simp [he]) (by simp [he]) (by simp [he])
      obtain ⟨hlost, hkeep⟩ := ih hd1 (by simp [he]) (by rw [he, State.place_idx]; omega)
      rw [show (fteStep s).env = (xchg (nextByte s) s).2.env by rw [he]; rfl] at hlost hkeep
      exact ⟨fun h => hlost (by omega), fun h => hstep.trans (hkeep (by omega))⟩
    · rw [fteRun_stopped _ hx hstop]
      have := reachedCount_le s.env 1
      exact ⟨fun h => by omega, fun _ => hstep⟩

theorem fteStart_doomed {d : Dir} {b : Block} {o n : Half} (wd : List Byte) {s : State} (hr : s.peer = .reference)
    (hk : ¬ PeerTakes s b o n.toNat) : Doomed (fteStart d b o n wd s) := by
  refine ⟨hr, ?_⟩
  simp only [fteStart_hdrb, fteStart_len, hdrDec_hdrEnc]
  rw [peerRefuses_congr s (fteStart d b o n wd s) _ _ rfl rfl]
  exact fun h => hk ⟨hr, (peerRefuses_none s b d o n.toNat).1 h⟩

/-- A whole frame that the peer gives no meaning (R64, R153; log entry 6). -/
theorem runFrame_doomed (d : Dir) {b : Block} {o n : Half} (wd : List Byte) {s : State} (hr : s.peer = .reference)
    (hk : ¬ PeerTakes s b o n.toNat) :
    (reachedCount s.env 3 = 3 → Lost (runFrame d b o n wd s)) ∧
    (reachedCount s.env 3 < 3 → PeerKept s (runFrame d b o n wd s)) :=
  fteRun_doomed (n.toNat + 1) 2 (fteStart_doomed wd hr hk) rfl rfl

/-- Settles O27: the peer is lost with the third header byte, and not before. -/
theorem refusedFrameLosesPeer : Obligations.RefusedFrameLosesPeer := by
  intro s b o n wd d hp _ hr hk
  refine ⟨_, exec_frameOp d b o n wd s hp, (runFrame_doomed d _ hr hk).1, fun h => ?_⟩
  obtain ⟨hpeer, hget⟩ := (runFrame_doomed d _ hr hk).2 h
  exact ⟨hpeer, fun a ha => (hget a ha).2⟩

/-! ### The two sides of a frame -/

theorem peerTakes_onWire {s : State} {b : Block} {o : Half} {n : Nat} (wd : List Byte) (hw : wd.length = n)
    (hk : PeerTakes s b o n) : o.toNat + (s.onWire wd).wire.length ≤ blockLimit (s.onWire wd) b := by
  subst hw
  exact hk.2.2

theorem blockSock_of_assigned {b : Block} (h : blockAssigned b = true) (hc : blockRegion b = .common) : blockSock b = 0 := by
  simpa [blockAssigned, hc] using h

/-- Settles O40: on a quiet bus both sides store the data at, or read, the same ascending keys. -/
theorem wireAgreesWithFrames : Obligations.WireAgreesWithFrames := by
  intro s b o n wd d hp hq hw hk
  have hr : blockRegion b = .common → blockSock b = 0 := blockSock_of_assigned hk.2.1
  have hl := peerTakes_onWire wd hw hk
  obtain ⟨hwr, hrd⟩ := wireFrame_quiet (wireHeader b d o) wd 0 (s.onWire wd).wireTaken hk.1 hq
  have hdec := decodeRest_enc (blockRegion b) (blockSock b) d o hr wd
  rw [blockOf_fields] at hdec
  cases d with
  | read =>
    have hex := exec_wireRead_taken (s := s.onWire wd) hr hp (by rw [blockOf_fields]; exact hl)
    rw [blockOf_fields] at hex
    obtain ⟨hpm, hdata⟩ := hrd rfl
    obtain ⟨-, -, -, hfpm, hfdata⟩ := runFrame_read_quiet b o n s hk hq
    refine ⟨_, _, _, _, hdrEnc_answers o b .read, hdec, exec_frameOp .read b o n wd s hp, hex, hfpm.trans hpm.symm,
      fun _ => ?_, nofun⟩
    rw [hfdata, ← hw]
    exact congrArg Response.peerRead hdata
  | write =>
    have hex := exec_wireWrite_taken (s := s.onWire wd) hr hp (by rw [blockOf_fields]; exact hl)
    rw [blockOf_fields] at hex
    obtain ⟨-, -, -, hfpm⟩ := runFrame_write_quiet b o n wd s hw hk hq
    exact ⟨_, _, _, _, hdrEnc_answers o b .write, hdec, exec_frameOp .write b o n wd s hp, hex, hfpm.trans (hwr rfl).symm,
      nofun, fun _ => rfl⟩

end Sys2Proof.Machine
end

section
/-! PROOFS. The statements of 30_encoding.md: the encoding of an operation and its decoding are inverse to each other on
the command port (R89, R90) and on the wire (R81, R92); the register name codes (R91, R118). -/

namespace Sys2Proof.Machine

/-! ### The command port -/

theorem wellFormed_frameWr {b : Block} {o n : Half} {wd : List Byte} :
    (Instr.frameWr b o n wd).wellFormed = true ↔ wd.length = n.toNat := by
  simp [Instr.wellFormed, n.isLt]

theorem wellFormed_cbWr {b : Block} {p l : Half} {sz : BitVec 4} {wd : List Byte} :
    (Instr.cbWr b p l sz wd).wellFormed = true ↔ wd.length = l.toNat := by
  simp [Instr.wellFormed, l.isLt]

theorem decodeCmd_frameRd (x : Operands) : decodeCmd 0x10 x = .ok (.frameRd x.b x.o x.n) := by
  simp [decodeCmd]

theorem decodeCmd_cbRd (x : Operands) : decodeCmd 0x1D x = .ok (.cbRd x.b x.p x.l x.szlog2) := by
  simp [decodeCmd]

theorem decodeCmd_frameWr {x : Operands} (h : x.wdata.length = x.n.toNat) :
    decodeCmd 0x11 x = .ok (.frameWr x.b x.o x.n x.wdata) := by
  simp [decodeCmd, h]

theorem decodeCmd_cbWr {x : Operands} (h : x.wdata.length = x.l.toNat) :
    decodeCmd 0x1E x = .ok (.cbWr x.b x.p x.l x.szlog2 x.wdata) := by
  simp [decodeCmd, h]

theorem decode_cmd {k : BitVec 5} {x : Operands} {i : Instr} (h : decodeCmd k x = .ok i) :
    decode (.cmd k x) = .ok i := by
  simp [decode, decodeRest, h, Except.map]

/-- What the command port selects is well formed: the two writes by the length check, the others always. -/
theorem decodeCmd_wellFormed {k : BitVec 5} {x : Operands} {i : Instr} (h : decodeCmd k x = .ok i) :
    i.wellFormed = true := by
  unfold decodeCmd at h
  split at h
  case h_13 => -- FRAME.WR
    split at h
    case isTrue hl => cases h; exact wellFormed_frameWr.2 hl
    case isFalse => cases h
  case h_21 => -- CB.WR
    split at h
    case isTrue hl => cases h; exact wellFormed_cbWr.2 hl
    case isFalse => cases h
  case h_22 => cases h -- a code that selects nothing (R93)
  all_goals
    cases h
    simp only [Instr.wellFormed, countFits_half]

/-! ### The wire header -/

/-- Three bytes built from fields are a header with these fields (R81, R82). -/
theorem hdrDec_fields (off : Half) (b : Block) (d : Dir) (om : BitVec 2) :
    hdrDec Config.std { h0 := hi8 off, h1 := lo8 off, h2 := ctlEnc Config.std b d om } =
      { off := off, bsb := b, dir := d, om := om } := by
  simp only [hdrDec, ctlDec_ctlEnc, be16_hi8_lo8]

section
variable {h : Header} {off : Half} {b : Block} {d : Dir} {om : BitVec 2}

/-- No bit of a header is outside its fields (R81). -/
theorem header_of_fields (hf : hdrDec Config.std h = { off := off, bsb := b, dir := d, om := om }) :
    h = { h0 := hi8 off, h1 := lo8 off, h2 := ctlEnc Config.std b d om } := by
  cases hf
  rw [hi8_be16, lo8_be16, ctlEnc_ctlDec]

theorem wireBytes_of_fields (hf : hdrDec Config.std h = { off := off, bsb := b, dir := d, om := om }) :
    wireBytes off b d om = .wire (headerBytes h) := by
  rw [header_of_fields hf]
  rfl

/-! The class of a header by its fields (R92), an equation per case. -/

theorem wireInstr_om1 (hf : hdrDec Config.std h = { off := off, bsb := b, dir := d, om := 1 }) :
    wireInstr h = .wRsvOm1 b d off := by
  simp [wireInstr, wireClass, hf]

theorem wireInstr_om2 (hf : hdrDec Config.std h = { off := off, bsb := b, dir := d, om := 2 }) :
    wireInstr h = .wRsvOm2 b d off := by
  simp [wireInstr, wireClass, hf]

theorem wireInstr_om3 (hf : hdrDec Config.std h = { off := off, bsb := b, dir := d, om := 3 }) :
    wireInstr h = .wRsvOm3 b d off := by
  simp [wireInstr, wireClass, hf]

theorem wireInstr_unassigned {i : Sock}
    (hf : hdrDec Config.std h = { off := off, bsb := blockOf i .common, dir := d, om := 0 }) (hi : i ≠ 0) :
    wireInstr h = .wRsvBsb i d off := by
  cases d <;> simp [wireInstr, wireClass, hf, blockRegion_blockOf, blockSock_blockOf, show i ≠ 0#3 from hi]

theorem wireInstr_assigned {r : Region} {i : Sock}
    (hf : hdrDec Config.std h = { off := off, bsb := blockOf i r, dir := d, om := 0 }) (hr : r = .common → i = 0) :
    wireInstr h = wireOp r d i off := by
  rw [header_of_fields hf]
  exact wireInstr_enc r i d off hr

/-- A packet of three bytes is decoded by its fields alone. -/
theorem decode_wireBytes {i : Instr}
    (hi : ∀ h, hdrDec Config.std h = { off := off, bsb := b, dir := d, om := om } → wireInstr h = i) :
    decode (wireBytes off b d om) = .ok i :=
  congrArg Except.ok (hi _ (hdrDec_fields off b d om))

theorem encode_wireOp {r : Region} {i : Sock} (hr : r = .common → i = 0) :
    encode (wireOp r d i off) = wireBytes off (blockOf i r) d 0 := by
  cases r
  case common => rw [hr rfl]; cases d <;> rfl
  all_goals cases d <;> rfl

theorem wireOp_wellFormed (r : Region) (d : Dir) (i : Sock) (off : Half) : (wireOp r d i off).wellFormed = true := by
  cases r <;> cases d <;> rfl

theorem lengthMode_cases : ∀ om : BitVec 2, om = 0 ∨ om = 1 ∨ om = 2 ∨ om = 3 := by decide

/-- The class of a header is well formed and encodes its fields: by the length mode, then by whether the source assigns
the block (R92). -/
theorem wireInstr_encodes (hf : hdrDec Config.std h = { off := off, bsb := b, dir := d, om := om }) :
    (wireInstr h).wellFormed = true ∧ encode (wireInstr h) = wireBytes off b d om := by
  obtain rfl | rfl | rfl | rfl := lengthMode_cases om
  · rw [← blockOf_fields b] at hf ⊢
    by_cases hr : blockRegion b = .common → blockSock b = 0
    · rw [wireInstr_assigned hf hr]
      exact ⟨wireOp_wellFormed .., encode_wireOp hr⟩
    · obtain ⟨hc, hs⟩ := Classical.not_imp.1 hr
      rw [hc] at hf ⊢
      rw [wireInstr_unassigned hf hs]
      exact ⟨bne_iff_ne.2 hs, rfl⟩
  · rw [wireInstr_om1 hf]; exact ⟨rfl, rfl⟩
  · rw [wireInstr_om2 hf]; exact ⟨rfl, rfl⟩
  · rw [wireInstr_om3 hf]; exact ⟨rfl, rfl⟩

end

theorem wireInstr_wellFormed (h : Header) : (wireInstr h).wellFormed = true := (wireInstr_encodes rfl).1

theorem encode_wireInstr (h : Header) : encode (wireInstr h) = .wire (headerBytes h) :=
  (wireInstr_encodes rfl).2.trans (wireBytes_of_fields rfl)

theorem decode_encode_wireOp (r : Region) (d : Dir) (i : Sock) (off : Half) (hr : r = .common → i = 0) :
    decode (encode (wireOp r d i off)) = .ok (wireOp r d i off) := by
  rw [encode_wireOp hr]
  exact decode_wireBytes fun _ hf => wireInstr_assigned hf hr

theorem decodeRest_wellFormed {p : Packet} {i : Instr} {bytes : List Byte} (h : decodeRest p = .ok (i, bytes)) :
    i.wellFormed = true := by
  match p with
  | .cmd k x =>
    rw [decodeRest] at h
    cases hc : decodeCmd k x with
    | ok j =>
      rw [hc] at h
      cases h
      exact decodeCmd_wellFormed hc
    | error e =>
      rw [hc] at h
      cases h
  | .wire (h0 :: h1 :: h2 :: rest) =>
    cases h
    exact wireInstr_wellFormed _
  | .wire [] | .wire [_] | .wire [_, _] => cases h

/-- Settles O51, operation by operation: the command port's by their codes, the wire classes by their fields. -/
theorem decodeEncode : Obligations.DecodeEncode := by
  intro i hi
  cases i with
  | frameRd b o n => exact decode_cmd (decodeCmd_frameRd _)
  | cbRd b p l sz => exact decode_cmd (decodeCmd_cbRd _)
  | frameWr b o n wd => exact decode_cmd (decodeCmd_frameWr (wellFormed_frameWr.1 hi))
  | cbWr b p l sz wd => exact decode_cmd (decodeCmd_cbWr (wellFormed_cbWr.1 hi))
  | wRdCommon off => exact decode_encode_wireOp .common .read 0 off fun _ => rfl
  | wWrCommon off => exact decode_encode_wireOp .common .write 0 off fun _ => rfl
  | wRdSreg i off => exact decode_encode_wireOp .sreg .read i off nofun
  | wWrSreg i off => exact decode_encode_wireOp .sreg .write i off nofun
  | wRdStx i off => exact decode_encode_wireOp .stx .read i off nofun
  | wWrStx i off => exact decode_encode_wireOp .stx .write i off nofun
  | wRdSrx i off => exact decode_encode_wireOp .srx .read i off nofun
  | wWrSrx i off => exact decode_encode_wireOp .srx .write i off nofun
  | wRsvBsb i d off => exact decode_wireBytes fun _ hf => wireInstr_unassigned hf (bne_iff_ne.1 hi)
  | wRsvOm1 b d off => exact decode_wireBytes fun _ => wireInstr_om1
  | wRsvOm2 b d off => exact decode_wireBytes fun _ => wireInstr_om2
  | wRsvOm3 b d off => exact decode_wireBytes fun _ => wireInstr_om3
  | _ => exact decode_cmd rfl

/-- Settles O52: the class of a header encodes its three bytes, and what decodes is well formed. -/
theorem wireWordsDecode : Obligations.WireWordsDecode :=
  ⟨fun h => ⟨wireInstr h, rfl, encode_wireInstr h⟩, fun _ _ _ => decodeRest_wellFormed⟩

/-! ### Register name codes -/

theorem regNameOf_eq_regNames : ∀ r : BitVec 4, regNameOf r = regNames[r.toNat]? := by decide

theorem regNameOf_none {r : BitVec 4} (h : 12 ≤ r.toNat) : regNameOf r = none := by
  rw [regNameOf_eq_regNames]
  exact List.getElem?_eq_none h

theorem blockOf_sreg_ofNat (i : Sock) : blockOf i .sreg = BitVec.ofNat 5 (4 * i.toNat + 1) := by
  apply BitVec.eq_of_toNat_eq
  have := i.isLt
  rw [blockOf_toNat, BitVec.toNat_ofNat, Nat.mod_eq_of_lt (by omega)]
  rfl

theorem roff_refused {r : BitVec 4} {s : State} (hr : regNameOf r = none) (hs : s.phase = .idle) :
    exec (.roff r) s = .refused .badOp := by
  simp only [exec, execRoff, hr, atIdle, hs]

theorem raddr_refused {r : BitVec 4} {s : State} (i : Sock) (hr : regNameOf r = none) (hs : s.phase = .idle) :
    exec (.raddr i r) s = .refused .badOp := by
  simp only [exec, execRaddr, hr, atIdle, hs]

/-- Settles O4: the decoder's names are R91's list, and a code past its end has none. -/
theorem registerAddressFormed : Obligations.RegisterAddressFormed := by
  refine ⟨fun _ => rfl, fun _ => rfl, fun r name hn => ?_, fun r hr s hs => ?_⟩
  · rw [← regNameOf_eq_regNames] at hn
    refine ⟨roff_answers r name hn, fun i => ?_⟩
    rw [← blockOf_sreg_ofNat]
    exact raddr_answers i r name hn
  · have hn := regNameOf_none hr
    exact ⟨roff_refused hn hs, fun i => raddr_refused i hn hs⟩

end Sys2Proof.Machine
end

section
/-! PROOFS. The statements of 40_address.md: the block-select mux in numbers (R110 to R114), its decoder (R115), and the laws
of the two together (R116). -/

namespace Sys2Proof.Machine

/-! ### The fields of a block-select in numbers -/

theorem blockOf_ofNat (i : Sock) (r : Region) : blockOf i r = BitVec.ofNat 5 (4 * i.toNat + (regionCode r).toNat) := by
  rw [← blockOf_toNat, BitVec.ofNat_toNat, BitVec.setWidth_eq]

theorem regionCode_eq_zero_iff (r : Region) : (regionCode r).toNat = 0 ↔ r = .common := by
  cases r <;> decide

theorem toNat_eq_fields (b : Block) : b.toNat = 4 * (blockSock b).toNat + (regionCode (blockRegion b)).toNat := by
  rw [← blockOf_toNat, blockOf_fields]

theorem regionCode_blockRegion (b : Block) : (regionCode (blockRegion b)).toNat = b.toNat % 4 := by
  have hb := toNat_eq_fields b
  have hr := (regionCode (blockRegion b)).isLt
  omega

theorem blockSock_toNat (b : Block) : (blockSock b).toNat = b.toNat / 4 := by
  have hb := toNat_eq_fields b
  have hr := (regionCode (blockRegion b)).isLt
  omega

theorem blockSock_ofNat (b : Block) : blockSock b = BitVec.ofNat 3 (b.toNat / 4) := by
  rw [← blockSock_toNat, BitVec.ofNat_toNat, BitVec.setWidth_eq]

theorem blockAssigned_eq_decide (b : Block) : blockAssigned b = decide (b.toNat % 4 ≠ 0 ∨ b.toNat / 4 = 0) := by
  rw [Bool.eq_iff_iff, decide_eq_true_iff, ← regionCode_blockRegion, ← blockSock_toNat, ne_eq, regionCode_eq_zero_iff]
  simp [blockAssigned, BitVec.toNat_eq]

/-- The seven values the source does not assign have region 0 and a socket other than 0 (R94, R116 (c)). -/
theorem toNat_notMem_of_blockAssigned {b : Block} (h : blockAssigned b = true) :
    b.toNat ∉ [4, 8, 12, 16, 20, 24, 28] := by
  rw [blockAssigned_eq_decide, decide_eq_true_iff] at h
  simp only [List.mem_cons, List.not_mem_nil, or_false]
  omega

/-! ### The block-select mux -/

/-- A region with blocks of its own for each socket: 4*i and the region's code (R112 to R114). -/
theorem blockOp_answers_ofNat {r : Region} (i : Sock) (hr : r ≠ .common) :
    Answers (blockOp r i) (.block (BitVec.ofNat 5 (4 * i.toNat + (regionCode r).toNat))) := by
  have h := blockOp_answers r i
  rwa [if_neg hr, blockOf_ofNat] at h

theorem blockOf_inj {i i' : Sock} {r r' : Region} (h : blockOf i r = blockOf i' r') : i = i' ∧ r = r' :=
  ⟨by rw [← blockSock_blockOf i r, h, blockSock_blockOf], by rw [← blockRegion_blockOf i r, h, blockRegion_blockOf]⟩

/-- BSB.COMMON has no operand (R111), so the operation of a region is the one of the socket index it puts out. -/
theorem blockOp_sock (r : Region) (i : Sock) : blockOp r (if r = .common then 0 else i) = blockOp r i := by
  cases r <;> rfl

theorem blockOf_muxSock_assigned (r : Region) (i : Sock) :
    blockAssigned (blockOf (if r = .common then 0 else i) r) = true :=
  wireBlock_assigned fun hr => if_pos hr

/-- R116 (a): the mux is disjoint. -/
theorem blockOp_answers_eq_iff {r r' : Region} {i i' : Sock} {b b' : Block} (h : Answers (blockOp r i) (.block b))
    (h' : Answers (blockOp r' i') (.block b')) : b = b' ↔ blockOp r i = blockOp r' i' := by
  refine ⟨fun hb => ?_, fun ho => ?_⟩
  · have hm := Response.block.inj (h.unique (blockOp_answers r i))
    have hm' := Response.block.inj (h'.unique (blockOp_answers r' i'))
    obtain ⟨hi, hr⟩ := blockOf_inj (hm.symm.trans (hb.trans hm'))
    rw [← blockOp_sock r i, ← blockOp_sock r' i', hi, hr]
  · exact Response.block.inj (h.unique (ho ▸ h'))

/-- Settles O3: what the mux puts out is an assigned block-select, and its two fields tell the operation. -/
theorem blockSelectMuxLaws : Obligations.BlockSelectMuxLaws := by
  intro r r' i i'
  have h := blockOp_answers r i
  have h' := blockOp_answers r' i'
  have ha := blockOf_muxSock_assigned r i
  refine ⟨_, _, h, h', blockOp_answers_eq_iff h h', BitVec.isLt _, toNat_notMem_of_blockAssigned ha, ?_⟩
  have hd := bsbDec_answers (blockOf (if r = .common then 0 else i) r)
  rwa [blockRegion_blockOf, blockSock_blockOf, ha] at hd

/-- Settles O1: the decoder's first four codes, and the value each of their operations puts out. -/
theorem blockSelectValues : Obligations.BlockSelectValues :=
  ⟨fun _ => rfl, fun _ => rfl, fun _ => rfl, fun _ => rfl, blockOp_answers .common 0,
    fun i => blockOp_answers_ofNat i (r := .sreg) nofun, fun i => blockOp_answers_ofNat i (r := .stx) nofun,
    fun i => blockOp_answers_ofNat i (r := .srx) nofun⟩

/-- Settles O2: the region is that of b mod 4, and the other two fields are read off the same number. -/
theorem blockSelectDecoded : Obligations.BlockSelectDecoded := by
  refine ⟨fun _ => rfl, fun b => ⟨blockRegion b, regionCode_blockRegion b, ?_⟩⟩
  have hd := bsbDec_answers b
  rwa [blockSock_ofNat, blockAssigned_eq_decide] at hd

end Sys2Proof.Machine
end

section
/-! PROOFS. The statements of 41_header.md: the header in numbers (R134, R135) and the laws of its codec (R136). -/

namespace Sys2Proof.Machine

/-! ### The offset bytes in numbers -/

theorem hi8_ofNat (v : Half) : hi8 v = BitVec.ofNat 8 (v.toNat / 256) := by
  rw [← hi8_toNat, BitVec.ofNat_toNat, BitVec.setWidth_eq]

theorem lo8_ofNat (v : Half) : lo8 v = BitVec.ofNat 8 (v.toNat % 256) := by
  rw [← lo8_toNat, BitVec.ofNat_toNat, BitVec.setWidth_eq]

theorem be16_ofNat (h l : Byte) : be16 h l = BitVec.ofNat 16 (h.toNat * 256 + l.toNat) := by
  rw [← be16_toNat, BitVec.ofNat_toNat, BitVec.setWidth_eq]

/-! ### The image of HDR.ENC -/

section
variable {o o' : Half} {b b' : Block} {d d' : Dir} {h : Header}

theorem hdrEnc_inj (he : hdrEnc Config.std o b d = hdrEnc Config.std o' b' d') : o = o' ∧ b = b' ∧ d = d' := by
  have hf : wireHeader b d o = wireHeader b' d' o' := by rw [← hdrDec_hdrEnc, he, hdrDec_hdrEnc]
  exact ⟨congrArg HdrFields.off hf, congrArg HdrFields.bsb hf, congrArg HdrFields.dir hf⟩

/-- A header in variable-length mode is the one HDR.ENC forms of its other fields: no bit is outside the fields. -/
theorem hdrEnc_hdrDec (hm : (hdrDec Config.std h).om = Config.std.omVdm) :
    hdrEnc Config.std (hdrDec Config.std h).off (hdrDec Config.std h).bsb (hdrDec Config.std h).dir = h := by
  rw [hdrEnc, ← hm]
  exact (header_of_fields rfl).symm

theorem hdrEnc_answers_iff : Answers (.hdrEnc o b d) (.header h) ↔ hdrEnc Config.std o b d = h :=
  ⟨fun ha => Response.header.inj ((hdrEnc_answers o b d).unique ha), fun he => he ▸ hdrEnc_answers o b d⟩

/-- R136 (c): the image of HDR.ENC. -/
theorem hdrEnc_image : (∃ o b d, Answers (.hdrEnc o b d) (.header h)) ↔
    ∃ f, Answers (.hdrDec h) (.headerFields f) ∧ f.om = Config.std.omVdm := by
  constructor
  · rintro ⟨o, b, d, ha⟩
    obtain rfl := hdrEnc_answers_iff.1 ha
    exact ⟨_, hdrDec_answers _, by rw [hdrDec_hdrEnc, wireHeader]⟩
  · rintro ⟨f, ha, hm⟩
    obtain rfl := Response.headerFields.inj ((hdrDec_answers h).unique ha)
    exact ⟨_, _, _, hdrEnc_answers_iff.2 (hdrEnc_hdrDec hm)⟩

end

/-- Settles O8: the two halves of each codec are inverse to each other, and a frame latches what HDR.ENC gives. -/
theorem codecLaws : Obligations.CodecLaws := by
  refine ⟨fun b d om => ⟨_, ctlEnc_answers b d om, ?_⟩, fun c => ⟨_, ctlDec_answers c, ?_⟩,
    fun o b d => ⟨_, hdrEnc_answers o b d, ?_⟩, fun o o' b b' d d' h ha ha' => ?_, fun h => hdrEnc_image,
    fun d b o n n' wd wd' s s' => ?_⟩
  · rw [← ctlDec_ctlEnc]
    exact ctlDec_answers _
  · have hc := ctlEnc_answers (ctlDec Config.std c).bsb (ctlDec Config.std c).dir (ctlDec Config.std c).om
    rwa [ctlEnc_ctlDec] at hc
  · have hf := hdrDec_answers (hdrEnc Config.std o b d)
    rwa [hdrDec_hdrEnc] at hf
  · exact hdrEnc_inj ((hdrEnc_answers_iff.1 ha).trans (hdrEnc_answers_iff.1 ha').symm)
  · rw [fteStart_hdrb, fteStart_hdrb]

/-- Settles O7: the decoder's two codes, and the offset's two bytes as the quotient and the remainder by 256. -/
theorem headerCodec : Obligations.HeaderCodec := by
  refine ⟨fun _ => rfl, fun _ => rfl, fun o b d => ⟨_, ctlEnc_answers b d _, ?_⟩, fun h => ⟨_, ctlDec_answers h.h2, ?_⟩⟩
  · rw [← hi8_ofNat, ← lo8_ofNat]
    exact hdrEnc_answers o b d
  · rw [← be16_ofNat]
    exact hdrDec_answers h

end Sys2Proof.Machine
end

section
/-! PROOFS. The statements of 42_frame.md about the engine's steps (R146 to R152): START, HEADER, DATA, FAIL and END, one after
another, and that the machine presents no operation inside an open frame. -/

namespace Sys2Proof.Machine

/-! ### Step START -/

/-- START in one record: everything that R148 assigns, and the port's buffers (log entry 40). -/
theorem fteStart_eq (d : Dir) (b : Block) (o n : Half) (wd : List Byte) (s : State) :
    fteStart d b o n wd s =
      { s with
        dir := d, bsb := b, off := o, len := n, hdrb := hdrEnc Config.std o b d, res := .none, sel := .asserted
        phase := .hdr, idx := 0, wdata := wd, rdata := [], trace := s.trace ++ [.selA] } := by
  rw [fteStart, count_std]
  rfl

/-- Settles O14: a frame is START's record and then the engine's own steps. -/
theorem frameStart : Obligations.FrameStart := by
  intro s b o n wd hp d
  refine ⟨_, hdrEnc_answers o b d, (exec_frameOp d b o n wd s hp).trans ?_⟩
  exact congrArg Host.Outcome.next (congrArg (fteRun (n.toNat + 4)) (fteStart_eq ..))

/-! ### Step HEADER -/

theorem headerByte_eq_getD {h : Header} {k : Half} (hk : k.toNat ≤ 2) : headerByte h k = (headerBytes h).getD k.toNat 0 := by
  obtain rfl | rfl | rfl := half_cases k hk <;> rfl

/-- Where a header exchange that succeeds takes the engine: after the third one to the data phase (R149). -/
theorem advance_header_eq (r : Byte) {s : State} (s1 : State) (hp : s.phase = .hdr) :
    advance r s s1 =
      { s1 with
        trace := s1.trace ++ [.x (nextByte s) r]
        phase := if s.idx = 2 then .data else .hdr
        idx := if s.idx = 2 then 0 else s.idx + 1 } := by
  by_cases hi : s.idx = 2
  · rw [advance_lastHeader r s1 hp hi, if_pos hi, if_pos hi]
    rfl
  · rw [advance_header r s1 hp hi, if_neg hi, if_neg hi]
    rfl

/-- Settles O15: the step is the exchange of the next header byte, whose four outcomes are the statement's cases. -/
theorem stepHeader : Obligations.StepHeader := by
  intro s hn hp hi
  have hbyte : nextByte s = (headerBytes s.hdrb).getD s.idx.toNat 0 := by
    simp only [nextByte, hp, headerByte_eq_getD hi]
  rw [step_frame s hn (by simp [hp]), fteStep_exchange s (.inl hp), ← hbyte]
  obtain ⟨r | e | _ | _, s1⟩ := xchg (nextByte s) s
  · exact congrArg Host.Outcome.next (advance_header_eq r s1 hp)
  all_goals rfl

/-! ### Step DATA -/

theorem nextByte_data {s : State} (hp : s.phase = .data) (hi : s.idx.toNat < s.len.toNat)
    (hw : s.dir = .write → s.wdata.length = s.len.toNat) :
    nextByte s = match s.dir with | .write => s.wdata.getD s.idx.toNat 0 | .read => Config.std.dummy := by
  simp only [nextByte, hp, dataByte]
  cases hd : s.dir with
  | read => rfl
  | write =>
    have hlt : s.idx.toNat < s.wdata.length := by rw [hw hd]; exact hi
    simp [hlt]

/-- Settles O16: the step is the exchange of the next data byte, and only a read keeps the response. -/
theorem stepData : Obligations.StepData := by
  intro s hn hp hi hw _
  refine ⟨nextByte s, (nextByte_data hp hi hw).trans (by cases s.dir <;> rfl), ?_⟩
  have hphase : (xchg (nextByte s) s).2.phase = .data := (xchg_phase _ s).trans hp
  have hrdata := xchg_rdata (nextByte s) s
  rw [step_frame s hn (by simp [hp]), fteStep_exchange s (.inr ⟨hp, hi⟩)]
  generalize xchg (nextByte s) s = x at hphase hrdata ⊢
  obtain ⟨r | e | _ | _, s1⟩ := x
  · refine ⟨_, rfl, ?_, fun hd => ?_, fun hd => ?_⟩ <;> simp only [advance_data r s1 hp]
    · rw [← hphase]
      rfl
    · simpa [hd] using hrdata
    · simpa [hd] using hrdata
  all_goals rfl

/-! ### Step FAIL -/

/-- The registers of the open frame and the write data stay what they were (log entry 39). -/
theorem raiseBusError_registers (t : Byte) (e : BusErr) (s : State) :
    (raiseBusError t e s).idx = s.idx ∧ (raiseBusError t e s).dir = s.dir ∧ (raiseBusError t e s).bsb = s.bsb ∧
    (raiseBusError t e s).off = s.off ∧ (raiseBusError t e s).len = s.len ∧ (raiseBusError t e s).hdrb = s.hdrb ∧
    (raiseBusError t e s).wdata = s.wdata := by
  unfold raiseBusError
  cases hd : s.dir <;> simp [hd]

/-- The peer's engine moving leaves alone every byte it does not name, whether the peer is lost or not (R35, R68). -/
theorem peerMoves_get {s : State} {a : Nat} (ha : a ∉ pokedKeys s.env) :
    Memory.get s.peerMoves.pm a = Memory.get s.pm a := by
  rw [State.peerMoves_pm]
  split
  · rfl
  · exact pokeAll_get _ a ha _

/-- Settles O17: the release lets the peer's engine move, and nothing else of the peer or outside changes. -/
theorem stepFail : Obligations.StepFail := by
  intro t e s
  obtain ⟨htrace, hsel, hphase, hres, -, -, hout⟩ := raiseBusError_spec t e s
  obtain ⟨hidx, hdir, hbsb, hoff, hlen, hhdrb, hwdata⟩ := raiseBusError_registers t e s
  refine ⟨_, rfl, htrace, hsel, hphase, hres, raiseBusError_resp t e s, hidx, hdir, hbsb, hoff, hlen, hhdrb, hwdata, hout,
    raiseBusError_peer t e s, fun a ha => ?_⟩
  rw [raiseBusError_pm]
  exact peerMoves_get ha

/-! ### Step END -/

/-- Settles O18: END runs, or the script has a reset in its place. -/
theorem stepEnd : Obligations.StepEnd := by
  intro s hn hp hi
  have hplaced : Placed s := .inr ⟨hp, by rw [hi]⟩
  have hstep : step s = .next (fteEnd s) := by
    rw [step_frame s hn (by simp [hp]), fteStep_end s hplaced (by simp [remaining, hp, hi])]
  rw [hstep]
  obtain ⟨hs, he⟩ | ⟨hs, rest, -, he⟩ := fteEnd_cases s <;> rw [he, hs]
  · exact ⟨fun _ => ⟨_, rfl, rfl, rfl, rfl, rfl, rfl, rfl, rfl, rfl, rfl, rfl, rfl, rfl, rfl, by simp [SameOutside],
      fun a ha => peerMoves_get ha⟩, fun h => absurd rfl h⟩
  · exact ⟨nofun, fun _ => ⟨rest, rfl⟩⟩

/-! ### No operation inside an open frame -/

theorem atIdle_of_idle {s : State} (hp : s.phase = .idle) (k : Host.Outcome State Fault Refusal) : atIdle s k = k := by
  simp only [atIdle, hp]

section
variable {s : State} (hp : s.phase = .idle) (f : Fault)
include hp

theorem bufferTransfer_ne_fault (d : Dir) (b : Block) (p l : Half) (sz : BitVec 4) (wd : List Byte) :
    bufferTransfer d b p l sz wd s ≠ .fault f := by
  rw [bufferTransfer, atIdle_of_idle hp]
  split <;> exact nofun

/-- On the free bus only what handles the frame could fault (R66). -/
theorem onFreeBus_ne_fault (hdr : HdrFields) {k : Host.Outcome State Fault Refusal} (hk : k ≠ .fault f) :
    onFreeBus s hdr k ≠ .fault f := by
  simp only [onFreeBus, hp]
  split
  · exact nofun
  · exact hk

theorem exec_wireOp_ne_fault (r : Region) (d : Dir) (i : Sock) (off : Half) (hr : r = .common → i = 0) :
    exec (wireOp r d i off) s ≠ .fault f := by
  cases d with
  | read =>
    rw [exec_wireRead r i off hr]
    exact onFreeBus_ne_fault hp f _ nofun
  | write =>
    rw [exec_wireWrite r i off hr]
    exact onFreeBus_ne_fault hp f _ nofun

theorem peerRefusal_ne_fault (r : Refusal) : peerRefusal r s ≠ .fault f := by
  rw [peerRefusal_idle r hp]
  exact nofun

/-- An operation at IDLE does not fault: a combinational one answers or is refused, the others find the bus free (R146). -/
theorem exec_ne_fault (i : Instr) : exec i s ≠ .fault f := by
  by_cases hi : isArithmetic i = true
  · obtain ⟨r, h⟩ | ⟨r, -, h⟩ := combinationalHaveNoState i hi <;> rw [h s hp] <;> exact nofun
  cases i with
  | frameRd b o n => rw [exec_frameRd b o n s hp]; exact nofun
  | frameWr b o n wd => rw [exec_frameWr b o n wd s hp]; exact nofun
  | cbRd b p l sz => exact bufferTransfer_ne_fault hp f .read b p l sz []
  | cbWr b p l sz wd => exact bufferTransfer_ne_fault hp f .write b p l sz wd
  | wRdCommon off => exact exec_wireOp_ne_fault hp f .common .read 0 off fun _ => rfl
  | wWrCommon off => exact exec_wireOp_ne_fault hp f .common .write 0 off fun _ => rfl
  | wRdSreg i off => exact exec_wireOp_ne_fault hp f .sreg .read i off nofun
  | wWrSreg i off => exact exec_wireOp_ne_fault hp f .sreg .write i off nofun
  | wRdStx i off => exact exec_wireOp_ne_fault hp f .stx .read i off nofun
  | wWrStx i off => exact exec_wireOp_ne_fault hp f .stx .write i off nofun
  | wRdSrx i off => exact exec_wireOp_ne_fault hp f .srx .read i off nofun
  | wWrSrx i off => exact exec_wireOp_ne_fault hp f .srx .write i off nofun
  | wRsvBsb | wRsvOm1 | wRsvOm2 | wRsvOm3 => exact peerRefusal_ne_fault hp f _
  | _ => exact absurd rfl hi

theorem taskMove_ne_fault (k : HostTask) : taskMove k s ≠ .fault f := by
  unfold taskMove
  split
  · exact nofun
  · rename_i i _
    have hx := exec_ne_fault hp f i
    split
    · exact nofun
    · split <;> exact nofun
    · rename_i g he
      rwa [he] at hx

omit hp in
theorem opAfter_ne_fault (s : State) {o : Host.Outcome State Fault Refusal} (ho : o ≠ .fault f) : opAfter s o ≠ .fault f := by
  unfold opAfter
  split
  · exact nofun
  · split <;> exact nofun
  · exact ho

theorem packetMove_ne_fault (p : Packet) : packetMove p s ≠ .fault f := by
  unfold packetMove
  split
  · rename_i i bytes _
    exact opAfter_ne_fault f s (exec_ne_fault (s := State.onWire bytes s) hp f i)
  · exact opAfter_ne_fault f s nofun
  · exact nofun
  · exact opAfter_ne_fault f s nofun

theorem hostMove_ne_fault : hostMove s ≠ .fault f := by
  obtain ⟨p, rest, -, he⟩ | ⟨c, rest, -, he⟩ | ⟨rest, -, he⟩ | ⟨-, he⟩ := hostMove_cases s <;> rw [he]
  · exact packetMove_ne_fault (s := State.goesOn rest s) hp f p
  all_goals exact nofun

end

/-- Settles O50: only a move of the host presents an operation, and the host has a move only at IDLE. -/
theorem stepNeverFaults : Obligations.StepNeverFaults := by
  intro s f
  obtain ⟨rest, -, he⟩ | ⟨-, he⟩ | ⟨hp, k, -, he⟩ | ⟨hp, -, he⟩ := step_cases s <;> rw [he]
  · exact nofun
  · exact nofun
  · exact taskMove_ne_fault ((State.due_phase s).trans hp) f k
  · exact hostMove_ne_fault ((State.due_phase s).trans hp) f

end Sys2Proof.Machine
end

section
/-! PROOFS. The statements of 42_frame.md about whole frames (R153 to R156): what is on the trace when nothing stops a frame and
when something does; and about FRAME.PARSE, which reads a command back from a trace (R159, R160). -/

namespace Sys2Proof.Machine

/-! ### What a frame transmits -/

theorem pendingBytes_fteStart_write (b : Block) (o n : Half) (wd : List Byte) (s : State) :
    pendingBytes (fteStart .write b o n wd s) = headerBytes (hdrEnc Config.std o b .write) ++ wd := by
  simp [pendingBytes, dataFrom]

theorem pendingBytes_fteStart_read (b : Block) (o n : Half) (wd : List Byte) (s : State) :
    pendingBytes (fteStart .read b o n wd s) =
      headerBytes (hdrEnc Config.std o b .read) ++ List.replicate n.toNat Config.std.dummy := by
  simp [pendingBytes, dataFrom]

theorem remaining_fteStart (d : Dir) (b : Block) (o n : Half) (wd : List Byte) (s : State) :
    remaining (fteStart d b o n wd s) = 3 + n.toNat := by
  simp [remaining]

theorem headerLeft_fteStart (d : Dir) (b : Block) (o n : Half) (wd : List Byte) (s : State) :
    headerLeft (fteStart d b o n wd s) = 3 := by
  simp [headerLeft]

/-- The bytes sent before a frame stops are as many as the responses. -/
theorem zip_take_length (sent rs : List Byte) : (sent.take rs.length).zip rs = sent.zip rs := by
  have h := List.take_zipWith (f := Prod.mk) (l := sent) (l' := rs) (i := rs.length)
  rw [List.take_length, List.take_of_length_le (by simp)] at h
  exact h.symm

/-- Settles O20: the ways a frame ends, with the write data behind the header as what is sent. -/
theorem writeFrameTrace : Obligations.WriteFrameTrace := by
  refine ⟨fun x hx => decodeCmd_frameWr hx, fun s b o n wd hp hw => ?_⟩
  obtain ⟨rs, -, hend⟩ := runFrame_frameEnd .write b o n wd s fun _ => hw
  rw [pendingBytes_fteStart_write, remaining_fteStart] at hend
  refine ⟨_, _, rs, hdrEnc_answers o b .write, exec_frameWr b o n wd s hp, ?_⟩
  rcases hs : firstStop s.env (3 + n.toNat) with _ | ⟨k, e | _ | _⟩ <;> rw [hs] at hend
  · obtain ⟨hphase, hsel, -, -, hl, hres, htr, -⟩ := hend
    exact ⟨hphase, hsel, hl, hres, htr⟩
  · obtain ⟨hphase, hsel, -, -, rfl, hk, hres, htr, -⟩ := hend
    exact ⟨hphase, hsel, rfl, hk, hres, by rw [zip_take_length]; exact htr⟩
  · obtain ⟨hphase, hsel, -, -, rfl, hk, hres, htr, -, hfix⟩ := hend
    exact ⟨hphase, hsel, rfl, hk, hres, hfix, by rw [zip_take_length]; exact htr⟩
  · obtain ⟨hphase, hsel, hresp, rfl, hk, hres, htr⟩ := hend
    exact ⟨hphase, hsel, rfl, hk, hres, hresp, by rw [zip_take_length]; exact htr⟩

/-- Settles O21: the ways a frame ends, with DUMMY as what is sent behind the header. -/
theorem readFrameTrace : Obligations.ReadFrameTrace := by
  refine ⟨decodeCmd_frameRd, fun s b o n hp => ?_⟩
  obtain ⟨rs, -, hend⟩ := runFrame_frameEnd .read b o n [] s nofun
  rw [pendingBytes_fteStart_read, remaining_fteStart, headerLeft_fteStart] at hend
  refine ⟨_, _, rs, _, hdrEnc_answers o b .read, exec_frameRd b o n s hp, rfl, ?_⟩
  rcases hs : firstStop s.env (3 + n.toNat) with _ | ⟨k, e | _ | _⟩ <;> rw [hs] at hend
  · obtain ⟨hphase, hsel, -, hresp, hl, hres, htr, hdata⟩ := hend
    exact ⟨hphase, hsel, hl, hres, hdata, hresp, htr⟩
  · obtain ⟨hphase, hsel, -, hresp, rfl, hk, hres, htr, -, hdata⟩ := hend
    refine ⟨hphase, hsel, rfl, hk, hres, hresp, ?_, by rw [zip_take_length]; exact htr⟩
    simpa using hdata rfl
  · obtain ⟨hphase, hsel, -, -, rfl, hk, hres, htr, -, hfix⟩ := hend
    exact ⟨hphase, hsel, rfl, hk, hres, hfix, by rw [zip_take_length]; exact htr⟩
  · obtain ⟨hphase, hsel, hresp, rfl, hk, hres, htr⟩ := hend
    exact ⟨hphase, hsel, rfl, hk, hres, hresp, by rw [zip_take_length]; exact htr⟩

/-! ### A frame that nothing stops -/

/-- A frame that nothing stops: three header exchanges, one exchange for each data byte, and the responses of these are what a
read returns (R153, R154). -/
theorem runFrame_complete (d : Dir) (b : Block) (o n : Half) (wd : List Byte) (s : State)
    (hw : d = .write → wd.length = n.toNat) (hs : firstStop s.env (3 + n.toNat) = none) :
    ∃ r0 r1 r2 rs, rs.length = n.toNat ∧ (runFrame d b o n wd s).res = .ok ∧
      (runFrame d b o n wd s).rdata = (if d = .read then rs else []) ∧
      (runFrame d b o n wd s).trace = s.trace ++ [.selA] ++
        exchanges (((hdrEnc Config.std o b d).h0, r0) :: ((hdrEnc Config.std o b d).h1, r1) ::
          ((hdrEnc Config.std o b d).h2, r2) :: (dataFrom (fteStart d b o n wd s) 0).zip rs) ++ [.selR] := by
  obtain ⟨rs, -, hend⟩ := runFrame_frameEnd d b o n wd s hw
  rw [hs, remaining_fteStart, headerLeft_fteStart] at hend
  obtain ⟨-, -, -, -, hl, hres, htr, hdata⟩ := hend
  match rs with
  | r0 :: r1 :: r2 :: rs => exact ⟨r0, r1, r2, rs, by simpa [Nat.add_comm 3] using hl, hres, hdata, htr⟩
  | [] | [_] | [_, _] => simp at hl; omega

/-- An empty frame at a peer that takes it: no byte changes but by the peer's engine (R156). -/
theorem runFrame_empty_get {d : Dir} {b : Block} {o : Half} {s : State} (hp : s.phase = .idle) (hk : PeerTakes s b o 0)
    {a : Nat} (ha : a ∉ pokedKeys s.env) : Memory.get (runFrame d b o 0 [] s).pm a = Memory.get s.pm a := by
  cases d with
  | read =>
    obtain ⟨t, he, -, hget⟩ := readFrameMemory s b o 0 hp hk
    obtain rfl := Host.Outcome.next.inj ((exec_frameRd b o 0 s hp).symm.trans he)
    exact hget a ha
  | write =>
    obtain ⟨t, he, -, hget⟩ := writeFrameMemory s b o 0 [] hp rfl hk
    obtain rfl := Host.Outcome.next.inj ((exec_frameWr b o 0 [] s hp).symm.trans he)
    have hnone : reachedCount s.env (3 + (0 : Half).toNat) - 3 = 0 := Nat.sub_eq_zero_of_le (reachedCount_le s.env 3)
    rw [hget a ha, hnone, if_neg (by omega)]

/-- Settles O22: a complete frame with no data exchange. -/
theorem emptyFrame : Obligations.EmptyFrame := by
  intro s b o d hp hs
  obtain ⟨r0, r1, r2, rs, hl, hres, hdata, htr⟩ := runFrame_complete d b o 0 [] s (fun _ => rfl) hs
  obtain rfl : rs = [] := List.eq_nil_of_length_eq_zero hl
  have hexec : exec (frameOp d b o 0 []) s = .next (runFrame d b o 0 [] s) := by
    rw [exec_frameOp d b o 0 [] s hp]
    cases d <;> rfl
  refine ⟨_, _, r0, r1, r2, hdrEnc_answers o b d, hexec, hres, by simpa using hdata, ?_,
    fun hk a ha => runFrame_empty_get hp hk ha⟩
  simpa [exchanges] using htr

/-! ### From a trace back to the command -/

/-- Settles O34: by how many pairs there are, and then by the length mode. -/
theorem parseCases : Obligations.ParseCases := by
  refine ⟨fun _ => rfl, frameParse_short_answers, fun x0 x1 x2 xs => ⟨_, hdrDec_answers _, fun hm => ?_, fun hm => ?_⟩⟩
  · exact frameParse_badMode x0 x1 x2 xs hm
  · exact ⟨_, _, _, bsbDec_answers _, frameParse_answers x0 x1 x2 xs hm⟩

/-- FRAME.PARSE undoes HDR.ENC: behind an encoded header it answers the fields the header was encoded from (R136, R160). -/
theorem frameParse_hdrEnc_answers (o : Half) (b : Block) (d : Dir) (r0 r1 r2 : Byte) (xs : List (Byte × Byte)) :
    Answers (.frameParse (((hdrEnc Config.std o b d).h0, r0) :: ((hdrEnc Config.std o b d).h1, r1) ::
      ((hdrEnc Config.std o b d).h2, r2) :: xs)) (parsedFrame (wireHeader b d o) xs) := by
  rw [← hdrDec_hdrEnc]
  exact frameParse_answers _ _ _ xs (by rw [hdrDec_hdrEnc, wireHeader])

/-- A complete frame's exchanges are parsed to its command, with the data it has sent or been answered (R160). -/
theorem runFrame_parsed {d : Dir} (b : Block) (o : Half) {n : Half} {wd : List Byte} {s : State}
    (hw : d = .write → wd.length = n.toNat) (hs : firstStop s.env (3 + n.toNat) = none) :
    ∃ xs, (runFrame d b o n wd s).trace = s.trace ++ [.selA] ++ exchanges xs ++ [.selR] ∧
      Answers (.frameParse xs) (.parsed d b o (if d = .read then (runFrame d b o n wd s).rdata else wd)
        (blockRegion b) (blockSock b) (blockAssigned b) (wireClass b d Config.std.omVdm)) := by
  obtain ⟨r0, r1, r2, rs, hl, -, hdata, htr⟩ := runFrame_complete d b o n wd s hw hs
  refine ⟨_, htr, ?_⟩
  have hparse := frameParse_hdrEnc_answers o b d r0 r1 r2 ((dataFrom (fteStart d b o n wd s) 0).zip rs)
  have hcaptured : capturedData d ((dataFrom (fteStart d b o n wd s) 0).zip rs) = if d = .read then rs else wd := by
    cases d with
    | read => exact List.map_snd_zip (by simp [dataFrom, hl])
    | write => exact List.map_fst_zip (by simp [dataFrom, hl, hw rfl])
  rw [parsedFrame, wireHeader, hcaptured] at hparse
  rw [hdata]
  cases d <;> exact hparse

/-- Only a captured transaction of three pairs or more, in variable-length mode, is parsed as a command (R159). -/
theorem frameParse_parsed {xs : List (Byte × Byte)} {d : Dir} {b : Block} {o : Half} {data : List Byte} {region : Region}
    {i : Sock} {assigned : Bool} {cls : WireClass}
    (h : Answers (.frameParse xs) (.parsed d b o data region i assigned cls)) :
    ∃ x0 x1 x2 ys, xs = x0 :: x1 :: x2 :: ys ∧
      hdrEnc Config.std o b d = { h0 := x0.1, h1 := x1.1, h2 := x2.1 } ∧ capturedData d ys = data := by
  match xs with
  | x0 :: x1 :: x2 :: ys =>
    by_cases hm : (hdrDec Config.std { h0 := x0.1, h1 := x1.1, h2 := x2.1 }).om = Config.std.omVdm
    · obtain ⟨rfl, rfl, rfl, rfl, -⟩ := Response.parsed.inj ((frameParse_answers x0 x1 x2 ys hm).unique h)
      exact ⟨x0, x1, x2, ys, rfl, hdrEnc_hdrDec hm, rfl⟩
    · exact absurd ((frameParse_badMode x0 x1 x2 ys hm State.reset rfl).symm.trans (h State.reset rfl)) nofun
  | [] | [_] | [_, _] => exact absurd ((frameParse_short_answers _ (by simp)).unique h) nofun

/-- Settles O35: a complete frame's exchanges begin with its encoded header, and a header that is parsed is the encoding of
what it is parsed to. -/
theorem parseRoundTrip : Obligations.ParseRoundTrip := by
  refine ⟨fun s b o n wd d hp hw hs => ?_, fun xs d b o data region i assigned cls h => ?_⟩
  · cases d with
    | read =>
      obtain ⟨xs, htr, hparse⟩ := runFrame_parsed (d := .read) b o (wd := []) nofun hs
      exact ⟨_, xs, _, _, _, _, exec_frameRd b o n s hp, htr, hparse⟩
    | write =>
      obtain ⟨xs, htr, hparse⟩ := runFrame_parsed (d := .write) b o (fun _ => hw) hs
      exact ⟨_, xs, _, _, _, _, exec_frameWr b o n wd s hp, htr, hparse⟩
  · obtain ⟨x0, x1, x2, ys, rfl, he, rfl⟩ := frameParse_parsed h
    refine ⟨_, hdrEnc_answers o b d, ?_, ?_⟩
    · rw [he]
      rfl
    · rintro rfl
      rfl

end Sys2Proof.Machine
end

section
/-! PROOFS. The statements of 42_frame.md about the wire classes (R161 to R168): a read class samples, a write class stores, and
neither changes anything else but what it is said to. -/

namespace Sys2Proof.Machine

/-- What a frame changes at a peer that gives it a meaning: the peer's memory, the script, and the count of draws (R63). -/
theorem wireFrame_known_changes (f : HdrFields) {s : State} (hr : s.peer = .reference) :
    (wireFrame f 0 s.wire s.wireTaken).2 = { s with
      wire := []
      pm := (wireFrame f 0 s.wire s.wireTaken).2.pm
      env := (wireFrame f 0 s.wire s.wireTaken).2.env
      draws := (wireFrame f 0 s.wire s.wireTaken).2.draws } := by
  obtain ⟨a, ha⟩ := exists_not_poked s.env
  obtain ⟨hpeer, -⟩ := wireFrame_get f s.wire 0 s.wireTaken hr a ha
  have hc := wireFrame_changes f s.wire 0 s.wireTaken
  rw [hpeer, ← hr] at hc
  exact hc

/-- Settles O36: the responses are samples, exchange after exchange, and a read draws and stores nothing. -/
theorem wireReads : Obligations.WireReads := by
  refine fun r i off hr => ⟨decodeRest_enc r i .read off hr, fun s hp ⟨hpeer, _, hl⟩ => ?_⟩
  refine ⟨_, (wireFrame (wireHeader (blockOf i r) .read off) 0 s.wire s.wireTaken).1, exec_wireRead_taken hr hp hl, ?_,
    wireFrame_length _ s.wire 0 s.wireTaken, fun k hk => ?_, fun a ha => ?_⟩
  · have hdraws := wireFrame_draws (wireHeader (blockOf i r) .read off) rfl s.wire 0 s.wireTaken hpeer
    rw [wireFrame_known_changes _ hpeer, hdraws]
    rfl
  · exact wireFrame_samples (wireHeader (blockOf i r) .read off) rfl s.wire 0 s.wireTaken hpeer k hk
  · simpa [wireHeader] using (wireFrame_get (wireHeader (blockOf i r) .read off) s.wire 0 s.wireTaken hpeer a ha).2

/-- Settles O37: the bytes that reach the peer are stored at ascending keys from the frame's offset on. -/
theorem wireWrites : Obligations.WireWrites := by
  refine fun r i off hr => ⟨decodeRest_enc r i .write off hr, fun s hp ⟨hpeer, _, hl⟩ => ?_⟩
  refine ⟨_, exec_wireWrite_taken hr hp hl, ?_, fun a ha => ?_⟩
  · rw [wireFrame_known_changes _ hpeer]
    rfl
  · simpa [wireHeader] using (wireFrame_get (wireHeader (blockOf i r) .write off) s.wire 0 s.wireTaken hpeer a ha).2

end Sys2Proof.Machine
end

section
/-! PROOFS. The statements of 43_circular.md: pointer arithmetic and the splitter in numbers (R170 to R175, R178), the buffer
transfers as one frame or two (R176, R177, R179), and what they do on a quiet bus (R178). -/

namespace Sys2Proof.Machine

/-! ### Pointer arithmetic in numbers -/

theorem bufSize_dvd (sz : BitVec 4) : bufSize sz ∣ 65536 :=
  Nat.pow_dvd_pow 2 (show sz.toNat ≤ 16 from sz.isLt.le)

theorem bufSize_mod (sz : BitVec 4) : bufSize sz % 2 ^ 16 = bufSize sz :=
  Nat.mod_eq_of_lt (Nat.lt_of_le_of_lt (bufSize_le sz) (by decide))

theorem cpWrap_and (p : Half) (sz : BitVec 4) : cpWrap p sz = p &&& BitVec.ofNat 16 (bufSize sz - 1) := by
  apply BitVec.eq_of_toNat_eq
  have hmask : bufSize sz - 1 < 2 ^ 16 := by
    have hS := bufSize_le sz
    omega
  rw [cpWrap_toNat, BitVec.toNat_and, BitVec.toNat_ofNat, Nat.mod_eq_of_lt hmask, bufSize,
    Nat.and_two_pow_sub_one_eq_mod]

theorem cpAdv_ofNat (p n : Half) : cpAdv p n = BitVec.ofNat 16 ((p.toNat + n.toNat) % 65536) := by
  apply BitVec.eq_of_toNat_eq
  simp [cpAdv]

/-- Advancing a pointer and then wrapping it is advancing inside the buffer: S divides 65536 (R174). -/
theorem cpWrap_cpAdv_toNat (p n : Half) (sz : BitVec 4) :
    (cpWrap (cpAdv p n) sz).toNat = ((cpWrap p sz).toNat + n.toNat) % bufSize sz := by
  rw [cpWrap_toNat, cpWrap_toNat, Nat.mod_add_mod, cpAdv, BitVec.toNat_add, Nat.mod_mod_of_dvd _ (bufSize_dvd sz)]

theorem cpUnread_toNat (wr rd : Half) : (cpUnread wr rd).toNat = (wr.toNat + (65536 - rd.toNat)) % 65536 := by
  rw [cpUnread, BitVec.toNat_sub, Nat.add_comm]

theorem cpFree_toNat (sz : BitVec 4) (wr rd : Half) :
    (cpFree sz wr rd).toNat = (bufSize sz + (65536 - (cpUnread wr rd).toNat)) % 65536 := by
  rw [cpFree, BitVec.toNat_sub, BitVec.toNat_ofNat, bufSize_mod, Nat.add_comm]

/-- Settles O9: each of the three operations answers its 16-bit value, in numbers. -/
theorem pointerArithmetic : Obligations.PointerArithmetic := by
  refine ⟨fun _ => rfl, fun _ => rfl, fun _ => rfl, fun p sz => ⟨cpWrap_answers p sz, cpWrap_and p sz⟩,
    fun p n => ?_, fun wr rd => ?_⟩
  · rw [← cpAdv_ofNat]
    exact cpAdv_answers p n
  · rw [← cpUnread_toNat, BitVec.ofNat_toNat, BitVec.setWidth_eq]
    exact cpUnread_answers wr rd

/-- Settles O10: with u unread bytes the difference S - u does not wrap when u is at most S. -/
theorem freeSpace : Obligations.FreeSpace := by
  refine ⟨fun _ => rfl, fun sz wr rd =>
    ⟨(cpUnread wr rd).toNat, cpFree sz wr rd, _, cpUnread_toNat wr rd, cpFree_answers sz wr rd, rfl,
      cpFree_toNat sz wr rd, fun hv => ?_⟩⟩
  have hu : (cpUnread wr rd).toNat ≤ bufSize sz := of_decide_eq_true hv
  have hS := bufSize_le sz
  have hf : (cpFree sz wr rd).toNat = bufSize sz - (cpUnread wr rd).toNat := by
    rw [cpFree_toNat]
    omega
  exact ⟨hf, hf ▸ Nat.sub_le _ _⟩

/-- Settles O13: R174's law is `cpWrap_cpAdv_toNat`; what a sequence writes back is CP.ADV's value. -/
theorem twoSpaces : Obligations.TwoSpaces :=
  ⟨fun p n sz => ⟨_, _, _, cpAdv_answers p n, cpWrap_answers _ sz, cpWrap_answers p sz, cpWrap_cpAdv_toNat p n sz⟩,
    fun _ _ => rfl, fun _ _ _ _ => rfl⟩

/-! ### The splitter -/

section
variable (p l : Half) (sz : BitVec 4)

theorem cpSplit_length_sum :
    (cpSplit p l sz).l0.toNat + (if (cpSplit p l sz).two then (cpSplit p l sz).l1.toNat else 0) = l.toNat := by
  obtain ⟨-, -, ⟨htwo, hlong, hl0, hl1⟩ | ⟨hone, -, hl0⟩⟩ := cpSplit_spec p l sz
  · have ho := cpWrap_lt p sz
    rw [if_pos htwo]
    omega
  · simp [hone, hl0]

/-- A transfer that fits stays inside the buffer, and its second chunk ends before the first begins (R178 (b), (c)). -/
theorem cpSplit_inside (hl : l.toNat ≤ bufSize sz) :
    (cpSplit p l sz).o0.toNat + (cpSplit p l sz).l0.toNat ≤ bufSize sz ∧
    ((cpSplit p l sz).two = true → (cpSplit p l sz).l1.toNat ≤ (cpSplit p l sz).o0.toNat) := by
  obtain ⟨ho0, -, ⟨-, hlong, hl0, hl1⟩ | ⟨hone, hshort, hl0⟩⟩ := cpSplit_spec p l sz
  · have ho := cpWrap_lt p sz
    rw [ho0]
    omega
  · rw [ho0, hl0, hone]
    exact ⟨hshort, nofun⟩

/-- Where byte j of a transfer that fits stands (R178 (d)). -/
theorem cpSplit_offset (hl : l.toNat ≤ bufSize sz) {j : Nat} (hj : j < l.toNat) :
    (if j < (cpSplit p l sz).l0.toNat then (cpSplit p l sz).o0.toNat + j else j - (cpSplit p l sz).l0.toNat) =
      (p.toNat + j) % bufSize sz := by
  have ho := cpWrap_lt p sz
  rw [mod_split p.toNat j _ (by omega) (bufSize_pos sz), ← cpWrap_toNat]
  obtain ⟨ho0, -, ⟨-, hlong, hl0, -⟩ | ⟨-, hshort, hl0⟩⟩ := cpSplit_spec p l sz
  · rw [ho0, hl0]
    split <;> split <;> omega
  · rw [ho0, hl0, if_pos hj, if_pos (by omega)]

/-- Of a transfer that does not fit the second chunk passes the first one's offset (R179). -/
theorem cpSplit_oversize (hl : bufSize sz < l.toNat) :
    (cpSplit p l sz).fits = false ∧ (cpSplit p l sz).two = true ∧
    (cpSplit p l sz).o0.toNat < (cpSplit p l sz).l1.toNat := by
  obtain ⟨ho0, hfits, ⟨htwo, -, -, hl1⟩ | ⟨-, hshort, -⟩⟩ := cpSplit_spec p l sz
  · have ho := cpWrap_lt p sz
    refine ⟨hfits.trans (decide_eq_false (by omega)), htwo, ?_⟩
    rw [ho0, hl1]
    omega
  · omega

end

/-- Settles O11: one case for each arm of the formula; a first chunk that ends the buffer is not empty. -/
theorem splitterFormula : Obligations.SplitterFormula := by
  refine ⟨fun _ => rfl, fun p l sz => ⟨_, cpSplit_answers p l sz, ?_⟩⟩
  have ho := cpWrap_lt p sz
  obtain ⟨ho0, hfits, hchunks⟩ := cpSplit_spec p l sz
  rw [cpWrap_toNat] at ho hchunks
  refine ⟨by rw [ho0, cpWrap_toNat, bufSize], hfits, ?_⟩
  rw [bufSize] at ho hchunks
  rcases hchunks with ⟨htwo, hlong, hl0, hl1⟩ | ⟨hone, hshort, hl0⟩
  · rw [if_pos hlong]
    exact ⟨htwo, hl0, by rw [hl1, hl0], by omega, by omega⟩
  · rw [if_neg (Nat.not_lt.2 hshort)]
    exact ⟨hone, hl0⟩

/-- Settles O12: the laws above, in the statement's order. -/
theorem splitterLaws : Obligations.SplitterLaws := fun p l sz =>
  ⟨_, cpSplit_answers p l sz, cpSplit_length_sum p l sz,
    fun hl => ⟨(cpSplit_inside p l sz hl).1, (cpSplit_inside p l sz hl).2, fun _ hj => cpSplit_offset p l sz hl hj⟩,
    fun hl => (cpSplit_oversize p l sz hl).2⟩

/-! ### A buffer transfer as frames -/

/-- A transfer that fits, by the splitter's own bit (R175, R179). -/
theorem cpSplit_fits {p l : Half} {sz : BitVec 4} (hf : (cpSplit p l sz).fits = true) : l.toNat ≤ bufSize sz :=
  of_decide_eq_true ((cpSplit_spec p l sz).2.1.symm.trans hf)

/-- A transfer that the splitter does not fit is refused before any bus activity (R179). -/
theorem bufferTransfer_oversize (d : Dir) (b : Block) (p : Half) {l : Half} {sz : BitVec 4} (wd : List Byte) {s : State}
    (hp : s.phase = .idle) (hf : (cpSplit p l sz).fits = false) :
    bufferTransfer d b p l sz wd s = .refused .oversize := by
  simp [bufferTransfer, atIdle_of_idle hp, hf]

/-- Settles O31: the splitter's `fits` is false, which is what a transfer asks first. -/
theorem oversizeRefused : Obligations.OversizeRefused := by
  intro b p l sz wd hl
  obtain ⟨hfits, -, hlong⟩ := cpSplit_oversize p l sz hl
  exact ⟨⟨_, cpSplit_answers p l sz, hfits, fun _ => hlong⟩, fun s hp =>
    ⟨bufferTransfer_oversize .read b p [] hp hfits, bufferTransfer_oversize .write b p wd hp hfits⟩⟩

/-- What a reset between the two frames leaves, the first having ended in `t` (R266, log entry 28). -/
theorem cutBetween_spec {t : State} (hs : t.sel = .released) :
    t.cutBetween.trace = t.trace ∧ t.cutBetween.phase = .idle ∧ t.cutBetween.sel = .released ∧
    t.cutBetween.res = .none ∧ t.cutBetween.resp = .cut ∧ SameOutside t t.cutBetween ∧
    ∀ a, a ∉ pokedKeys t.env → Memory.get t.cutBetween.pm a = Memory.get t.pm a := by
  obtain ⟨hout, -, htrace, -⟩ := cutBetween_common t t (.refl t) hs
  exact ⟨htrace, rfl, rfl, rfl, rfl, hout, fun a ha => cutBetween_get t a ha⟩

/-- Settles O29: `splitTransfer_write` is a write transfer case by case; the case is read off the first frame's result. -/
theorem bufferWriteIsFrames : Obligations.BufferWriteIsFrames := by
  refine ⟨fun x => decodeCmd_cbWr, fun s b p l sz wd hp hw => ⟨_, cpSplit_answers p l sz,
    bufferTransfer_oversize .write b p wd hp, fun hf hone => ?_, fun hf htwo => ?_⟩⟩
  all_goals
    obtain ⟨htake, hdrop, hall⟩ := split_lengths p l sz wd hw
    rw [exec_cbWr b p l sz wd s hp (cpSplit_fits hf), splitTransfer_write _ _ _ _ _ htake hdrop]
  · obtain ⟨hwd, hl0⟩ := hall hone
    rw [hwd, hl0, exec_frameWr _ _ _ _ _ hp, hone]
    exact ⟨_, rfl, by simp⟩
  · obtain ⟨-, hend, -⟩ := runFrame_common .write b (cpSplit p l sz).o0 (cpSplit p l sz).l0 _ s (fun _ => htake)
    rw [exec_frameWr _ _ _ _ _ hp]
    refine ⟨_, rfl, fun hres => ?_, fun hres hcut => ?_, fun hres hcut => ?_⟩
    · rw [if_neg (fun h => hres h.2)]
    · obtain ⟨hidle, -⟩ := hend.ended (by simp [hres])
      rw [if_pos ⟨htwo, hres⟩, hcut, exec_frameWr _ _ _ _ _ hidle]
      exact ⟨_, rfl, rfl⟩
    · obtain ⟨-, hsel, -⟩ := hend.ended (by simp [hres])
      rw [if_pos ⟨htwo, hres⟩, if_pos hcut]
      exact ⟨_, rfl, cutBetween_spec hsel⟩

/-! ### A transfer by the results of its frames -/

section
variable {b : Block} {l : Half} {c : Split} {s t : State} {d : Dir} {wd : List Byte} {e : BusErr}

theorem splitTransfer_one (hone : c.two = false) :
    splitTransfer d b l c wd s = runFrame d b c.o0 c.l0 (wd.take c.l0.toNat) s := by
  simp [splitTransfer, hone]

theorem splitTransfer_unfinished (htwo : c.two = true) (ht : runFrame d b c.o0 c.l0 (wd.take c.l0.toNat) s = t)
    (hres : t.res = .none) : splitTransfer d b l c wd s = t := by
  simp [splitTransfer, htwo, ht, hres]

theorem splitTransfer_failed (htwo : c.two = true) (ht : runFrame d b c.o0 c.l0 (wd.take c.l0.toNat) s = t)
    (hres : t.res = .errBus e) : splitTransfer d b l c wd s = bufferLost l (.errBus e) t := by
  simp [splitTransfer, htwo, ht, hres]

theorem splitTransfer_second (htwo : c.two = true) (ht : runFrame d b c.o0 c.l0 (wd.take c.l0.toNat) s = t)
    (hres : t.res = .ok) : splitTransfer d b l c wd s = secondFrame d b l c wd t := by
  simp [splitTransfer, htwo, ht, hres]

theorem secondFrame_cut (hcut : cutsBetween t.env = true) : secondFrame d b l c wd t = t.cutBetween := by
  simp [secondFrame, hcut]

theorem secondFrame_sent (hcut : cutsBetween t.env = false) :
    secondFrame d b l c wd t = joinFrames l t (runFrame d b 0 c.l1 (wd.drop c.l0.toNat) t) := by
  simp [secondFrame, hcut]

theorem joinFrames_ok (hres : s.res = .ok) :
    joinFrames l t s = { s with rdata := t.rdata ++ s.rdata, resp := .frame .ok (t.rdata ++ s.rdata) } := by
  simp only [joinFrames, hres, State.returns, State.holds]

theorem joinFrames_none (hres : s.res = .none) : joinFrames l t s = s := by simp only [joinFrames, hres]

theorem joinFrames_errBus (hres : s.res = .errBus e) : joinFrames l t s = bufferLost l (.errBus e) s := by
  simp only [joinFrames, hres]

/-- After an error a read transfer has its result and as many bytes as it asked for, of no known value (R158, R176). -/
theorem bufferLost_readShape (r : Res) (hd : s.dir = .read) :
    bufferLost l r s =
      { s with rdata := (bufferLost l r s).rdata, resp := .frame r (bufferLost l r s).rdata
               draws := (bufferLost l r s).draws } ∧
    (bufferLost l r s).rdata.length = l.toNat := by
  rw [bufferLost_read l r s hd]
  exact ⟨rfl, freeBytes_length _ _⟩

end

/-- A read frame with a result has ended, in a read's direction. -/
theorem runFrame_read_ended {b : Block} {o n : Half} {s t : State} (ht : runFrame .read b o n [] s = t)
    (hres : t.res ≠ .none) : t.phase = .idle ∧ t.sel = .released ∧ t.dir = .read := by
  obtain ⟨-, hend, hdir, -⟩ := runFrame_common .read b o n [] s nofun
  rw [ht] at hend hdir
  obtain ⟨hidle, hsel, -⟩ := hend.ended hres
  exact ⟨hidle, hsel, hdir hres⟩

/-- Settles O30: a read transfer by the result of its first frame and, that being OK, of its second. -/
theorem bufferReadIsFrames : Obligations.BufferReadIsFrames := by
  refine ⟨decodeCmd_cbRd, fun s b p l sz hp => ⟨_, cpSplit_answers p l sz, bufferTransfer_oversize .read b p [] hp,
    fun hf hone => ?_, fun hf htwo => ?_⟩⟩
  · have hl0 : (cpSplit p l sz).l0 = l := by
      have hsum := cpSplit_length_sum p l sz
      rw [hone] at hsum
      exact BitVec.eq_of_toNat_eq hsum
    rw [exec_cbRd b p l sz s hp (cpSplit_fits hf), splitTransfer_one hone, List.take_nil, hl0]
    exact ⟨_, exec_frameRd _ _ _ _ hp, rfl⟩
  · refine ⟨_, _, exec_frameRd _ _ _ _ hp, exec_cbRd b p l sz s hp (cpSplit_fits hf), ?_⟩
    generalize ht : runFrame .read b (cpSplit p l sz).o0 (cpSplit p l sz).l0 [] s = t
    have ht' := (List.take_nil (α := Byte) (i := (cpSplit p l sz).l0.toNat)).symm ▸ ht
    refine ⟨splitTransfer_unfinished htwo ht', fun e hres => ?_, fun hres hcut => ?_, fun hres hcut => ?_⟩
    · obtain ⟨-, -, hdir⟩ := runFrame_read_ended ht (by simp [hres])
      rw [splitTransfer_failed htwo ht' hres]
      exact bufferLost_readShape _ hdir
    · obtain ⟨-, hsel, -⟩ := runFrame_read_ended ht (by simp [hres])
      rw [splitTransfer_second htwo ht' hres, secondFrame_cut hcut]
      exact cutBetween_spec hsel
    · obtain ⟨hidle, -, -⟩ := runFrame_read_ended ht (by simp [hres])
      rw [splitTransfer_second htwo ht' hres, secondFrame_sent hcut, List.drop_nil]
      generalize hu : runFrame .read b 0 (cpSplit p l sz).l1 [] t = u
      refine ⟨u, hu ▸ exec_frameRd _ _ _ _ hidle, joinFrames_ok, joinFrames_none, fun e hres2 => ?_⟩
      obtain ⟨-, -, hdir⟩ := runFrame_read_ended hu (by simp [hres2])
      rw [joinFrames_errBus hres2]
      exact bufferLost_readShape _ hdir

/-! ### A buffer transfer on a quiet bus -/

section
variable {p l : Half} {sz : BitVec 4}

/-- A byte of a transfer is in its first chunk or in its second. -/
theorem cpSplit_chunk {j : Nat} (hj : j < l.toNat) : j < (cpSplit p l sz).l0.toNat ∨
    (cpSplit p l sz).two = true ∧ ∃ k < (cpSplit p l sz).l1.toNat, j = k + (cpSplit p l sz).l0.toNat := by
  have hsum := cpSplit_length_sum p l sz
  by_cases htwo : (cpSplit p l sz).two = true
  · rw [if_pos htwo] at hsum
    exact (Nat.lt_or_ge j _).imp_right fun hge => ⟨htwo, _, by omega, (Nat.sub_add_cancel hge).symm⟩
  · rw [if_neg htwo] at hsum
    exact .inl (by omega)

/-- Byte j of the first chunk stands j behind the first chunk's offset. -/
theorem cpSplit_first_key (b : Block) (hl : l.toNat ≤ 2 ^ sz.toNat) {j : Nat} (hj : j < (cpSplit p l sz).l0.toNat) :
    j < l.toNat ∧ byteKey b ((p.toNat + j) % 2 ^ sz.toNat) = byteKey b (cpSplit p l sz).o0.toNat + j := by
  have hsum := cpSplit_length_sum p l sz
  have hjl : j < l.toNat := by omega
  have hoff := cpSplit_offset p l sz hl hjl
  rw [if_pos hj, bufSize] at hoff
  exact ⟨hjl, by rw [← hoff, byteKey, byteKey, Nat.add_assoc]⟩

/-- Byte k of the second chunk stands at offset k. -/
theorem cpSplit_second_key (b : Block) (hl : l.toNat ≤ 2 ^ sz.toNat) (htwo : (cpSplit p l sz).two = true) {k : Nat}
    (hk : k < (cpSplit p l sz).l1.toNat) : k + (cpSplit p l sz).l0.toNat < l.toNat ∧
    byteKey b ((p.toNat + (k + (cpSplit p l sz).l0.toNat)) % 2 ^ sz.toNat) = byteKey b 0 + k := by
  have hsum := cpSplit_length_sum p l sz
  rw [if_pos htwo] at hsum
  have hkl : k + (cpSplit p l sz).l0.toNat < l.toNat := by omega
  have hoff := cpSplit_offset p l sz hl hkl
  rw [if_neg (by omega), Nat.add_sub_cancel, bufSize] at hoff
  exact ⟨hkl, by rw [← hoff, byteKey, byteKey, Nat.add_zero]⟩

end

/-- Settles O32: a byte of the transfer stands in the first chunk or the second, and what is in neither is as before. -/
theorem bufferWriteMemory : Obligations.BufferWriteMemory := by
  intro s b p l sz wd hp hv hw hl hk
  obtain ⟨hpeer, hquiet, hres, hpm⟩ := splitTransfer_write_quiet b p l sz wd s hv hw hl hk
  have hget := splitStored_get b p l sz wd s.pm hw hl
  rw [← hpm, ← (cpSplit_spec p l sz).1] at hget
  have hbase : byteKey b (cpSplit p l sz).o0.toNat = byteKey b 0 + (cpSplit p l sz).o0.toNat := by
    rw [byteKey, byteKey, Nat.add_zero]
  refine ⟨_, exec_cbWr b p l sz wd s hp hl, hres, hpeer, hquiet, fun j hj => ?_, fun a ha => ?_⟩
  · rcases cpSplit_chunk (p := p) (sz := sz) hj with hj0 | ⟨htwo, k, hk1, rfl⟩
    · obtain ⟨-, hkey⟩ := cpSplit_first_key b hl hj0
      rw [hget, hkey, if_pos (by omega), Nat.add_sub_cancel_left]
    · obtain ⟨-, hkey⟩ := cpSplit_second_key b hl htwo hk1
      have hapart := (cpSplit_inside p l sz hl).2 htwo
      rw [hget, hkey, if_neg (by omega), if_pos ⟨htwo, by omega, by omega⟩, Nat.add_sub_cancel_left]
  · rw [hget, if_neg, if_neg]
    · rintro ⟨htwo, hlo, hhi⟩
      obtain ⟨hj, hkey⟩ := cpSplit_second_key (p := p) b hl htwo (k := a - byteKey b 0) (by omega)
      exact ha _ hj (by omega)
    · rintro ⟨hlo, hhi⟩
      obtain ⟨hj, hkey⟩ := cpSplit_first_key (p := p) b hl (j := a - byteKey b (cpSplit p l sz).o0.toNat) (by omega)
      exact ha _ hj (by omega)

/-- Settles O33: the read gathers the bytes at (p + j) mod S, which are those the write left there. -/
theorem bufferReadBack : Obligations.BufferReadBack := by
  intro s b p l sz wd hp hv hw hl hk
  obtain ⟨t, hwr, hres, hpeer, hquiet, hat, -⟩ := bufferWriteMemory s b p l sz wd hp hv hw hl hk
  obtain ⟨-, ⟨-, -, -, -, -, -, htx, hrx⟩, -, hend⟩ := busOperationFrame _ s t rfl (wellFormed_cbWr.2 hw) hwr
  obtain ⟨hidle, -⟩ := BusOutcome.ended hend (by simp [hres])
  obtain ⟨-, -, hres', hpm, hdata⟩ :=
    splitTransfer_read_quiet b p l sz t hquiet hl (peerTakes_congr s t b 0 _ hk hpeer htx hrx)
  refine ⟨t, _, hwr, exec_cbRd b p l sz t hidle hl, hres, hres', ?_, hpm⟩
  rw [hdata]
  apply List.ext_getElem (by simp [hw])
  intro j hj hjw
  simp [State.peerByte, hat j (hw ▸ hjw), hjw]

end Sys2Proof.Machine
end

section
/-! PROOFS of the statements about host sequences (44_socket_ops.md R195 to R208, 45_udp.md R221, R225), first part: what an
operation on one block leaves of the peer's other blocks, whatever stops it (20_memory.md R63, R64, R68). -/

namespace Sys2Proof.Machine

/-! ### The peer and the script, behind whatever step -/

/-- From `s` to `t` a lost peer stays lost, and the script names no new byte for the peer's engine (R64, R68). -/
structure Onward (s t : State) : Prop where
  lost : s.peer = .lost → t.peer = .lost
  script : ∀ a, a ∉ pokedKeys s.env → a ∉ pokedKeys t.env

theorem Onward.refl (s : State) : Onward s s := ⟨id, fun _ => id⟩

theorem Onward.trans {s t u : State} (h : Onward s t) (g : Onward t u) : Onward s u :=
  ⟨g.lost ∘ h.lost, fun a ha => g.script a (h.script a ha)⟩

theorem Onward.of_eq {s t : State} (hpeer : t.peer = s.peer) (henv : t.env = s.env) : Onward s t :=
  ⟨hpeer.trans, fun _ ha => henv ▸ ha⟩

theorem Onward.reference {s t : State} (h : Onward s t) (ht : t.peer = .reference) : s.peer = .reference := by
  cases hs : s.peer with
  | reference => rfl
  | lost => exact absurd (ht.symm.trans (h.lost hs)) nofun

/-- Where only the peer's engine moves (R68). -/
theorem Onward.of_moves {s t : State} (hpeer : t.peer = s.peer) (henv : t.env = dropPokes s.env) : Onward s t :=
  ⟨hpeer.trans, fun a ha => henv ▸ dropPokes_pokedKeys _ a ha⟩

theorem peerSees_peer_lost (t : Byte) {s : State} (h : s.peer = .lost) : (s.peerSees t).2.peer = .lost := by
  cases hp : s.phase with
  | idle => simpa [State.peerSees, hp] using h
  | data => simp [State.peerSees, hp, State.peerData, h]
  | hdr =>
    simp only [State.peerSees, hp, State.peerJudges]
    split
    · split
      · exact h
      · rfl
    · exact h

theorem xchg_onward (t : Byte) (s : State) : Onward s (xchg t s).2 := by
  refine ⟨fun h => ?_, fun a ha => xchgWith_pokedKeys _ (peerSees_peerOnly t) s a ha⟩
  have harr : ∀ reached env, (arrives reached (State.peerSees t) (State.withEnv env s.peerMoves)).peer = .lost := by
    intro reached env
    cases reached with
    | true => exact peerSees_peer_lost t h
    | false => exact h
  obtain ⟨reached, env, -, -, ⟨he, -⟩ | ⟨-, he⟩⟩ := xchgWith_cases (State.peerSees t) s <;> rw [xchg, he] <;>
    exact harr reached env

theorem fteEnd_onward (s : State) : Onward s (fteEnd s) := by
  obtain ⟨-, he⟩ | ⟨-, rest, henv, he⟩ := fteEnd_cases s <;> rw [he]
  · exact .of_moves rfl rfl
  · refine ⟨id, fun a ha => ?_⟩
    have h := dropPokes_pokedKeys _ a ha
    rw [henv] at h
    exact h

theorem fteStep_onward (s : State) : Onward s (fteStep s) := by
  obtain ⟨-, he⟩ | hx | ⟨-, he⟩ := fteStep_cases s
  · exact he.symm ▸ .refl s
  · refine (xchg_onward (nextByte s) s).trans ?_
    obtain ⟨r, -, he⟩ | ⟨e, he⟩ | he | he := fteStep_exchange_cases hx <;> rw [he]
    · obtain ⟨hpeer, -, henv⟩ := advance_peer r (xchg (nextByte s) s).2 hx
      exact .of_eq hpeer henv
    · exact .of_moves (raiseBusError_peer ..) (raiseBusError_env ..)
    · exact .refl _
    · exact .of_eq rfl rfl
  · exact he.symm ▸ fteEnd_onward s

theorem fteRun_onward (k : Nat) : ∀ s : State, Onward s (fteRun k s) := by
  induction k with
  | zero => exact Onward.refl
  | succ k ih =>
    intro s
    by_cases hp : s.phase = .idle
    · exact (fteRun_idle _ _ hp).symm ▸ .refl s
    · exact (fteRun_step k s hp).symm ▸ (fteStep_onward s).trans (ih _)

theorem runFrame_onward (d : Dir) (b : Block) (o n : Half) (wd : List Byte) (s : State) :
    Onward s (runFrame d b o n wd s) :=
  (Onward.of_eq (s := s) (t := fteStart d b o n wd s) rfl rfl).trans (fteRun_onward (n.toNat + 4) _)

/-! ### The other blocks -/

/-- From `s` to `t`, if the peer still has a meaning, every byte outside block `b` that its engine leaves alone is kept (R63,
R64, R68). -/
structure KeepsElsewhere (b : Block) (s t : State) : Prop extends Onward s t where
  bytes : t.peer = .reference → ∀ a, a ∉ pokedKeys s.env → (∀ o : Half, a ≠ byteKey b o.toNat) →
    Memory.get t.pm a = Memory.get s.pm a

theorem KeepsElsewhere.trans {b : Block} {s t u : State} (h : KeepsElsewhere b s t) (g : KeepsElsewhere b t u) :
    KeepsElsewhere b s u :=
  ⟨h.toOnward.trans g.toOnward, fun hu a ha hb =>
    (g.bytes hu a (h.script a ha) hb).trans (h.bytes (g.toOnward.reference hu) a ha hb)⟩

/-- What an operation does on the port alone is no matter of the peer. -/
theorem KeepsElsewhere.of_eq {b : Block} {s t u : State} (h : KeepsElsewhere b s t) (hpeer : u.peer = t.peer)
    (hpm : u.pm = t.pm) (henv : u.env = t.env) : KeepsElsewhere b s u :=
  ⟨h.toOnward.trans (.of_eq hpeer henv), fun hu a ha hb => hpm ▸ h.bytes (hpeer ▸ hu) a ha hb⟩

/-- A key in the reach of a frame that stays inside its block is a key of the block. -/
theorem byteKey_of_range {b : Block} {o : Half} {n a : Nat} (hn : o.toNat + n ≤ 65536) (hlo : byteKey b o.toNat ≤ a)
    (hhi : a < byteKey b o.toNat + n) : ∃ o' : Half, a = byteKey b o'.toNat := by
  refine ⟨BitVec.ofNat 16 (a - byteKey b 0), ?_⟩
  simp only [byteKey, BitVec.toNat_ofNat] at hlo hhi ⊢
  omega

/-- A frame that the peer gives a meaning reaches the bytes of its own block only (R63, R157). -/
theorem runFrame_taken_get (d : Dir) {b : Block} {o n : Half} {wd : List Byte} {s : State} {a : Nat}
    (hp : s.phase = .idle) (hr : d = .read → wd = []) (hw : d = .write → wd.length = n.toNat)
    (hk : PeerTakes s b o n.toNat) (ha : a ∉ pokedKeys s.env) (hb : ∀ o' : Half, a ≠ byteKey b o'.toNat) :
    Memory.get (runFrame d b o n wd s).pm a = Memory.get s.pm a := by
  cases d with
  | read =>
    obtain ⟨t, he, -, hget⟩ := readFrameMemory s b o n hp hk
    rw [exec_frameRd b o n s hp] at he
    cases he
    exact hr rfl ▸ hget a ha
  | write =>
    obtain ⟨t, he, -, hget⟩ := writeFrameMemory s b o n wd hp (hw rfl) hk
    rw [exec_frameWr b o n wd s hp] at he
    cases he
    rw [hget a ha, if_neg]
    rintro ⟨hlo, hhi⟩
    have hoff : o.toNat + n.toNat ≤ 65536 := peerRefuses_off ((peerRefuses_none s b .write o n.toNat).2 hk.2)
    have hle := reachedCount_le s.env (3 + n.toNat)
    obtain ⟨o', ho'⟩ := byteKey_of_range hoff hlo (by omega)
    exact hb o' ho'

theorem runFrame_keepsElsewhere (d : Dir) (b : Block) (o n : Half) (wd : List Byte) (s : State) (hp : s.phase = .idle)
    (hr : d = .read → wd = []) (hw : d = .write → wd.length = n.toNat) :
    KeepsElsewhere b s (runFrame d b o n wd s) := by
  have hon := runFrame_onward d b o n wd s
  refine ⟨hon, fun ht a ha hb => ?_⟩
  by_cases hk : PeerTakes s b o n.toNat
  · exact runFrame_taken_get d hp hr hw hk ha hb
  · obtain ⟨hlost, hkept⟩ := runFrame_doomed d wd (hon.reference ht) hk
    have hthree : reachedCount s.env 3 ≠ 3 := fun h => absurd (ht.symm.trans (hlost h).1) nofun
    obtain ⟨-, hget⟩ := hkept (lt_of_le_of_ne (reachedCount_le s.env 3) hthree)
    exact (hget a ha).2

/-! ### A buffer transfer -/

theorem cutBetween_keepsElsewhere (b : Block) (t : State) : KeepsElsewhere b t t.cutBetween :=
  ⟨⟨id, fun a ha => tail_pokedKeys _ a (dropPokes_pokedKeys _ a ha)⟩, fun _ a ha _ => cutBetween_get t a ha⟩

theorem bufferLost_peer (l : Half) (r : Res) (s : State) :
    (bufferLost l r s).peer = s.peer ∧ (bufferLost l r s).pm = s.pm ∧ (bufferLost l r s).env = s.env := by
  unfold bufferLost
  split <;> exact ⟨rfl, rfl, rfl⟩

theorem joinFrames_peer (l : Half) (first s : State) :
    (joinFrames l first s).peer = s.peer ∧ (joinFrames l first s).pm = s.pm ∧ (joinFrames l first s).env = s.env := by
  unfold joinFrames
  split
  · exact ⟨rfl, rfl, rfl⟩
  · exact bufferLost_peer ..
  · exact ⟨rfl, rfl, rfl⟩

/-- A buffer transfer, by the result of its first frame (R176, R177, R266). -/
theorem splitTransfer_keepsElsewhere (d : Dir) (b : Block) (l : Half) (c : Split) (wd : List Byte) (s : State)
    (hp : s.phase = .idle) (hr : d = .read → wd = []) (hw : d = .write → (wd.take c.l0.toNat).length = c.l0.toNat)
    (hw2 : d = .write → c.two = true → (wd.drop c.l0.toNat).length = c.l1.toNat) :
    KeepsElsewhere b s (splitTransfer d b l c wd s) := by
  have hfirst := runFrame_keepsElsewhere d b c.o0 c.l0 (wd.take c.l0.toNat) s hp (fun h => by simp [hr h]) hw
  obtain ⟨-, hend, -⟩ := runFrame_common d b c.o0 c.l0 (wd.take c.l0.toNat) s hw
  cases htwo : c.two with
  | false => exact splitTransfer_one (l := l) htwo ▸ hfirst
  | true =>
    generalize ht : runFrame d b c.o0 c.l0 (wd.take c.l0.toNat) s = t at hfirst hend
    cases hres : t.res with
    | none => exact splitTransfer_unfinished (l := l) htwo ht hres ▸ hfirst
    | errBus e =>
      obtain ⟨hpeer, hpm, henv⟩ := bufferLost_peer l (.errBus e) t
      exact splitTransfer_failed (l := l) htwo ht hres ▸ hfirst.of_eq hpeer hpm henv
    | ok =>
      rw [splitTransfer_second htwo ht hres]
      refine hfirst.trans ?_
      cases hcut : cutsBetween t.env with
      | true => exact secondFrame_cut (l := l) hcut ▸ cutBetween_keepsElsewhere b t
      | false =>
        obtain ⟨hidle, -⟩ := hend.ended (by simp [hres])
        obtain ⟨hpeer, hpm, henv⟩ := joinFrames_peer l t (runFrame d b 0 c.l1 (wd.drop c.l0.toNat) t)
        rw [secondFrame_sent hcut]
        exact (runFrame_keepsElsewhere d b 0 c.l1 (wd.drop c.l0.toNat) t hidle (fun h => by simp [hr h])
          fun h => hw2 h htwo).of_eq hpeer hpm henv

end Sys2Proof.Machine
end

section
/-! PROOFS of the statements about host sequences, second part: the operation a sequence issues at each position, what it
leaves, and what the host does with the answer (44_socket_ops.md R195 to R208, 45_udp.md R221, R222, R225). -/

namespace Sys2Proof.Machine

/-! ### The operations of a sequence -/

/-- The operations that a sequence on socket `i` issues: of one register of it, or of one of its buffers, with as many data
bytes as the count says (R195, R221, R225). -/
inductive SocketOp (i : Sock) : Instr → Prop where
  | read (r : RegName) : SocketOp i (regRead Config.std i r)
  | write (r : RegName) (bytes : List Byte) (h : bytes.length < 65536) : SocketOp i (regWrite Config.std i r bytes)
  | load (p l : Half) (sz : BitVec 4) : SocketOp i (.cbRd (blockOf i .srx) p l sz)
  | store (p l : Half) (sz : BitVec 4) (wd : List Byte) (h : wd.length = l.toNat) :
      SocketOp i (.cbWr (blockOf i .stx) p l sz wd)

theorem ofNat_length {bytes : List Byte} (h : bytes.length < 65536) :
    bytes.length = (BitVec.ofNat 16 bytes.length).toNat := by
  rw [BitVec.toNat_ofNat, Nat.mod_eq_of_lt h]

theorem socketIssue_socketOp {c : SocketCall} {i : Sock} (h : c.sock = i) : SocketOp i (socketIssue Config.std c) := by
  subst h
  cases c with
  | hasInterrupt | getTxReadPointer | getTxWritePointer | getRxReadPointer => exact .read _
  | _ => exact .write _ _ (by simp [bytesBe16, addrBytes])

theorem taskIssue_socketOp {k : HostTask} {i : Instr} (h : taskIssue Config.std k = .ok i) : SocketOp k.sock i := by
  cases k with
  | sizeFirst | sizeSecond => cases h; exact .read _
  | sendPayload j p =>
    simp only [taskIssue] at h
    split at h
    · rename_i hl
      cases h
      exact .store _ _ _ _ (ofNat_length (of_decide_eq_true hl))
    · cases h
  | recvHeader => cases h; exact .load _ _ _
  | recvPayload j p hd =>
    rw [taskIssue_recvPayload] at h
    cases h
    exact .load _ _ _
  | _ => cases h; exact socketIssue_socketOp rfl

/-- How an operation of a sequence stands at its end, or where it has stopped, and that the host is as before (R208). -/
theorem SocketOp.ends {j : Sock} {i : Instr} {s t : State} (h : SocketOp j i) (he : exec i s = .next t) :
    SameOutside s t ∧ BusOutcome t := by
  obtain ⟨hbus, hwf⟩ : drivesBus i = true ∧ i.wellFormed = true := by
    cases h with
    | read r => exact ⟨rfl, countFits_half _⟩
    | write r bytes hl => exact ⟨rfl, wellFormed_frameWr.2 (ofNat_length hl)⟩
    | load p l sz => exact ⟨rfl, countFits_half l⟩
    | store p l sz wd hl => exact ⟨rfl, wellFormed_cbWr.2 hl⟩
  obtain ⟨-, hout, -, hend⟩ := busOperationFrame i s t hbus hwf he
  exact ⟨hout, hend⟩

/-- An operation of a sequence is about one block of its socket, which is not the common block (R195). -/
theorem SocketOp.keepsElsewhere {j : Sock} {i : Instr} {s t : State} (h : SocketOp j i) (he : exec i s = .next t) :
    ∃ r, r ≠ .common ∧ KeepsElsewhere (blockOf j r) s t := by
  cases h with
  | read r =>
    obtain ⟨hp, he⟩ := atIdle_next he
    cases he
    exact ⟨.sreg, nofun, runFrame_keepsElsewhere .read _ _ _ _ s hp (fun _ => rfl) nofun⟩
  | write r bytes hl =>
    obtain ⟨hp, he⟩ := atIdle_next he
    cases he
    exact ⟨.sreg, nofun, runFrame_keepsElsewhere .write _ _ _ _ s hp nofun fun _ => ofNat_length hl⟩
  | load p l sz =>
    obtain ⟨hp, rfl⟩ := bufferTransfer_next he
    exact ⟨.srx, nofun, splitTransfer_keepsElsewhere .read _ l _ _ s hp (fun _ => rfl) nofun nofun⟩
  | store p l sz wd hl =>
    obtain ⟨hp, rfl⟩ := bufferTransfer_next he
    obtain ⟨htake, hdrop, -⟩ := split_lengths p l sz wd hl
    exact ⟨.stx, nofun, splitTransfer_keepsElsewhere .write _ l _ _ s hp nofun (fun _ => htake) fun _ => hdrop⟩

/-- An operation of a sequence touches no byte of another socket's blocks, nor of the common block (R261). -/
theorem SocketOp.get_elsewhere {j : Sock} {i : Instr} {s t : State} (h : SocketOp j i) (he : exec i s = .next t)
    (ht : t.peer = .reference) {b : Block} {o : Half} (hb : blockSock b ≠ j ∨ blockRegion b = .common)
    (ha : byteKey b o.toNat ∉ pokedKeys s.env) :
    Memory.get t.pm (byteKey b o.toNat) = Memory.get s.pm (byteKey b o.toNat) := by
  obtain ⟨r, hr, hkeep⟩ := h.keepsElsewhere he
  refine hkeep.bytes ht _ ha fun o' hkey => ?_
  obtain ⟨rfl, -⟩ := byteKey_inj _ _ _ _ hkey
  rw [blockSock_blockOf, blockRegion_blockOf] at hb
  exact hb.elim (· rfl) hr

/-! ### What the host does with the answer -/

/-- The host goes on as the rules of its sequence say, or the sequence ends with a result (R208). -/
def State.takes (x : HostNext) (s : State) : State :=
  match x with
  | .go k => State.stands k s
  | .finish r => s.finish r

@[simp] theorem State.takes_res (x : HostNext) (s : State) : (State.takes x s).res = s.res := by cases x <;> rfl

@[simp] theorem State.takes_rdata (x : HostNext) (s : State) : (State.takes x s).rdata = s.rdata := by cases x <;> rfl

section
variable {s t : State} {k : HostTask} {i : Instr}

theorem taskAfter_open (hp : t.phase ≠ .idle) : taskAfter k t = t := by
  cases h : t.phase with
  | idle => exact absurd h hp
  | hdr => simp only [taskAfter, h]
  | data => simp only [taskAfter, h]

theorem taskAfter_ok (hend : BusOutcome t) (hr : t.res = .ok) :
    taskAfter k t = State.takes (taskReturn Config.std k t.rdata) t := by
  obtain ⟨hp, -, hresp⟩ := hend.ended (by simp [hr])
  rw [hr] at hresp
  simp only [taskAfter, hp, hresp]
  cases taskReturn Config.std k t.rdata <;> rfl

theorem taskAfter_busError {e : BusErr} (hend : BusOutcome t) (hr : t.res = .errBus e) :
    taskAfter k t = t.finish (.busError e) := by
  obtain ⟨hp, -, hresp⟩ := hend.ended (by simp [hr])
  rw [hr] at hresp
  simp only [taskAfter, hp, hresp]

theorem BusOutcome.cut (hend : BusOutcome t) (hp : t.phase = .idle) (hr : t.res = .none) : t.resp = .cut := by
  obtain ⟨-, -, h, -⟩ | ⟨-, -, -, h⟩ | ⟨h, -⟩ := hend
  · exact absurd hr h
  · exact h
  · exact absurd hp h

/-- An operation whose exchange does not return stays where it is (R252; log entry 37). -/
theorem BusOutcome.stays (hend : BusOutcome t) (hp : t.phase ≠ .idle) : fteStep t = t := by
  obtain ⟨h, -⟩ | ⟨h, -⟩ | ⟨-, -, -, h⟩ := hend
  · exact absurd h hp
  · exact absurd h hp
  · exact h

theorem taskAfter_cut (hend : BusOutcome t) (hp : t.phase = .idle) (hr : t.res = .none) :
    taskAfter k t = t.finish .cut := by
  simp only [taskAfter, hp, hend.cut hp hr]

/-- At a position that has the bus the step runs the operation issued there (R17 (a), R261). -/
theorem step_issue (hb : HasBus s k) (hi : taskIssue Config.std k = .ok i) (he : exec i s.due = .next t) :
    step s = .next (taskAfter k t) := by
  rw [step_task s k hb, taskMove, hi]
  simp only [he]

/-- A refusal of the unit ends the sequence with its reason (R231, R243; log entry 8). -/
theorem step_issue_refused {r : Refusal} (hb : HasBus s k) (hi : taskIssue Config.std k = .ok i)
    (he : exec i s.due = .refused r) (hret : returnedToHost r = true) :
    step s = .next (s.due.finish (.refused r)) := by
  rw [step_task s k hb, taskMove, hi]
  simp only [he, hret, if_true]

end

/-! ### The rules of a position, in numbers -/

theorem be16At_toNat (bs : List Byte) (n : Nat) :
    (be16At bs n).toNat = (bs.getD n 0).toNat * 256 + (bs.getD (n + 1) 0).toNat := be16_toNat _ _

/-- The values a pair of samples is taken for (R207; log entry 19). -/
theorem taskReturn_stable (u : SizeUser) {s0 : Half} {bs : List Byte} (h : s0 = be16At bs 0) (h8 : 8 ≤ s0.toNat) :
    taskReturn Config.std (.sizeSecond u s0) bs =
      match u with
      | .get _ => .finish (.size s0)
      | .recv j => .go (.recvPointer j) := by
  rw [taskReturn, if_pos ⟨h, .inr h8⟩]
  cases u with
  | get i => rfl
  | recv j => exact if_neg (Nat.not_lt.2 h8)

theorem taskReturn_unstable (u : SizeUser) {s0 : Half} {bs : List Byte} (h : ¬ (s0 = be16At bs 0 ∧ 8 ≤ s0.toNat)) :
    taskReturn Config.std (.sizeSecond u s0) bs = .go (.sizeFirst u) := by
  rw [taskReturn, if_neg]
  rintro ⟨heq, hgate | h8⟩
  · exact absurd hgate nofun
  · exact h ⟨heq, h8⟩

theorem flagSet_eq_decide (v flag : Byte) : flagSet v flag = decide (v &&& flag ≠ 0) := (decide_not ..).symm

theorem pollAgain_eq (j : SendJob) (n : Nat) :
    pollAgain j n = if n = 0 then .finish .sendTimeout else .go (.sendPoll j n) := by
  cases n <;> rfl

/-- A poll finds the flag, or is the last, or takes one from the polls that are left (R222, R242; log entry 29). -/
theorem taskReturn_sendPoll (j : SendJob) (left : Nat) (bs : List Byte) :
    taskReturn Config.std (.sendPoll j left) bs =
      if (bs.getD 0 0 &&& Config.std.irqSendDone) ≠ 0 then .go (.sendClear j)
      else if left ≤ 1 then .finish .sendTimeout
      else .go (.sendPoll j (left - 1)) := by
  simp only [taskReturn, flagSet_eq_decide, pollAgain_eq, decide_eq_true_eq, Nat.sub_eq_zero_iff_le]

end Sys2Proof.Machine
end

section
/-! PROOFS of the statements about host sequences, third part: the three statements of 44_socket_ops.md. -/

namespace Sys2Proof.Machine

/-- Settles O56: the operation issued at a position ends in one of the ways of `BusOutcome`, the host takes each of them as
`taskAfter` says, and the rule of the position is `taskReturn`'s. -/
theorem sequenceStep : Obligations.SequenceStep := by
  intro s k i hb hi
  have hop := taskIssue_socketOp hi
  refine ⟨fun r hr hret => ?_, fun t ht => ?_⟩
  · rw [step_issue_refused hb hi hr hret, State.finish, State.due_results]
  obtain ⟨-, hend⟩ := hop.ends ht
  have hstep := step_issue hb hi ht
  refine ⟨fun hpeer b o hbo ha => ?_, fun hp => ?_, fun hp hr => ?_, fun e hr => ?_, fun hr => ?_⟩
  · rw [hop.get_elsewhere ht hpeer hbo (by simpa using ha), State.due_pm]
  · rw [hstep, taskAfter_open hp]
  · rw [hstep, taskAfter_cut hend hp hr, State.finish]
  · rw [hstep, taskAfter_busError hend hr, State.finish]
  rw [taskAfter_ok hend hr] at hstep
  simp only [← be16At_toNat, BitVec.toNat_inj]
  cases k with
  | socket c =>
    cases c with
    | hasInterrupt =>
      rw [taskReturn, socketReturn, flagSet_eq_decide] at hstep
      exact hstep
    | getTxReadPointer | getTxWritePointer | getRxReadPointer => exact ⟨_, rfl, hstep⟩
    | _ => exact hstep
  | sizeFirst | sendPointer | recvPointer => exact ⟨_, rfl, hstep⟩
  | sizeSecond u s0 =>
    dsimp only
    split_ifs with h
    · rw [taskReturn_stable u h.1 h.2] at hstep
      cases u <;> exact hstep
    · rw [taskReturn_unstable u h] at hstep
      exact hstep
  | sendCommand j =>
    rw [taskReturn, pollAgain_eq] at hstep
    dsimp only
    split_ifs at hstep ⊢ <;> exact hstep
  | sendPoll j left =>
    rw [taskReturn_sendPoll] at hstep
    dsimp only
    split_ifs at hstep ⊢ <;> exact hstep
  | recvHeader => exact ⟨_, rfl, rfl, rfl, hstep⟩
  | _ => exact hstep

/-- Settles O58: both reads of a round are one FRAME.RD of two bytes, so a read that succeeds has a sample. -/
theorem receiveSizeStable : Obligations.ReceiveSizeStable := by
  intro s u k hb hk
  have hi : taskIssue Config.std k = .ok (regRead Config.std u.sock .receivedSize) := by
    obtain rfl | ⟨s0, rfl⟩ := hk <;> rfl
  have ht := exec_frameRd (blockOf u.sock .sreg) (Config.std.roff .receivedSize) 2 s.due (by simp [hb.1])
  have hlen := runFrame_read_rdata (blockOf u.sock .sreg) (Config.std.roff .receivedSize) 2 s.due
  generalize runFrame .read (blockOf u.sock .sreg) (Config.std.roff .receivedSize) 2 [] s.due = t at ht hlen
  obtain ⟨⟨hprog, htask, -, -, hres, -⟩, hend⟩ := (taskIssue_socketOp hi).ends ht
  rw [State.due_results] at hres
  refine ⟨_, step_issue hb hi ht, ?_⟩
  cases hr : t.res with
  | errBus e =>
    rw [taskAfter_busError hend hr]
    exact .inl ⟨e, hr, rfl, congrArg (· ++ _) hres⟩
  | none =>
    by_cases hp : t.phase = .idle
    · rw [taskAfter_cut hend hp hr]
      exact .inr (.inl ⟨hr, hp, rfl, congrArg (· ++ _) hres⟩)
    · rw [taskAfter_open hp]
      have hn : NoReset t := fun rest h => hb.2.1 rest (by simpa [hprog] using h)
      have hstep := (step_frame t hn hp).trans (congrArg _ (hend.stays hp))
      exact .inr (.inr (.inl ⟨hr, hp, htask.trans hb.2.2, hres, hstep⟩))
  | ok =>
    obtain ⟨h, l, hdata⟩ := List.length_eq_two.1 (hlen (by simp [hr]))
    rw [taskAfter_ok hend hr]
    refine .inr (.inr (.inr ⟨by simp [hr], h, l, by simp [hdata], ?_⟩))
    rw [hdata]
    obtain rfl | ⟨s0, rfl⟩ := hk
    · exact ⟨rfl, hres⟩
    · dsimp only
      split_ifs with hs
      · rw [taskReturn_stable u (bs := [h, l]) hs.1 hs.2]
        cases u with
        | get => exact ⟨rfl, congrArg (· ++ _) hres⟩
        | recv => exact ⟨rfl, hres⟩
      · rw [taskReturn_unstable u (bs := [h, l]) hs]
        exact ⟨rfl, hres⟩

/-- Settles O55: the frames are the definitions' own, at the block that the socket's block-select operation answers. -/
theorem socketCallFrames : Obligations.SocketCallFrames := by
  refine ⟨fun i => ⟨_, blockOp_answers .sreg i, ?_⟩, fun _ => rfl,
    fun u => ⟨_, blockOp_answers .sreg u.sock, rfl, fun _ => rfl⟩,
    fun j p left => ⟨_, blockOp_answers .stx j.sock, rfl, rfl, rfl, ?_, rfl, rfl, rfl, rfl⟩,
    fun j p h data => ⟨_, blockOp_answers .srx j.sock, rfl, rfl, taskIssue_recvPayload j p h, rfl, rfl⟩⟩
  · exact ⟨fun _ => rfl, fun _ => rfl, fun _ => rfl, fun _ => rfl, fun _ => rfl, fun _ => rfl, rfl, rfl, rfl, fun _ => rfl,
      fun _ => rfl, fun _ => rfl, fun _ => rfl, fun _ => rfl⟩
  · simp [taskIssue]

end Sys2Proof.Machine
end

section
/-! PROOFS of the statement about the polls of udp_send (45_udp.md R222, 60_exceptions.md R242). One poll on a quiet bus is
one frame that takes one from the polls that are left; SendTimeout follows by induction on how many are left. -/

namespace Sys2Proof.Machine

/-! ### A position on a quiet bus, in steps and frames -/

theorem HasBus.stands {s : State} {k : HostTask} (hb : HasBus s k) (ht : s.turns = []) (hr : s.peer = .reference)
    (hv : Quiet s.env) : Stands s k s.pm s := by
  obtain ⟨hphase, -, htask⟩ := hb
  exact ⟨hphase, due_nil s ht ▸ htask, rfl, rfl, ht, rfl, hr, hv, rfl, rfl, rfl⟩

theorem Stands.hasBus {s0 s : State} {k : HostTask} {pm : List Host.Cell} (h : Stands s0 k pm s) (hn : NoReset s0) :
    HasBus s k :=
  ⟨h.phase, fun rest => h.program ▸ hn rest, (due_nil s h.turns).symm ▸ h.task⟩

theorem after_succ {s t : State} (h : step s = .next t) (n : Nat) : s.after (n + 1) = t.after n := by
  simp only [State.after, h]

@[simp] theorem taskAfter_trace (k : HostTask) (s : State) : (taskAfter k s).trace = s.trace := by
  unfold taskAfter
  repeat' split
  all_goals rfl

theorem exchanges_count_selA (xs : List (Byte × Byte)) : (exchanges xs).count .selA = 0 :=
  List.count_eq_zero.2 (by simp [exchanges])

/-- A frame on a quiet bus asserts bus-select once (R153, R154). -/
theorem runFrame_count_selA {d : Dir} {b : Block} {o n : Half} {wd : List Byte} {s : State}
    (hw : d = .write → wd.length = n.toNat) (hv : Quiet s.env) :
    (runFrame d b o n wd s).trace.count .selA = s.trace.count .selA + 1 := by
  obtain ⟨r0, r1, r2, rs, -, -, -, htr⟩ := runFrame_complete d b o n wd s hw (firstStop_quiet hv _)
  rw [htr]
  simp [List.count_append, exchanges_count_selA]

/-- A position that issues a frame asserts bus-select once (R195). -/
theorem step_count_selA {s0 s u : State} {k : HostTask} {pm : List Host.Cell} {i : Instr} {d : Dir} {b : Block} {o n : Half}
    {wd : List Byte} (h : Stands s0 k pm s) (hn : NoReset s0) (hi : taskIssue Config.std k = .ok i)
    (he : exec i s = .next (runFrame d b o n wd s)) (hw : d = .write → wd.length = n.toNat) (hu : step s = .next u) :
    u.trace.count .selA = s.trace.count .selA + 1 := by
  rw [step_issue (h.hasBus hn) hi (by rwa [due_nil s h.turns])] at hu
  cases hu
  rw [taskAfter_trace]
  exact runFrame_count_selA hw h.quiet

/-! ### The send command and one poll -/

section
variable {s0 s : State} {j : SendJob} {pm : List Host.Cell} {n : Nat}

/-- The send-completion flag is not set in the interrupt register that a memory holds (R222; log entry 29). -/
def FlagClear (pm : List Host.Cell) (i : Sock) : Prop :=
  ((regBytes pm i .interrupt).getD 0 0 &&& Config.std.irqSendDone) = 0

/-- The memory once the send command is written (R206, R221). -/
def sendCommanded (pm : List Host.Cell) (i : Sock) : List Host.Cell :=
  Memory.set pm (byteKey (blockOf i .sreg) (Config.std.roff .command).toNat) (Config.std.cmd .send)

theorem flagClear_sendCommanded {i : Sock} (h : FlagClear pm i) : FlagClear (sendCommanded pm i) i := by
  have hkey : byteKey (blockOf i .sreg) (Config.std.roff .interrupt).toNat ≠
      byteKey (blockOf i .sreg) (Config.std.roff .command).toNat :=
    fun h => absurd (byteKey_inj _ _ _ _ h).2 (by decide)
  simpa [FlagClear, regBytes, regWidth, sendCommanded, Memory.get_set_other _ _ _ _ hkey] using h

/-- The send command is one frame, and the polls come next (R221 steps 5 and 6). -/
theorem sendCommand_step (h : Stands s0 (.sendCommand j) pm s) (hn : NoReset s0) :
    ∃ u, step s = .next u ∧ After s0 (pollAgain j j.retryMax) (sendCommanded pm j.sock) u ∧
      u.trace.count .selA = s.trace.count .selA + 1 := by
  obtain ⟨u, hu, hafter⟩ := stands_write (bytes := [Config.std.cmd .send]) h hn rfl (by decide) (by decide) _ fun _ => rfl
  exact ⟨u, hu, hafter, step_count_selA h hn rfl (exec_frameWr _ _ _ _ s h.phase) (fun _ => rfl) hu⟩

/-- A poll that does not find the flag is one frame, and takes one from the polls that are left (R222). -/
theorem sendPoll_step (h : Stands s0 (.sendPoll j n) pm s) (hn : NoReset s0) (hf : FlagClear pm j.sock) :
    ∃ u, step s = .next u ∧ After s0 (pollAgain j (n - 1)) pm u ∧
      u.trace.count .selA = s.trace.count .selA + 1 := by
  obtain ⟨u, hu, hafter⟩ := stands_read (r := .interrupt) h hn rfl
  rw [taskReturn, if_neg (by simpa [flagSet, FlagClear] using hf)] at hafter
  exact ⟨u, hu, hafter, step_count_selA h hn rfl (exec_frameRd _ _ _ s h.phase) nofun hu⟩

/-! ### The polls -/

/-- From `s` on the machine makes `n` polls of `j`, each one step and one frame, and then the sequence ends with SendTimeout
(R222, R242). -/
structure PollsOut (s0 : State) (j : SendJob) (pm : List Host.Cell) (n : Nat) (s : State) : Prop where
  polls : ∀ k, k < n → ∃ u, s.after k = some u ∧ Stands s0 (.sendPoll j (n - k)) pm u
  timesOut : ∃ t, s.after n = some t ∧ Ended s0 .sendTimeout pm t ∧ t.trace.count .selA = s.trace.count .selA + n

theorem pollsOut (hn : NoReset s0) (hf : FlagClear pm j.sock) (h : Stands s0 (.sendPoll j (n + 1)) pm s) :
    PollsOut s0 j pm (n + 1) s := by
  induction n generalizing s with
  | zero =>
    obtain ⟨u, hu, hafter, hcount⟩ := sendPoll_step h hn hf
    refine ⟨fun k hk => ?_, u, after_succ hu 0, hafter, hcount⟩
    obtain rfl : k = 0 := by omega
    exact ⟨s, rfl, h⟩
  | succ n ih =>
    obtain ⟨u, hu, hafter, hcount⟩ := sendPoll_step h hn hf
    obtain ⟨hpolls, t, ht, hend, hc⟩ := ih hafter
    refine ⟨fun k hk => ?_, t, (after_succ hu _).trans ht, hend, by omega⟩
    cases k with
    | zero => exact ⟨s, rfl, h⟩
    | succ k =>
      rw [after_succ hu, Nat.add_sub_add_right]
      exact hpolls k (by omega)

end

/-- Settles O57: the command leaves the flag as it is and hands over to the polls, which run out one by one. -/
theorem sendPollTimesOut : Obligations.SendPollTimesOut := by
  refine ⟨fun s j hmax hb ht hr hv hf => ?_, fun n s j hpos hb ht hr hv hf => ?_⟩ <;>
    have hn : NoReset s := hb.2.1
  · obtain ⟨m, hm⟩ := Nat.exists_eq_add_one.2 hmax
    obtain ⟨u, hu, hafter, hcount⟩ := sendCommand_step (HasBus.stands hb ht hr hv) hn
    rw [hm] at hafter ⊢
    obtain ⟨hpolls, t, hat, hend, hc⟩ := pollsOut hn (flagClear_sendCommanded hf) hafter
    refine ⟨fun k hk => ?_, t, (after_succ hu _).trans hat, hend.task, hend.results, by omega, ?_, fun a ha => ?_⟩
    · obtain ⟨v, hav, hst⟩ := hpolls k hk
      exact ⟨v, (after_succ hu _).trans hav, hst.task, hst.results⟩
    · simp [sockReg_regBytes, hend.pm, sendCommanded, regBytes, regWidth, Memory.get_set_same]
    · rw [hend.pm, sendCommanded, Memory.get_set_other _ _ _ _ ha]
  · obtain ⟨m, rfl⟩ := Nat.exists_eq_add_one.2 hpos
    obtain ⟨hpolls, t, hat, hend, hc⟩ := pollsOut hn hf (HasBus.stands hb ht hr hv)
    refine ⟨fun k hk => ?_, t, hat, hend.task, hend.results, hend.pm, hc⟩
    obtain ⟨u, hau, hst⟩ := hpolls k hk
    exact ⟨u, hau, hst.task, hst.results⟩

end Sys2Proof.Machine
end

section
/-! PROOFS of the statement about the refusals of the unit (60_exceptions.md R243). What a refused packet's move is, for
the two ways to be refused: by the decoder, for an operation code that selects nothing, and by `exec`; then one lemma per
row of R243's table, and the table as a whole. -/

namespace Sys2Proof.Machine

/-! ### A refused packet -/

/-- At PHASE = IDLE the packet is refused for the reason `r`, which the host gets with nothing else changed. -/
def PacketRefused (p : Packet) (r : Refusal) : Prop :=
  ∀ s : State, s.phase = .idle →
    packetMove p s = .next { s with resp := .refused r, results := s.results ++ [.op (.refused r)] }

section
variable {k : BitVec 5} {x : Operands} {i : Instr} {r : Refusal}

/-- A refusal of the unit's own goes to the host, who goes on (R243, log entry 8). -/
theorem opAfter_refused (s : State) (hr : returnedToHost r = true) :
    opAfter s (.refused r) = .next { s with resp := .refused r, results := s.results ++ [.op (.refused r)] } :=
  if_pos hr

/-- An operation code that selects nothing is BAD_OP (R93). -/
theorem packetRefused_of_badOpsel (hd : decodeCmd k x = .error .badOpsel) : PacketRefused (.cmd k x) .badOp := by
  intro s _
  rw [packetMove, decodeRest, hd]
  exact opAfter_refused s rfl

/-- An operation that is refused whatever the unit's state. -/
theorem packetRefused_of_exec (hr : returnedToHost r = true) (hd : decodeCmd k x = .ok i)
    (he : ∀ s : State, s.phase = .idle → exec i s = .refused r) : PacketRefused (.cmd k x) r := by
  intro s hs
  have hdec : decodeRest (.cmd k x) = .ok (i, []) := by rw [decodeRest, hd]; rfl
  rw [packetMove_ok s hdec, he (State.onWire [] s) hs]
  exact opAfter_refused s hr

/-! ### The rows of R243's table -/

/-- R93: the eleven operation codes that select nothing. -/
theorem decodeCmd_unassigned (x : Operands)
    (hk : k.toNat ∈ [0x07, 0x0C, 0x0D, 0x0E, 0x0F, 0x13, 0x14, 0x15, 0x16, 0x17, 0x1F]) :
    decodeCmd k x = .error .badOpsel := by
  unfold decodeCmd
  split
  case h_22 => rfl
  all_goals
    rename_i hassigned
    simp [hassigned] at hk

/-- R93, R117, R118: ROFF and RADDR on a code that is no name. -/
theorem packetRefused_regName (hk : k.toNat ∈ [0x05, 0x06]) (hx : 12 ≤ x.r.toNat) : PacketRefused (.cmd k x) .badOp := by
  have hn := regNameOf_none hx
  obtain hk | hk : k.toNat = 0x05 ∨ k.toNat = 0x06 := by simpa using hk
  · obtain rfl : k = 0x05 := BitVec.eq_of_toNat_eq hk
    exact packetRefused_of_exec rfl rfl fun _ => roff_refused hn
  · obtain rfl : k = 0x06 := BitVec.eq_of_toNat_eq hk
    exact packetRefused_of_exec rfl rfl fun _ => raddr_refused x.i hn

/-- R179: CB.RD of more than the buffer holds. -/
theorem packetRefused_cbRd (hk : k.toNat = 0x1D) (hl : 2 ^ x.szlog2.toNat < x.l.toNat) :
    PacketRefused (.cmd k x) .oversize := by
  obtain rfl : k = 0x1D := BitVec.eq_of_toNat_eq hk
  exact packetRefused_of_exec rfl (decodeCmd_cbRd x) fun _ hs =>
    bufferTransfer_oversize .read x.b x.p [] hs (cpSplit_oversize x.p x.l x.szlog2 hl).1

/-- R179: CB.WR of more than the buffer holds. -/
theorem packetRefused_cbWr (hk : k.toNat = 0x1E) (hl : 2 ^ x.szlog2.toNat < x.l.toNat)
    (hw : x.wdata.length = x.l.toNat) : PacketRefused (.cmd k x) .oversize := by
  obtain rfl : k = 0x1E := BitVec.eq_of_toNat_eq hk
  exact packetRefused_of_exec rfl (decodeCmd_cbWr hw) fun _ hs =>
    bufferTransfer_oversize .write x.b x.p x.wdata hs (cpSplit_oversize x.p x.l x.szlog2 hl).1

/-- The length mode is bits 1:0 of the third header byte (R133, log entry 12). -/
theorem hdrDec_om_toNat (h : Header) : (hdrDec Config.std h).om.toNat = h.h2.toNat % 4 := by
  simp [hdrDec, ctlDec, Config.std]

/-- R159: FRAME.PARSE of a captured header in another length mode. -/
theorem packetRefused_frameParse (hk : k.toNat = 0x12) (ht : 3 ≤ x.t.length)
    (hm : (x.t.getD 2 (0, 0)).1.toNat % 4 ≠ 0) : PacketRefused (.cmd k x) .badMode := by
  obtain rfl : k = 0x12 := BitVec.eq_of_toNat_eq hk
  refine packetRefused_of_exec rfl rfl ?_
  match x.t, ht, hm with
  | x0 :: x1 :: x2 :: xs, _, hm =>
    exact frameParse_badMode x0 x1 x2 xs fun hvdm =>
      hm ((hdrDec_om_toNat { h0 := x0.1, h1 := x1.1, h2 := x2.1 }).symm.trans (congrArg BitVec.toNat hvdm))

end

/-- What the table of R243 refuses is refused, for the table's reason: row by row. -/
theorem packetRefused_of_refusedWith {p : Packet} {r : Refusal} (h : refusedWith p = some r) : PacketRefused p r := by
  cases p with
  | wire bytes => cases h
  | cmd k x =>
    simp only [refusedWith] at h
    split_ifs at h with hcode hname hrd hwr hmode <;> obtain rfl := Option.some.inj h
    · exact packetRefused_of_badOpsel (decodeCmd_unassigned x hcode)
    · exact packetRefused_regName hname.1 hname.2
    · exact packetRefused_cbRd hrd.1 hrd.2
    · exact packetRefused_cbWr hwr.1 hwr.2.1 hwr.2.2
    · exact packetRefused_frameParse hmode.1 hmode.2.1 hmode.2.2

/-- Settles O45: the step is the packet's move, and the table's refusals are the packet's. -/
theorem refusalsChangeNothing : Obligations.RefusalsChangeNothing := by
  refine ⟨⟨rfl, rfl, rfl⟩, fun s p rest r h hp hr => ?_⟩
  rw [step_op s p rest h hp, packetRefused_of_refusedWith hr _ (by simpa using h.1), State.goesOn_results,
    State.due_results]
  rfl

end Sys2Proof.Machine
end

section
/-! PROOFS of the statements about a reset of the unit and about an open frame (70_reset_and_hazards.md R266, 42_frame.md
R146, 20_memory.md R66): what a reset item does between operations and in an open frame, and how each kind of operation stops
when it is presented there. -/

namespace Sys2Proof.Machine

/-! ### A reset of the unit -/

/-- A reset cuts an open frame by the release of bus-select and sends nothing else (R266). -/
theorem fuReset_trace_append (s : State) :
    (fuReset s).trace = s.trace ++ (if s.sel = .asserted then [.selR] else []) := by
  rw [fuReset_trace]
  split
  · rfl
  · exact (List.append_nil _).symm

/-- The host learns of the cut as the sequence that had the bus, or as the one who issued the operation (log entry 28). -/
theorem State.hostCut_eq (s : State) :
    s.hostCut = { s with task := none, results := s.results ++ [if s.task = none then .op .cut else .cut] } := by
  unfold State.hostCut
  split <;> rename_i h
  · rw [if_neg (by simp [h])]
    rfl
  · rw [if_pos h, ← h]
    rfl

theorem resetMove_idle {s : State} (hp : s.phase = .idle) : resetMove s = fuReset s := by
  simp only [resetMove, hp]

/-- In an open frame a reset gives up the exchange that has not returned (R266, log entry 28). -/
theorem resetMove_open {s : State} (hp : s.phase ≠ .idle) :
    resetMove s = State.hostCut (State.cut (State.withEnv (dropHang s.env) s)) := by
  cases h : s.phase with
  | idle => exact absurd h hp
  | hdr => simp only [resetMove, h]
  | data => simp only [resetMove, h]

/-- Settles O54: a reset item finds the unit between two operations or in an open frame; a reset of the script is
`State.cut`. -/
theorem unitReset : Obligations.UnitReset := by
  refine ⟨fun s rest h => ⟨_, step_reset s rest h, ?_⟩,
    fun s => ⟨_, rfl, rfl, rfl, rfl, rfl, fuReset_trace_append s, rfl, rfl, rfl, by simp [SameOutside]⟩⟩
  by_cases hp : s.phase = .idle
  · rw [resetMove_idle (s := State.goesOn rest s) hp]
    exact ⟨rfl, rfl, rfl, fuReset_trace_append (State.goesOn rest s), rfl, rfl, rfl, rfl, rfl, rfl, rfl,
      fun _ => ⟨rfl, rfl, rfl⟩, fun hn => absurd hp hn⟩
  · rw [resetMove_open (s := State.goesOn rest s) hp, State.hostCut_eq]
    exact ⟨rfl, rfl, rfl, fuReset_trace_append (State.goesOn rest s), rfl, rfl, rfl, rfl, rfl, rfl, rfl,
      fun hi => absurd hi hp, fun _ => ⟨rfl, rfl, rfl, rfl⟩⟩

/-! ### An operation inside an open frame -/

section
variable {s : State} (hp : s.phase ≠ .idle)
include hp

theorem atIdle_busy (k : Host.Outcome State Fault Refusal) : atIdle s k = .fault .commandWhileBusy := by
  cases h : s.phase with
  | idle => exact absurd h hp
  | hdr => simp only [atIdle, h]
  | data => simp only [atIdle, h]

theorem execRoff_busy (r : BitVec 4) : execRoff r s = .fault .commandWhileBusy := by
  unfold execRoff
  split <;> exact atIdle_busy hp _

theorem execRaddr_busy (i : Sock) (r : BitVec 4) : execRaddr i r s = .fault .commandWhileBusy := by
  unfold execRaddr
  split <;> exact atIdle_busy hp _

theorem execFrameParse_busy (xs : List (Byte × Byte)) : execFrameParse xs s = .fault .commandWhileBusy := by
  unfold execFrameParse
  split
  · dsimp only
    split <;> exact atIdle_busy hp _
  · exact atIdle_busy hp _

theorem onFreeBus_busy (f : HdrFields) (k : Host.Outcome State Fault Refusal) :
    onFreeBus s f k = .fault .frameInterleaved := by
  cases h : s.phase with
  | idle => exact absurd h hp
  | hdr => simp only [onFreeBus, h]
  | data => simp only [onFreeBus, h]

theorem peerRefusal_busy (r : Refusal) : peerRefusal r s = .fault .frameInterleaved := by
  cases h : s.phase with
  | idle => exact absurd h hp
  | hdr => simp only [peerRefusal, h]
  | data => simp only [peerRefusal, h]

end

/-- Settles O42: an operation of the port is accepted at IDLE only, a frame at the peer needs the free bus. -/
theorem busyStops : Obligations.BusyStops := by
  intro i s hp
  cases i with
  | roff r => exact execRoff_busy hp r
  | raddr i r => exact execRaddr_busy hp i r
  | frameParse xs => exact execFrameParse_busy hp xs
  | wRdCommon | wWrCommon | wRdSreg | wWrSreg | wRdStx | wWrStx | wRdSrx | wWrSrx => exact onFreeBus_busy hp _ _
  | wRsvBsb | wRsvOm1 | wRsvOm2 | wRsvOm3 => exact peerRefusal_busy hp _
  | _ => exact atIdle_busy hp _

end Sys2Proof.Machine
end

section
/-! PROOFS of the statements about the values from general knowledge (30_encoding.md R82 to R84, R92, 40_address.md R117): the
default offset table, the control byte in numbers, and words of the spec's examples. -/

namespace Sys2Proof.Machine

/-! ### The default offset table (log entry 13) -/

theorem mem_regNames (r : RegName) : r ∈ regNames := by cases r <;> decide

/-- Two registers of a socket's block have no byte in common (R117). -/
theorem roff_apart {r r' : RegName} (h : r ≠ r') :
    (Config.std.roff r).toNat + regWidth r ≤ (Config.std.roff r').toNat ∨
    (Config.std.roff r').toNat + regWidth r' ≤ (Config.std.roff r).toNat := by
  have hall : ∀ r ∈ regNames, ∀ r' ∈ regNames, r ≠ r' →
      (Config.std.roff r).toNat + regWidth r ≤ (Config.std.roff r').toNat ∨
      (Config.std.roff r').toNat + regWidth r' ≤ (Config.std.roff r).toNat := by decide
  exact hall r (mem_regNames r) r' (mem_regNames r') h

/-- A name code selects the name at its place in R91's list. -/
theorem roff_answers_regNames (k : Fin 12) :
    Answers (.roff (BitVec.ofNat 4 k.val)) (.offset (Config.std.roff regNames[k.val])) := by
  refine roff_answers _ _ ?_
  rw [regNameOf_eq_regNames, BitVec.toNat_ofNat, Nat.mod_eq_of_lt (by omega)]
  exact List.getElem?_eq_getElem k.isLt

/-- The model's offsets in the order of R91 (R117). -/
theorem roff_regNames : ∀ k : Fin 12, Config.std.roff regNames[k.val] =
    ([0x0000, 0x0001, 0x0002, 0x002C, 0x0004, 0x000C, 0x0010, 0x0022, 0x0024, 0x0028, 0x002A, 0x0026] : List Half).getD k.val 0 := by
  decide

/-- The model's register widths in the order of R91 (R32). -/
theorem regWidth_regNames : ∀ k : Fin 12,
    regWidth regNames[k.val] = ([1, 1, 1, 1, 2, 4, 2, 2, 2, 2, 2, 2] : List Nat).getD k.val 0 := by
  decide

/-- Settles O5: offsets and widths in the order of R91's list, and pairwise apart. -/
theorem defaultOffsetTable : Obligations.DefaultOffsetTable :=
  ⟨fun k => ⟨_, List.getElem?_eq_getElem k.isLt, roff_regNames k ▸ roff_answers_regNames k, regWidth_regNames k⟩,
    fun _ _ => roff_apart⟩

/-! ### The control byte in numbers (log entry 12) -/

theorem ctlEnc_ofNat : ∀ (b : Block) (d : Dir) (om : BitVec 2),
    ctlEnc Config.std b d om = BitVec.ofNat 8 (8 * b.toNat + 4 * (dirBit d).toNat + om.toNat) := by
  intro b d om
  cases d <;> revert b om <;> decide

theorem ctlDec_ofNat : ∀ c : Byte, ctlDec Config.std c =
    { bsb := BitVec.ofNat 5 (c.toNat / 8)
      dir := if c.toNat / 4 % 2 = 1 then .write else .read
      om := BitVec.ofNat 2 (c.toNat % 4) } := by
  decide

/-- Settles O6: the decoder's two codes, and the three fields at their places in both directions. -/
theorem controlByteLayout : Obligations.ControlByteLayout := by
  refine ⟨fun _ => rfl, fun _ => rfl, fun b d om => ?_, fun c => ctlDec_ofNat c ▸ ctlDec_answers c⟩
  have h := ctlEnc_answers b d om
  rw [ctlEnc_ofNat] at h
  cases d <;> exact h

/-! ### Words of the spec's examples -/

/-- Settles O53: each word read by the decoder's tables. -/
theorem specWordsDecode : Obligations.SpecWordsDecode := by
  unfold Obligations.SpecWordsDecode
  decide

end Sys2Proof.Machine
end

section
/-! PROOFS of the statements about udp_send and udp_receive as a whole (45_udp.md R221 to R227): the call, then position after
position on a quiet bus, with the peer's memory as a chain of register writes and one buffer write. -/

namespace Sys2Proof.Machine

/-! ### The first move of a call -/

/-- A call of the program has begun its sequence. -/
def State.called (c : Call) (rest : List HostItem) (s : State) : State := State.stands (callStart c) (State.goesOn rest s)

/-- On a free bus, with nothing waiting on its socket, a call begins its sequence (R261). -/
theorem call_stands {s : State} {c : Call} {rest : List HostItem} (hf : HostFree s) (ht : s.turns = [])
    (hk : ∀ k ∈ s.parked, k.sock ≠ c.sock) (hp : s.program = .call c :: rest) (hr : s.peer = .reference)
    (hv : Quiet s.env) :
    step s = .next (s.called c rest) ∧ Stands (s.called c rest) (callStart c) s.pm (s.called c rest) := by
  refine ⟨?_, hf.1, rfl, rfl, rfl, ht, rfl, hr, hv, rfl, rfl, rfl⟩
  rw [step_call s c rest hf hp, due_nil s ht, callMove_of_absent rest hk]
  rfl

theorem after_trans {m n : Nat} {s t u : State} (h : s.after m = some t) (h' : t.after n = some u) :
    s.after (m + n) = some u := by
  induction m generalizing s with
  | zero =>
    cases h
    rwa [Nat.zero_add]
  | succ m ih =>
    rw [Nat.succ_add]
    simp only [State.after] at h ⊢
    split at h
    · exact ih h
    · cases h
    · cases h

/-! ### The peer's memory after a register write -/

theorem byteKey_ne {b b' : Block} {o o' : Nat} (hb : b ≠ b') (ho : o < 65536) (ho' : o' < 65536) :
    byteKey b o ≠ byteKey b' o' := by
  have hne : b.toNat ≠ b'.toNat := fun h => hb (BitVec.eq_of_toNat_eq h)
  simp only [byteKey]
  omega

theorem blockOf_region_ne {i i' : Sock} {r r' : Region} (h : r ≠ r') : blockOf i r ≠ blockOf i' r' := by
  intro he
  have hr := congrArg blockRegion he
  rw [blockRegion_blockOf, blockRegion_blockOf] at hr
  exact h hr

/-- The memory once the bytes of a register have been written (R195, R54). -/
def regWritten (pm : List Host.Cell) (i : Sock) (r : RegName) (bytes : List Byte) : List Host.Cell :=
  Memory.setAll pm (byteKey (blockOf i .sreg) (Config.std.roff r).toNat) bytes

section
variable {pm pm' : List Host.Cell} {i : Sock} {r r' : RegName} {bytes : List Byte}

theorem regBytes_congr (h : ∀ o < regWidth r,
    Memory.get pm' (byteKey (blockOf i .sreg) ((Config.std.roff r).toNat + o)) =
      Memory.get pm (byteKey (blockOf i .sreg) ((Config.std.roff r).toNat + o))) :
    regBytes pm' i r = regBytes pm i r := by
  refine List.map_congr_left fun o ho => ?_
  rw [h o (List.mem_range.1 ho)]

section
variable (hw : bytes.length = regWidth r)
include hw

theorem regWritten_get_other {a : Nat}
    (ha : ∀ o < regWidth r, a ≠ byteKey (blockOf i .sreg) ((Config.std.roff r).toNat + o)) :
    Memory.get (regWritten pm i r bytes) a = Memory.get pm a := by
  rw [regWritten, Memory.get_setAll, if_neg]
  rintro ⟨hlo, hhi⟩
  refine ha (a - byteKey (blockOf i .sreg) (Config.std.roff r).toNat) (by omega) ?_
  simp only [byteKey] at hlo ⊢
  omega

theorem regBytes_regWritten_same : regBytes (regWritten pm i r bytes) i r = bytes := by
  refine List.ext_getElem (by simp [regBytes, hw]) fun o _ ho => ?_
  simp only [regBytes, List.getElem_map, List.getElem_range, regWritten, Memory.get_setAll, byteKey]
  rw [if_pos (by omega), Nat.add_sub_add_left, Nat.add_sub_cancel_left, List.getElem?_eq_getElem ho, Option.getD_some]

/-- A write of one register leaves the bytes of the others: no two have a byte in common (R117). -/
theorem regBytes_regWritten_other (hr : r' ≠ r) : regBytes (regWritten pm i r bytes) i r' = regBytes pm i r' := by
  refine regBytes_congr fun o ho => regWritten_get_other hw fun o' ho' => ?_
  have hapart := roff_apart hr
  simp only [byteKey]
  omega

/-- A write of a register leaves the buffers alone. -/
theorem regWritten_get_buffer {i' : Sock} {region : Region} {o : Nat} (hr : region ≠ .sreg) (ho : o < 65536) :
    Memory.get (regWritten pm i r bytes) (byteKey (blockOf i' region) o) = Memory.get pm (byteKey (blockOf i' region) o) := by
  refine regWritten_get_other hw fun o' ho' => ?_
  have hroom := roff_room r
  exact byteKey_ne (blockOf_region_ne hr) ho (by omega)

end

/-- A position that writes a register in its whole width (R195). -/
theorem stands_regWrite {s0 s : State} {k : HostTask} (h : Stands s0 k pm s) (hn : NoReset s0)
    (hi : taskIssue Config.std k = .ok (regWrite Config.std i r bytes)) (hw : bytes.length = regWidth r) (x : HostNext)
    (hx : ∀ rdata, taskReturn Config.std k rdata = x) :
    ∃ u, step s = .next u ∧ After s0 x (regWritten pm i r bytes) u := by
  have hroom := roff_room r
  have hwidth : regWidth r ≤ 4 := by cases r <;> decide
  exact stands_write h hn hi (by omega) (by omega) x hx

/-! ### The peer's memory after a buffer write, and the bytes of a buffer -/

/-- From `pm` to `pm'` the bytes `wd` have been stored at the places of the tx buffer from pointer `p` on, and nothing else
(R177, R178). -/
structure BufferStored (i : Sock) (p : Half) (sz : BitVec 4) (wd : List Byte) (pm pm' : List Host.Cell) : Prop where
  stored : ∀ k < wd.length, Memory.get pm' (byteKey (blockOf i .stx) ((p.toNat + k) % 2 ^ sz.toNat)) = wd[k]?
  others : ∀ a, (∀ k < wd.length, a ≠ byteKey (blockOf i .stx) ((p.toNat + k) % 2 ^ sz.toNat)) →
    Memory.get pm' a = Memory.get pm a

theorem buffer_offset_lt (n : Nat) (sz : BitVec 4) : n % 2 ^ sz.toNat < 65536 :=
  Nat.lt_of_lt_of_le (Nat.mod_lt n (bufSize_pos sz)) ((bufSize_le sz).trans (by decide))

/-- A buffer write leaves the registers alone. -/
theorem BufferStored.regBytes {p : Half} {sz : BitVec 4} {wd : List Byte} (h : BufferStored i p sz wd pm pm') (r : RegName) :
    regBytes pm' i r = regBytes pm i r := by
  refine regBytes_congr fun o ho => h.others _ fun k _ => ?_
  have hroom := roff_room r
  exact byteKey_ne (blockOf_region_ne nofun) (by omega) (buffer_offset_lt _ sz)

/-- A position that writes a buffer, by what it leaves in the peer (R177, R221 step 3). -/
theorem stands_bufferStore {s0 s : State} {k : HostTask} {p l : Half} {sz : BitVec 4} {wd : List Byte}
    (h : Stands s0 k pm s) (hn : NoReset s0) (hi : taskIssue Config.std k = .ok (.cbWr (blockOf i .stx) p l sz wd))
    (hw : wd.length = l.toNat) (hl : l.toNat ≤ 2 ^ sz.toNat) (hb : 2 ^ sz.toNat ≤ blockLimit s0 (blockOf i .stx))
    (x : HostNext) (hx : ∀ rdata, taskReturn Config.std k rdata = x) :
    ∃ u pm', step s = .next u ∧ After s0 x pm' u ∧ BufferStored i p sz wd pm pm' := by
  rw [← blockLimit_congr s0 s _ h.txLog2 h.rxLog2] at hb
  obtain ⟨t, he, hres, hpeer, hquiet, hat, helse⟩ :=
    bufferWriteMemory s _ p l sz wd h.phase h.quiet hw hl (peerTakes_buffer s i .stx sz h.peer nofun hb)
  obtain ⟨hsame, hend⟩ := (taskIssue_socketOp hi).ends he
  obtain ⟨u, hu, hafter, -⟩ := stands_step h hn hi he hend hsame hres hpeer hquiet _ rfl x (hx _)
  rw [h.pm, ← hw] at helse
  rw [← hw] at hat
  exact ⟨u, t.pm, hu, hafter, hat, helse⟩

/-- The bytes of the rx buffer from position `p` on, around its end (R176). -/
def bufferBytes (pm : List Host.Cell) (i : Sock) (p : Nat) (sz : BitVec 4) (n : Nat) : List Byte :=
  (List.range n).map fun k =>
    (Memory.get pm (byteKey (blockOf i .srx) ((p + k) % 2 ^ sz.toNat))).getD
      (Config.peerInit (byteKey (blockOf i .srx) ((p + k) % 2 ^ sz.toNat)))

/-- The 16-bit wrap of a pointer does not show in the buffer: S divides 65536 (R174). -/
theorem bufferBytes_cpAdv (pm : List Host.Cell) (i : Sock) (p n : Half) (sz : BitVec 4) (len : Nat) :
    bufferBytes pm i (cpAdv p n).toNat sz len = bufferBytes pm i (p.toNat + n.toNat) sz len := by
  have hmod : ∀ k, ((cpAdv p n).toNat + k) % 2 ^ sz.toNat = (p.toNat + n.toNat + k) % 2 ^ sz.toNat := fun k => by
    rw [cpAdv, BitVec.toNat_add, ← Nat.mod_add_mod, ← bufSize, Nat.mod_mod_of_dvd _ (bufSize_dvd sz), Nat.mod_add_mod]
  simp only [bufferBytes, hmod]

/-- A position that reads a buffer (R176, R225 steps 3 and 4). -/
theorem stands_bufferBytes {s0 s : State} {k : HostTask} {p l : Half} {sz : BitVec 4} (h : Stands s0 k pm s)
    (hn : NoReset s0) (hi : taskIssue Config.std k = .ok (.cbRd (blockOf i .srx) p l sz)) (hl : l.toNat ≤ 2 ^ sz.toNat)
    (hb : 2 ^ sz.toNat ≤ blockLimit s0 (blockOf i .srx)) :
    ∃ u, step s = .next u ∧ After s0 (taskReturn Config.std k (bufferBytes pm i p.toNat sz l.toNat)) pm u :=
  stands_bufferRead h hn hi hl hb

end

theorem be16At_bytesBe16 (v : Half) : be16At (bytesBe16 v) 0 = v := be16_hi8_lo8 v

/-! ### udp_send -/

section
variable {s0 s : State} {j : SendJob} {pm pm' : List Host.Cell} {p : Half}

/-- The memory once the destination's address and port are written (R221 step 2). -/
def sendAddressed (pm : List Host.Cell) (j : SendJob) : List Host.Cell :=
  regWritten (regWritten pm j.sock .destAddress (addrBytes j.addr)) j.sock .destPort (bytesBe16 j.port)

/-- The memory once, behind the payload, the pointer, the command and the cleared flag are written (R221 steps 4 to 6). -/
def sendFinished (pm : List Host.Cell) (j : SendJob) (p : Half) : List Host.Cell :=
  regWritten
    (regWritten (regWritten pm j.sock .txWritePointer (bytesBe16 (p + BitVec.ofNat 16 j.payload.length))) j.sock .command
      [Config.std.cmd .send])
    j.sock .interrupt [Config.std.irqSendDone]

/-- The first four positions: the pointer is read, the destination written, the payload stored (R221 steps 1 to 3). -/
theorem sendPayload_steps (h : Stands s0 (.sendPointer j) pm s) (hn : NoReset s0)
    (hl : j.payload.length ≤ 2 ^ j.szlog2.toNat) (hb : 2 ^ j.szlog2.toNat ≤ blockLimit s0 (blockOf j.sock .stx))
    (hptr : regBytes pm j.sock .txWritePointer = bytesBe16 p) :
    ∃ u pm', s.after 4 = some u ∧ Stands s0 (.sendAdvance j p) pm' u ∧
      BufferStored j.sock p j.szlog2 j.payload (sendAddressed pm j) pm' := by
  have hlt : j.payload.length < 65536 := Nat.lt_of_le_of_lt (hl.trans (bufSize_le j.szlog2)) (by decide)
  have hlen := ofNat_length hlt
  have hissue : taskIssue Config.std (.sendPayload j p) =
      .ok (.cbWr (blockOf j.sock .stx) p (BitVec.ofNat 16 j.payload.length) j.szlog2 j.payload) := by
    simp [taskIssue, hlt]
  obtain ⟨s1, h1, hs1⟩ := stands_read (r := .txWritePointer) h hn rfl
  rw [taskReturn, hptr, be16At_bytesBe16] at hs1
  obtain ⟨s2, h2, hs2⟩ := stands_regWrite hs1 hn rfl rfl _ fun _ => rfl
  obtain ⟨s3, h3, hs3⟩ := stands_regWrite hs2 hn rfl rfl _ fun _ => rfl
  obtain ⟨s4, pm', h4, hs4, hbuf⟩ := stands_bufferStore hs3 hn hissue hlen (hlen ▸ hl) hb _ fun _ => rfl
  exact ⟨s4, pm', (after_succ h1 3).trans ((after_succ h2 2).trans ((after_succ h3 1).trans (after_succ h4 0))), hs4, hbuf⟩

/-- The last four positions, the flag being set: pointer and command are written, the first poll finds the flag, and the flag
is cleared (R221 steps 4 to 6). -/
theorem sendAdvance_steps (h : Stands s0 (.sendAdvance j p) pm s) (hn : NoReset s0) (hmax : 0 < j.retryMax)
    (hflag : flagSet ((regBytes pm j.sock .interrupt).getD 0 0) Config.std.irqSendDone = true) :
    ∃ u, s.after 4 = some u ∧ Ended s0 .sent (sendFinished pm j p) u := by
  obtain ⟨n, hn'⟩ := Nat.exists_eq_add_one.2 hmax
  have hpoll : ∀ rdata, taskReturn Config.std (.sendCommand j) rdata = .go (.sendPoll j (n + 1)) := fun _ => by
    rw [taskReturn, hn', pollAgain]
  obtain ⟨s1, h1, hs1⟩ := stands_regWrite h hn rfl rfl _ fun _ => rfl
  obtain ⟨s2, h2, hs2⟩ := stands_regWrite hs1 hn rfl rfl _ hpoll
  obtain ⟨s3, h3, hs3⟩ := stands_read (r := .interrupt) hs2 hn rfl
  have hkept : ∀ v, regBytes (regWritten (regWritten pm j.sock .txWritePointer (bytesBe16 v)) j.sock .command
      [Config.std.cmd .send]) j.sock .interrupt = regBytes pm j.sock .interrupt := fun v => by
    rw [regBytes_regWritten_other rfl (by decide), regBytes_regWritten_other rfl (by decide)]
  rw [taskReturn, hkept, if_pos hflag] at hs3
  obtain ⟨s4, h4, hs4⟩ := stands_regWrite hs3 hn rfl rfl _ fun _ => rfl
  exact ⟨s4, (after_succ h1 3).trans ((after_succ h2 2).trans ((after_succ h3 1).trans (after_succ h4 0))), hs4⟩

theorem sendAddressed_regBytes_other {r : RegName} (hr : r ∉ [RegName.destAddress, .destPort]) :
    regBytes (sendAddressed pm j) j.sock r = regBytes pm j.sock r := by
  simp only [List.mem_cons, List.not_mem_nil, or_false, not_or] at hr
  obtain ⟨haddr, hport⟩ := hr
  rw [sendAddressed, regBytes_regWritten_other rfl hport, regBytes_regWritten_other rfl haddr]

theorem sendFinished_regBytes_other {r : RegName} (hr : r ∉ [RegName.txWritePointer, .command, .interrupt]) :
    regBytes (sendFinished pm j p) j.sock r = regBytes pm j.sock r := by
  simp only [List.mem_cons, List.not_mem_nil, or_false, not_or] at hr
  obtain ⟨hptr, hcmd, hirq⟩ := hr
  rw [sendFinished, regBytes_regWritten_other rfl hirq, regBytes_regWritten_other rfl hcmd,
    regBytes_regWritten_other rfl hptr]

/-- What the five written registers hold in the end. -/
theorem sendFinished_regBytes (hbuf : BufferStored j.sock p j.szlog2 j.payload (sendAddressed pm j) pm') :
    regBytes (sendFinished pm' j p) j.sock .destAddress = addrBytes j.addr ∧
    regBytes (sendFinished pm' j p) j.sock .destPort = bytesBe16 j.port ∧
    regBytes (sendFinished pm' j p) j.sock .txWritePointer = bytesBe16 (p + BitVec.ofNat 16 j.payload.length) ∧
    regBytes (sendFinished pm' j p) j.sock .command = [Config.std.cmd .send] ∧
    regBytes (sendFinished pm' j p) j.sock .interrupt = [Config.std.irqSendDone] := by
  refine ⟨?_, ?_, ?_, ?_, ?_⟩
  · rw [sendFinished_regBytes_other (by decide), hbuf.regBytes, sendAddressed, regBytes_regWritten_other rfl (by decide),
      regBytes_regWritten_same rfl]
  · rw [sendFinished_regBytes_other (by decide), hbuf.regBytes, sendAddressed, regBytes_regWritten_same rfl]
  · rw [sendFinished, regBytes_regWritten_other rfl (by decide), regBytes_regWritten_other rfl (by decide),
      regBytes_regWritten_same rfl]
  · rw [sendFinished, regBytes_regWritten_other rfl (by decide), regBytes_regWritten_same rfl]
  · rw [sendFinished, regBytes_regWritten_same rfl]

theorem sendFinished_get_buffer {o : Nat} (ho : o < 65536) :
    Memory.get (sendFinished pm j p) (byteKey (blockOf j.sock .stx) o) = Memory.get pm (byteKey (blockOf j.sock .stx) o) := by
  rw [sendFinished, regWritten_get_buffer rfl (by decide) ho, regWritten_get_buffer rfl (by decide) ho,
    regWritten_get_buffer rfl (by decide) ho]

/-- Every byte outside the written registers and the payload's places is as before. -/
theorem sendFinished_get_other (hbuf : BufferStored j.sock p j.szlog2 j.payload (sendAddressed pm j) pm') {a : Nat}
    (hregs : ∀ r o, r ∈ [RegName.destAddress, .destPort, .txWritePointer, .command, .interrupt] → o < regWidth r →
      a ≠ byteKey (blockOf j.sock .sreg) ((Config.std.roff r).toNat + o))
    (hpay : ∀ k < j.payload.length, a ≠ byteKey (blockOf j.sock .stx) ((p.toNat + k) % 2 ^ j.szlog2.toNat)) :
    Memory.get (sendFinished pm' j p) a = Memory.get pm a := by
  rw [sendFinished, regWritten_get_other rfl (hregs .interrupt · (by decide)),
    regWritten_get_other rfl (hregs .command · (by decide)),
    regWritten_get_other rfl (hregs .txWritePointer · (by decide)), hbuf.others a hpay, sendAddressed,
    regWritten_get_other rfl (hregs .destPort · (by decide)), regWritten_get_other rfl (hregs .destAddress · (by decide))]

end

/-- Settles O59: the call, the four positions up to the payload and the four behind it, and what their writes have left. -/
theorem udpSendCompletes : Obligations.UdpSendCompletes := by
  intro s j rest p hf ht hk hp hrest hr hv hmax hl hb hflag hptr
  obtain ⟨hcall, hs⟩ := call_stands (c := .udpSend j) hf ht hk hp hr hv
  obtain ⟨u, pm', hu, hadv, hbuf⟩ := sendPayload_steps hs hrest hl hb hptr
  have hirq : regBytes pm' j.sock .interrupt = regBytes s.pm j.sock .interrupt :=
    (hbuf.regBytes _).trans (sendAddressed_regBytes_other (by decide))
  obtain ⟨t, hut, hend⟩ := sendAdvance_steps hadv hrest hmax (hirq ▸ hflag)
  refine ⟨t, (after_succ hcall 8).trans (after_trans hu hut), hend.task, hend.program, hend.results, ?_⟩
  simp only [sockReg_regBytes, hend.pm]
  obtain ⟨haddr, hport, hadvanced, hcmd, hclear⟩ := sendFinished_regBytes hbuf
  exact ⟨haddr, hport, hadvanced, hcmd, hclear,
    fun k hk => (sendFinished_get_buffer (buffer_offset_lt _ _)).trans (hbuf.stored k hk),
    fun a => sendFinished_get_other hbuf⟩

/-! ### udp_receive -/

section
variable {s0 s : State} {j : RecvJob} {pm : List Host.Cell} {n p : Half} {hd : InlineHeader}

/-- The inline header is read from its own 8 bytes (R226). -/
theorem inlineHeader_bytes (hd : InlineHeader) :
    inlineHeader (addrBytes hd.src ++ bytesBe16 hd.port ++ bytesBe16 hd.declared) = hd := by
  simp [inlineHeader, addrBytes, bytesBe16, be16At, be16_hi8_lo8]

/-- The five positions that read: two samples of the size, the pointer, the header and the payload (R225 steps 1 to 4). -/
theorem recvPayload_steps (h : Stands s0 (.sizeFirst (.recv j)) pm s) (hn : NoReset s0) (h8 : 8 ≤ 2 ^ j.szlog2.toNat)
    (hb : 2 ^ j.szlog2.toNat ≤ blockLimit s0 (blockOf j.sock .srx)) (hcopy : copyLen j hd ≤ 2 ^ j.szlog2.toNat)
    (hmin : 8 ≤ n.toNat) (hsize : regBytes pm j.sock .receivedSize = bytesBe16 n)
    (hptr : regBytes pm j.sock .rxReadPointer = bytesBe16 p)
    (hhdr : bufferBytes pm j.sock p.toNat j.szlog2 8 = addrBytes hd.src ++ bytesBe16 hd.port ++ bytesBe16 hd.declared) :
    ∃ u, s.after 5 = some u ∧
      Stands s0 (.recvAdvance j p hd (bufferBytes pm j.sock (p.toNat + 8) j.szlog2 (copyLen j hd))) pm u := by
  have hlen : (BitVec.ofNat 16 (copyLen j hd)).toNat = copyLen j hd := by
    rw [BitVec.toNat_ofNat, Nat.mod_eq_of_lt (copyLen_lt j hd)]
  obtain ⟨s1, h1, hs1⟩ := stands_read (i := j.sock) (r := .receivedSize) h hn rfl
  rw [hsize, taskReturn, be16At_bytesBe16] at hs1
  obtain ⟨s2, h2, hs2⟩ := stands_read (i := j.sock) (r := .receivedSize) hs1 hn rfl
  rw [hsize, taskReturn_stable _ (be16At_bytesBe16 n).symm hmin] at hs2
  obtain ⟨s3, h3, hs3⟩ := stands_read (r := .rxReadPointer) hs2 hn rfl
  rw [hptr, taskReturn, be16At_bytesBe16] at hs3
  obtain ⟨s4, h4, hs4⟩ := stands_bufferBytes (l := 8) hs3 hn rfl h8 hb
  rw [show (8 : Half).toNat = 8 from rfl, hhdr, taskReturn, inlineHeader_bytes] at hs4
  obtain ⟨s5, h5, hs5⟩ := stands_bufferBytes hs4 hn (taskIssue_recvPayload j p hd) (hlen.symm ▸ hcopy) hb
  rw [hlen, bufferBytes_cpAdv] at hs5
  exact ⟨s5, (after_succ h1 4).trans ((after_succ h2 3).trans ((after_succ h3 2).trans
    ((after_succ h4 1).trans (after_succ h5 0)))), hs5⟩

/-- The memory once the read pointer and the acknowledge command are written (R225 steps 5 and 6). -/
def recvFinished (pm : List Host.Cell) (j : RecvJob) (p : Half) (hd : InlineHeader) : List Host.Cell :=
  regWritten (regWritten pm j.sock .rxReadPointer (bytesBe16 (p + (8 + hd.declared)))) j.sock .command
    [Config.std.cmd .receiveAck]

/-- The two positions that write (R225 steps 5 and 6). -/
theorem recvAdvance_steps {data : List Byte} (h : Stands s0 (.recvAdvance j p hd data) pm s) (hn : NoReset s0) :
    ∃ u, s.after 2 = some u ∧
      Ended s0 (.received hd.src hd.port (copyLen j hd) data) (recvFinished pm j p hd) u := by
  obtain ⟨s1, h1, hs1⟩ := stands_regWrite h hn rfl rfl _ fun _ => rfl
  obtain ⟨s2, h2, hs2⟩ := stands_regWrite hs1 hn rfl rfl _ fun _ => rfl
  exact ⟨s2, (after_succ h1 1).trans (after_succ h2 0), hs2⟩

theorem recvFinished_regBytes :
    regBytes (recvFinished pm j p hd) j.sock .rxReadPointer = bytesBe16 (p + (8 + hd.declared)) ∧
    regBytes (recvFinished pm j p hd) j.sock .command = [Config.std.cmd .receiveAck] := by
  constructor
  · rw [recvFinished, regBytes_regWritten_other rfl (by decide), regBytes_regWritten_same rfl]
  · rw [recvFinished, regBytes_regWritten_same rfl]

/-- Every byte outside the two written registers is as before. -/
theorem recvFinished_get_other {a : Nat}
    (hregs : ∀ r o, r ∈ [RegName.rxReadPointer, .command] → o < regWidth r →
      a ≠ byteKey (blockOf j.sock .sreg) ((Config.std.roff r).toNat + o)) :
    Memory.get (recvFinished pm j p hd) a = Memory.get pm a := by
  rw [recvFinished, regWritten_get_other rfl (hregs .command · (by decide)),
    regWritten_get_other rfl (hregs .rxReadPointer · (by decide))]

end

/-- Settles O60: the call, the five positions that read and the two that write, and what the writes have left. -/
theorem udpReceiveCompletes : Obligations.UdpReceiveCompletes := by
  intro s j rest n p hd hf ht hk hp hrest hr hv h8 hb hcopy hmin hsize hptr hhdr
  obtain ⟨hcall, hs⟩ := call_stands (c := .udpReceive j) hf ht hk hp hr hv
  obtain ⟨u, hu, hadv⟩ := recvPayload_steps hs hrest h8 hb hcopy hmin hsize hptr hhdr
  obtain ⟨t, hut, hend⟩ := recvAdvance_steps hadv hrest
  refine ⟨t, (after_succ hcall 7).trans (after_trans hu hut), hend.task, hend.program, hend.results, ?_⟩
  simp only [sockReg_regBytes, hend.pm]
  obtain ⟨hadvanced, hcmd⟩ := recvFinished_regBytes
  exact ⟨hadvanced, hcmd, fun a => recvFinished_get_other⟩

end Sys2Proof.Machine
end
